-- ==== Sys2Proof/Word.lean ====
section
/-! DEFINITION. The word types of the core: every address, tag and bias is a 64-bit word (00_scope.md R9, R10). -/

namespace Sys2Proof

/-- A 64-bit word: addresses, tags, biases, operands (R9). Arithmetic is modulo 2^64 (R10). -/
abbrev Word := BitVec 64

/-- One byte of RAM, of a payload or of a device access. -/
abbrev Byte := BitVec 8

end Sys2Proof
end

