-- ==== Sys2Proof/Machine/Bits.lean ====
section
/-! DEFINITION. Bit-field, sign-extension and byte-order helpers (00_scope.md R10, R11). -/

namespace Sys2Proof.Machine

/-- `mask(n) = 2^n - 1`, for n at most 64 (R10). -/
def mask (n : Nat) : Word := BitVec.ofNat 64 (2 ^ n - 1)

/-- `sext_n(v)`: the low n bits of v sign-extended to 64 bits (R10). -/
def sext (n : Nat) (v : Word) : Word := (v.setWidth n).signExtend 64

/-- `pow2ceil(n)`: the least power of two that is at least n, for n at least 1 (R10). -/
def pow2ceil (n : Nat) : Nat := if n ≤ 1 then 1 else 2 ^ (Nat.log2 (n - 1) + 1)

/-- The unsigned integer whose byte i is the i-th byte (R11, `LE`). -/
def leNat : List Byte → Nat
  | [] => 0
  | b :: bs => b.toNat + 256 * leNat bs

/-- `LE(bytes)` as a 64-bit word (R11); at most eight bytes are given to it. -/
def leWord (bs : List Byte) : Word := BitVec.ofNat 64 (leNat bs)

/-- `LEbytes_n(v)`: the n-byte little-endian image of v (R11). -/
def leBytes : Nat → Word → List Byte
  | 0, _ => []
  | n + 1, v => v.setWidth 8 :: leBytes n (v >>> 8)

end Sys2Proof.Machine
end

