-- ==== Sys2Proof/Syntax.lean ====
section
/-! DEFINITION. Commands and micro-operations as syntax: the request record of 30_encoding.md R80, the command
codes of R82 and R83, and one constructor of `Instr` for each row of opcode_table.json. -/

namespace Sys2Proof

/-- An access kind (00_scope.md R12): READ, WRITE or EXEC. -/
inductive Op where
  | R
  | W
  | X
deriving DecidableEq, Repr, Inhabited

/-- Who issues a request. `external`: a hart, through the outward API (R82). `internal bias`: the dispatcher, issuing a
micro-operation of R83; `bias` is the host_bias it supplies with TLB.FILL and nothing for the others.
DESIGN CHOICE, safe: log entry 2. -/
inductive Origin where
  | external
  | internal (bias : Word)
deriving DecidableEq, Repr, Inhabited

/-- A command as issued (R80): header, operands a and b, payload; with its origin and its hart (R324). -/
structure Request where
  origin  : Origin
  hart    : Nat
  hdr     : BitVec 32
  a       : Word
  b       : Word
  payload : List Byte
deriving DecidableEq, Repr, Inhabited

/-- The command codes of R82 and the micro-operation codes of R83. -/
inductive Code where
  | accessR | accessW | accessX | tlbFlush | tlbFlushPage | ramInit | ramFree | ctxSet
  | walk | tlbLookup | tlbFill | physToHost | findMmio | mmioRead | mmioWrite
deriving DecidableEq, Repr

/-- Why a request is refused by the decoder: the reasons of R84, and `payload` for a payload whose length is not the
one R80 gives it (log entry 18). -/
inductive DecodeError where
  | reservedCode
  | internal
  | reservedFlag
  | size
  | operand
  | payload
deriving DecidableEq, Repr

/-- One constructor for each row of opcode_table.json. -/
inductive Instr where
  /-- ACCESS.R (R193): load `size` bytes at `vaddr`. -/
  | accessR (vaddr : Word) (size : Nat)
  /-- ACCESS.W (R194): store `payload` at `vaddr`; SIZE is the payload's length. -/
  | accessW (vaddr : Word) (payload : List Byte)
  /-- ACCESS.X (R195): fetch `size` bytes at `vaddr`. -/
  | accessX (vaddr : Word) (size : Nat)
  /-- TLB.FLUSH (R227). -/
  | tlbFlush
  /-- TLB.FLUSHPAGE (R228). -/
  | tlbFlushPage (vaddr : Word)
  /-- RAM.INIT (R123). -/
  | ramInit (start size : Word)
  /-- RAM.FREE (R124). -/
  | ramFree
  /-- CTX.SET (R196): operand a, the context word b of R86, and header bit 24. -/
  | ctxSet (root ctxWord : Word) (satpw : Bool)
  /-- WALK (R155), `acc` an access mask (R12). -/
  | walk (vaddr acc : Word)
  /-- TLB.LOOKUP (R221): vpn = vaddr >> 12. -/
  | tlbLookup (vaddr : Word) (op : Op)
  /-- TLB.FILL (R223): vpn = vaddr >> 12, `bias` supplied by the dispatcher. -/
  | tlbFill (vaddr : Word) (op : Op) (bias : Word)
  /-- PAM.PHYS2HOST (R120). -/
  | physToHost (paddr : Word)
  /-- PAM.FINDMMIO (R121). -/
  | findMmio (paddr : Word)
  /-- MMIO.READ (R259): device offset, device index, size. -/
  | mmioRead (off dev : Word) (size : Nat)
  /-- MMIO.WRITE (R260): device offset, device index, the source bytes. -/
  | mmioWrite (off dev : Word) (payload : List Byte)
deriving DecidableEq, Repr

end Sys2Proof
end

