-- ==== Sys2Proof/Config.lean ====
section
/-! DEFINITION. What is fixed for a run: launch parameters (00_scope.md R8), device descriptors (10_state.md R31) and
the launch context CTX0 (70_reset_and_hazards.md R341); the vocabulary of events (10_state.md R33); and the values the
spec leaves to a draw, as opaque constants. The parameters are a field of State that no step writes, so that a statement
about every state covers every configuration. -/

namespace Sys2Proof.Config

/-- XLEN (R8): 32 or 64. -/
inductive XLen where
  | x32
  | x64
deriving DecidableEq, Repr, Inhabited

/-- MXR_READ_RULE (R8, R184). -/
inductive MxrRule where
  | union
  | replace
deriving DecidableEq, Repr, Inhabited

/-- WALK_NON_RAM_FAULT (R8, R145). -/
inductive NonRamFault where
  | page
  | access
deriving DecidableEq, Repr, Inhabited

/-- A device operation size (R31): 1, 2, 4, 8 or 16 bytes. -/
inductive OpSize where
  | b1 | b2 | b4 | b8 | b16
deriving DecidableEq, Repr, Inhabited

/-- An MMIO device descriptor (R31): the region `[begin, stop)`, the two operation sizes, and the opaque `ctx` passed
back to the device. `stop` is the spec's `end`. Its callbacks are the oracle of R258. -/
structure Device where
  begin : Word
  stop  : Word
  minOp : OpSize
  maxOp : OpSize
  ctx   : Word
deriving DecidableEq, Repr, Inhabited

/-- The privilege codes of 30_encoding.md R87: every 2-bit value has a name. -/
inductive Priv where
  | user
  | supervisor
  | reserved
  | machine
deriving DecidableEq, Repr, Inhabited

/-- The six hart-context fields (10_state.md R20). `mode` is the 4-bit paging code: software writes any of the sixteen
values (R22). -/
structure Ctx where
  priv : Priv
  mode : BitVec 4
  root : Word
  mprv : Bool
  mpp  : Priv
  mxr  : Bool
deriving DecidableEq, Repr, Inhabited

/-- The launch parameters of 00_scope.md R8, the device list (R31) and CTX0 (R341). -/
structure Params where
  xlen          : XLen
  harts         : Nat
  tlbEntries    : Nat
  maxAccess     : Nat
  mxrRule       : MxrRule
  walkNonRam    : NonRamFault
  pteLoadAtomic : Bool
  flushSlot0Tag : Word
  devices       : List Device
  ctx0          : Ctx
deriving DecidableEq, Repr, Inhabited

/-- CTX0 of the reset state. DESIGN CHOICE, unsafe (log entry 5): the spec leaves CTX0 to the launch and names this value as
an example (R341). -/
def defaultCtx0 : Ctx :=
  { priv := .machine, mode := 0, root := 0, mprv := false, mpp := .user, mxr := false }

/-- The parameters of the reset state: the values and defaults of R8; XLEN, HARTS and the device list are DESIGN CHOICES
(log entries 4 and 6). -/
def defaultParams : Params :=
  { xlen := .x64, harts := 4, tlbEntries := 256, maxAccess := 16, mxrRule := .union, walkNonRam := .page,
    pteLoadAtomic := false, flushSlot0Tag := 0xFFFFFFFFFFFFFFFF, devices := [], ctx0 := defaultCtx0 }

/-- One event of the core's output history (10_state.md R33). Each names its hart. -/
inductive Event where
  /-- The source's raise_trap (60_exceptions.md R310). -/
  | trap (hart : Nat) (cause : Nat) (tval : Word)
  /-- The no-op hook (42_dispatcher.md R187). -/
  | jitInvalidate (hart : Nat) (vaddr paddr : Word) (size : Nat)
  /-- One device read callback (44_mmio.md R255). -/
  | devRead (hart dev : Nat) (off : Word) (size : Nat)
  /-- One device write callback (R255). -/
  | devWrite (hart dev : Nat) (off : Word) (size : Nat) (bytes : List Byte)
  /-- One read of RAM bytes, by an ACCESS copy or a PTE load. -/
  | ramRead (hart : Nat) (paddr : Word) (size : Nat)
  /-- One write of RAM bytes by an ACCESS copy. -/
  | ramWrite (hart : Nat) (paddr : Word) (size : Nat) (bytes : List Byte)
  /-- The walker's compare-and-swap of a PTE word (41_walker.md R151). -/
  | ramCas (hart : Nat) (paddr : Word) (size : Nat) (expected desired : Word) (success : Bool)
deriving DecidableEq, Repr

/-- One callback of a device as the oracle sees it (44_mmio.md R258): which device with which `ctx`, offset, size, and the
bytes of a write (`none` for a read). -/
structure DevCall where
  dev   : Nat
  ctx   : Word
  off   : Word
  size  : Nat
  bytes : Option (List Byte)
deriving DecidableEq, Repr

/-- A device's answer: the success bit, and sixteen bytes of which a read of n bytes takes the first n (R258; a callback
moves at most 16 bytes, 20_memory.md R56). A write ignores the bytes. -/
structure DevAnswer where
  ok    : Bool
  bytes : BitVec 128
deriving DecidableEq, Repr, Inhabited

/-- FREE VALUE (log entry 7). The device oracle's draw for a call: the n-th free draw of the run, after the given event
history (R258: it "may depend on the whole event history"). Nothing is known of its value. -/
opaque deviceAnswer : Nat → List Event → DevCall → DevAnswer

/-- FREE VALUE (log entry 8). RAM.INIT's draw ALLOC_FAILS for a legal region (R123): the n-th free draw of the run. -/
opaque allocFails : Nat → Word → Word → Bool

end Sys2Proof.Config
end

