-- ==== Sys2Proof/WellFormed.lean ====
section
/-! DEFINITION. Which instructions are well formed: the operand checks of 30_encoding.md R84 and R85 and the operand
domains of R83. -/

namespace Sys2Proof

/-- An access mask is "a nonzero OR" of 0x2, 0x4 and 0x8 (00_scope.md R12). -/
def isAccessMask (acc : Word) : Bool :=
  acc != 0 && (acc &&& ~~~(0xE : Word)) == 0

/-- The byte count of an ACCESS command (R85): 1 .. MAX_ACCESS. -/
def accessSizeOk (maxAccess n : Nat) : Bool :=
  1 ≤ n && n ≤ maxAccess

/-- The byte count the adapter is called with (44_mmio.md R250): 1 .. 16. -/
def mmioSizeOk (n : Nat) : Bool :=
  1 ≤ n && n ≤ 16

/-- An instruction whose operands are in the domains the spec gives them. CTX.SET's operands are checked by its own rule
(R196) and not here. -/
def Instr.wellFormed (maxAccess : Nat) : Instr → Bool
  | .accessR _ n => accessSizeOk maxAccess n
  | .accessW _ p => accessSizeOk maxAccess p.length
  | .accessX _ n => accessSizeOk maxAccess n
  | .tlbFlush => true
  | .tlbFlushPage _ => true
  | .ramInit _ _ => true
  | .ramFree => true
  | .ctxSet _ _ _ => true
  | .walk _ acc => isAccessMask acc
  | .tlbLookup _ _ => true
  | .tlbFill _ _ _ => true
  | .physToHost _ => true
  | .findMmio _ => true
  | .mmioRead _ _ n => mmioSizeOk n
  | .mmioWrite _ _ p => mmioSizeOk p.length

end Sys2Proof
end

