-- ==== Sys2Proof/Decode.lean ====
section
/-! DEFINITION. Decoding a request, total, with the checks of 30_encoding.md R84 in their order, and the encoder written
from the same tables (R80 to R86). -/

namespace Sys2Proof

/-- The command byte of a code: the tables of R82 and R83. -/
def Code.toByte : Code → BitVec 8
  | .accessR => 0x02
  | .accessW => 0x04
  | .accessX => 0x08
  | .tlbFlush => 0x10
  | .tlbFlushPage => 0x11
  | .ramInit => 0x20
  | .ramFree => 0x21
  | .ctxSet => 0x30
  | .walk => 0x40
  | .tlbLookup => 0x41
  | .tlbFill => 0x42
  | .physToHost => 0x43
  | .findMmio => 0x44
  | .mmioRead => 0x45
  | .mmioWrite => 0x46

/-- Every code, in the order of R82 and R83. -/
def allCodes : List Code :=
  [.accessR, .accessW, .accessX, .tlbFlush, .tlbFlushPage, .ramInit, .ramFree, .ctxSet,
   .walk, .tlbLookup, .tlbFill, .physToHost, .findMmio, .mmioRead, .mmioWrite]

/-- The code a command byte names, if any (R82, R83). -/
def codeOfByte (b : BitVec 8) : Option Code :=
  allCodes.find? (fun c => c.toByte == b)

/-- The micro-operations of R83. -/
def Code.isInternal : Code → Bool
  | .walk | .tlbLookup | .tlbFill | .physToHost | .findMmio | .mmioRead | .mmioWrite => true
  | .accessR | .accessW | .accessX | .tlbFlush | .tlbFlushPage | .ramInit | .ramFree | .ctxSet => false

/-- Header fields (R80). -/
def cmdField (hdr : BitVec 32) : BitVec 8 := hdr.extractLsb' 0 8
def sizeField (hdr : BitVec 32) : BitVec 16 := hdr.extractLsb' 8 16
def flagField (hdr : BitVec 32) : BitVec 8 := hdr.extractLsb' 24 8

/-- Header bit 24, SATPW in CTX.SET (R80, R86). -/
def satpwBit (hdr : BitVec 32) : Bool := hdr.getLsbD 24

/-- The code of an access kind (R89). -/
def opCode : Op → Word
  | .R => 0x2
  | .W => 0x4
  | .X => 0x8

/-- The access kind of a code (R89). -/
def opOfCode (w : Word) : Option Op :=
  if w = 0x2 then some .R else if w = 0x4 then some .W else if w = 0x8 then some .X else none

/-- R84 step 3: every flag bit is 0, but bit 24 in CTX.SET. -/
def flagsOk (c : Code) (hdr : BitVec 32) : Bool :=
  match c with
  | .ctxSet => (flagField hdr &&& 0xFE) == 0
  | _ => flagField hdr == 0

/-- R84 step 4, and the size of an adapter call (44_mmio.md R250). -/
def sizeOk (maxAccess : Nat) (c : Code) (n : Nat) : Bool :=
  match c with
  | .accessR | .accessW | .accessX => accessSizeOk maxAccess n
  | .mmioRead | .mmioWrite => mmioSizeOk n
  | _ => n == 0

/-- R84 step 5: an operand that R81 gives as 0 is 0; an access kind or mask of R83 is one. -/
def operandsOk (c : Code) (a b : Word) : Bool :=
  match c with
  | .accessR | .accessW | .accessX => b == 0
  | .tlbFlush => a == 0 && b == 0
  | .tlbFlushPage => b == 0
  | .ramInit => true
  | .ramFree => a == 0 && b == 0
  | .ctxSet => true
  | .walk => isAccessMask b
  | .tlbLookup | .tlbFill => (opOfCode b).isSome
  | .physToHost | .findMmio => b == 0
  | .mmioRead | .mmioWrite => true

/-- The payload is SIZE bytes for ACCESS.W and MMIO.WRITE and empty for every other code (R80, R83; log entry 18). -/
def payloadLength (c : Code) (n : Nat) : Nat :=
  match c with
  | .accessW | .mmioWrite => n
  | _ => 0

/-- The bias the dispatcher supplies with an internal request. -/
def Origin.bias : Origin → Word
  | .external => 0
  | .internal b => b

/-- A request was issued from outside the core. -/
def Origin.isExternal : Origin → Bool
  | .external => true
  | .internal _ => false

/-- The instruction of a request whose checks have passed. -/
def buildInstr (c : Code) (r : Request) : Instr :=
  let n := (sizeField r.hdr).toNat
  match c with
  | .accessR => .accessR r.a n
  | .accessW => .accessW r.a r.payload
  | .accessX => .accessX r.a n
  | .tlbFlush => .tlbFlush
  | .tlbFlushPage => .tlbFlushPage r.a
  | .ramInit => .ramInit r.a r.b
  | .ramFree => .ramFree
  | .ctxSet => .ctxSet r.a r.b (satpwBit r.hdr)
  | .walk => .walk r.a r.b
  | .tlbLookup => .tlbLookup r.a ((opOfCode r.b).getD .R)
  | .tlbFill => .tlbFill r.a ((opOfCode r.b).getD .R) r.origin.bias
  | .physToHost => .physToHost r.a
  | .findMmio => .findMmio r.a
  | .mmioRead => .mmioRead r.a r.b n
  | .mmioWrite => .mmioWrite r.a r.b r.payload

/-- The decoder (R84): the checks in the spec's order, then the instruction. -/
def decode (maxAccess : Nat) (r : Request) : Except DecodeError Instr :=
  match codeOfByte (cmdField r.hdr) with
  | none => .error .reservedCode
  | some c =>
    if c.isInternal && r.origin.isExternal then .error .internal
    else if !flagsOk c r.hdr then .error .reservedFlag
    else if !sizeOk maxAccess c (sizeField r.hdr).toNat then .error .size
    else if !operandsOk c r.a r.b then .error .operand
    else if r.payload.length != payloadLength c (sizeField r.hdr).toNat then .error .payload
    else .ok (buildInstr c r)

/-- The header `CMD | SIZE << 8 | FLG << 24` (R80). -/
def header (c : Code) (size : Nat) (satpw : Bool) : BitVec 32 :=
  (BitVec.ofNat 8 satpw.toNat) ++ (BitVec.ofNat 16 size) ++ c.toByte

/-- The code of an instruction's row. -/
def Instr.code : Instr → Code
  | .accessR _ _ => .accessR
  | .accessW _ _ => .accessW
  | .accessX _ _ => .accessX
  | .tlbFlush => .tlbFlush
  | .tlbFlushPage _ => .tlbFlushPage
  | .ramInit _ _ => .ramInit
  | .ramFree => .ramFree
  | .ctxSet _ _ _ => .ctxSet
  | .walk _ _ => .walk
  | .tlbLookup _ _ => .tlbLookup
  | .tlbFill _ _ _ => .tlbFill
  | .physToHost _ => .physToHost
  | .findMmio _ => .findMmio
  | .mmioRead _ _ _ => .mmioRead
  | .mmioWrite _ _ _ => .mmioWrite

/-- The SIZE field of an instruction (R80). -/
def Instr.size : Instr → Nat
  | .accessR _ n | .accessX _ n | .mmioRead _ _ n => n
  | .accessW _ p | .mmioWrite _ _ p => p.length
  | _ => 0

/-- Operand a (R81, R83). -/
def Instr.operandA : Instr → Word
  | .accessR v _ | .accessW v _ | .accessX v _ | .tlbFlushPage v => v
  | .tlbFlush | .ramFree => 0
  | .ramInit start _ => start
  | .ctxSet root _ _ => root
  | .walk v _ | .tlbLookup v _ | .tlbFill v _ _ => v
  | .physToHost p | .findMmio p => p
  | .mmioRead off _ _ | .mmioWrite off _ _ => off

/-- Operand b (R81, R83). -/
def Instr.operandB : Instr → Word
  | .accessR _ _ | .accessW _ _ | .accessX _ _ | .tlbFlushPage _ => 0
  | .tlbFlush | .ramFree => 0
  | .ramInit _ size => size
  | .ctxSet _ w _ => w
  | .walk _ acc => acc
  | .tlbLookup _ op | .tlbFill _ op _ => opCode op
  | .physToHost _ | .findMmio _ => 0
  | .mmioRead _ dev _ | .mmioWrite _ dev _ => dev

/-- The payload (R80, R83). -/
def Instr.payload : Instr → List Byte
  | .accessW _ p | .mmioWrite _ _ p => p
  | _ => []

/-- Header bit 24. -/
def Instr.satpw : Instr → Bool
  | .ctxSet _ _ satpw => satpw
  | _ => false

/-- The origin an instruction is issued with: a micro-operation by the dispatcher, with TLB.FILL's bias. -/
def Instr.origin : Instr → Origin
  | .tlbFill _ _ bias => .internal bias
  | i => if i.code.isInternal then .internal 0 else .external

/-- The request that issues an instruction from a hart: the words of R80 written out. -/
def encode (hart : Nat) (i : Instr) : Request :=
  { origin := i.origin, hart := hart, hdr := header i.code i.size i.satpw, a := i.operandA, b := i.operandB,
    payload := i.payload }

/-- Byte `j` of a number, little-endian. -/
def byteOfNat (w j : Nat) : Byte := BitVec.ofNat 8 (w >>> (8 * j))

/-- A request read from one number: the header in bits 31..0, operand a in 95..32, operand b in 159..96, payload byte j in
bits 167+8j..160+8j, the dispatcher's bias in 351..288. A micro-operation's code is issued by the dispatcher, every other
from outside. The spec gives no layout of the record (R80): DESIGN CHOICE, safe (log entry 30). -/
def requestOfBits (w : Nat) : Request :=
  let hdr : BitVec 32 := BitVec.ofNat 32 w
  let code := codeOfByte (cmdField hdr)
  let n := (sizeField hdr).toNat
  { origin := if (code.map Code.isInternal).getD false then .internal (BitVec.ofNat 64 (w >>> 288)) else .external
    hart := 0
    hdr := hdr
    a := BitVec.ofNat 64 (w >>> 32)
    b := BitVec.ofNat 64 (w >>> 96)
    payload := (List.range ((code.map (payloadLength · n)).getD 0)).map (fun j => if j < 16 then byteOfNat w (20 + j) else 0) }

/-- The instruction the decoder reads from a table word of `nbits` bits, the bits above being 0, under the reset
parameters. -/
def decodeTableWord (nbits w : Nat) : Option Instr :=
  match decode Config.defaultParams.maxAccess (requestOfBits (w % 2 ^ nbits)) with
  | .ok i => some i
  | .error _ => none

end Sys2Proof
end

