-- ==== Sys2Proof/Machine/State.lean ====
section
/-! DEFINITION. The state of the core (10_state.md), the reasons a step can stop, and the state after launch and reset
(10_state.md R38, 70_reset_and_hazards.md R340 to R343). -/

namespace Sys2Proof.Machine

open Sys2Proof.Config

/-- One TLB slot (10_state.md R25, 30_encoding.md R97). -/
structure Slot where
  tagR     : Word
  tagW     : Word
  tagX     : Word
  hostBias : Word
deriving DecidableEq, Repr, Inhabited

/-- A hart: its context (R20) and its TLB (R25). The TLB is a list of (slot index, slot), indexes rising; an unlisted slot
holds the flushed value of R27 (log entry 11). -/
structure Hart where
  ctx : Ctx
  tlb : List (Nat × Slot)
deriving DecidableEq, Repr, Inhabited

/-- The RAM region (R29). `data` lists (RAM offset, byte), offsets rising; an unlisted offset reads 0, which is what RAM.INIT
leaves in every byte (R30). -/
structure Ram where
  present : Bool
  begin   : Word
  size    : Word
  data    : List Host.Cell
deriving DecidableEq, Repr, Inhabited

/-- What another agent does between two shared accesses of a command: an agent outside the harts writes a RAM byte, or
another hart goes on with its own command by one shared access (20_memory.md R57, 60_exceptions.md R320). -/
inductive Action where
  | write (o : Nat) (b : Byte)
  | move (hart : Nat)
deriving DecidableEq, Repr

/-- The order in which a PTE load that may tear reads its bytes (20_memory.md R58), for the load that hart `hart` begins when the
history holds `events` events. -/
structure PteOrder where
  hart   : Nat
  events : Nat
  order  : List Nat
deriving DecidableEq, Repr, Inhabited

/-- Inputs of the run that the core does not produce, as plain data (the model's own fields). `others`: batches of actions of
other agents, the next batch done at the next point where R57, R58, R163 and R320 let another agent in (log entry 9).
`pteOrders`: the byte orders of PTE loads that may tear; a load for which none is listed reads upwards (log entry 32).
`devAnswers`: device answers supplied by the run; when none is left the answer is a free value
(log entry 7). `allocDraws`: the same for RAM.INIT's draw, true meaning that the allocation fails (log entry 8). `draws`
counts the free values drawn. -/
structure Env where
  others     : List (List Action)
  pteOrders  : List PteOrder
  devAnswers : List DevAnswer
  allocDraws : List Bool
  draws      : Nat
deriving DecidableEq, Repr, Inhabited

/-- What an access of a command to the machine has answered (Machine/Prog.lean). -/
inductive Reply where
  | unit
  | lookup (hit : Bool) (bias : Word)
  | byte (b : Byte)
  | word (w : Word)
  | success (ok : Bool)
  | answer (a : DevAnswer)
  | order (bytes : List Nat)
deriving DecidableEq, Repr

/-- An ACCESS command of a hart that has begun and not ended (R320, 20_memory.md R57): its kind and operands, and what its
accesses to the machine have answered so far, oldest first (log entry 10). -/
structure Running where
  hart  : Nat
  op    : Op
  vaddr : Word
  size  : Nat
  buf   : List Byte
  seen  : List Reply
deriving DecidableEq, Repr

/-- Why a walk returns Fault (41_walker.md R155). -/
inductive WalkFault where
  | noncanonical
  | pteNotRam
  | invalid
  | permission
  | misalignedSuperpage
  | noLeaf
deriving DecidableEq, Repr

/-- The result of WALK (R155). -/
inductive WalkResult where
  | ok (paddr : Word)
  | fault (why : WalkFault)
deriving DecidableEq, Repr

/-- What a command or micro-operation returns: a command `{ok, data}` (30_encoding.md R80), a micro-operation the value of
its rule; MMIO.READ and MMIO.WRITE return the adapter's boolean and bytes in the same form. -/
inductive Value where
  | command (ok : Bool) (data : List Byte)
  | walk (r : WalkResult)
  | lookup (hit : Bool) (bias : Word)
  | filled
  | hostOffset (o : Option Word)
  | device (k : Option Nat)
deriving DecidableEq, Repr

/-- A returned value and the hart it was returned to. -/
structure Returned where
  hart  : Nat
  value : Value
deriving DecidableEq, Repr

/-- The state. `harts` lists (hart index, hart), indexes rising; an unlisted hart is as reset leaves it: flushed TLB and
context CTX0 (R340, R341). `params` is fixed at launch (R32, R343). `pending` holds the commands issued and not performed,
the next one first; `running` the commands begun and not ended, one at most for each hart; `cur` is the hart of the command
performed last. `failed`: a RAM.INIT has returned false, and the machine does not start (40_pam.md R123). `freed`: RAM.FREE has
ended the run (R124). -/
structure State where
  params   : Params
  harts    : List (Nat × Hart)
  ram      : Ram
  history  : List Event
  returned : List Returned
  failed   : Bool
  freed    : Bool
  cur      : Nat
  pending  : List Request
  running  : List Running
  env      : Env
deriving DecidableEq, Repr

/-- Why the machine stops with a fault. None is the spec's; each guards a primitive where the spec does not define it, and
no legal state reaches one (Safety.lean). -/
inductive Fault where
  /-- Raised by the RAM primitives (`ramRead`, `ramWrite`, the PTE load and CAS) when one of their bytes is outside the RAM region:
  "defined only when every address is in the RAM region" (00_scope.md R11). Safe. -/
  | ramRange
  /-- Raised by the MMIO adapter if its recursion were deeper than 16 calls, which R256 excludes. Safe. -/
  | adapterDepth
deriving DecidableEq, Repr

/-- Why a step gives no meaning: the refusals of 60_exceptions.md R305 and of the model's own boundary. All are safe: a refusal
has no effect (R84). -/
inductive Refusal where
  /-- An instruction of the table without a meaning in this model: there is none. -/
  | notModelled (mnemonic : String)
  /-- The decoder refused the request (R84). Raised by `step`. -/
  | undecodable (why : DecodeError)
  /-- `vaddr >= 2^XLEN` (R180). Raised by ACCESS. -/
  | vaddrWidth
  /-- `eff_priv = 2` (R183). Raised by ACCESS. -/
  | reservedPrivilege
  /-- CTX.SET with a root that is not page-aligned (R196). -/
  | misalignedRoot
  /-- CTX.SET with a reserved bit of the context word set (R196). -/
  | reservedContextBits
  /-- A widen whose window is over 16 bytes (R257). Raised by the MMIO adapter. -/
  | mmioWindow
  /-- RAM.INIT with RAM present (R123). -/
  | ramInitTwice
  /-- RAM.INIT or RAM.FREE while a hart is inside a command: both are legal "only while no hart runs" (R123, R124, R345). -/
  | hartsRunning
  /-- A command after a false RAM.INIT: "the machine does not start" (R123, R345). Raised by `step`. -/
  | notStarted
  /-- RAM.INIT of a region that overlaps a device, which R31 refuses (log entry 13). -/
  | ramOverlapsDevice
  /-- RAM.FREE without RAM (R124). -/
  | freeWithoutRam
  /-- A command after RAM.FREE (R124). Raised by `step`. -/
  | afterRamFree
  /-- A launch configuration that R8 or R31 does not allow. Raised by `step` (log entry 22). -/
  | illegalLaunch
  /-- A request that names no hart 0 .. HARTS-1 (R324). Raised by `step` (log entry 19). -/
  | noSuchHart
  /-- MMIO.READ or MMIO.WRITE with a device index past the list (log entry 21). -/
  | noSuchDevice
  /-- WALK under a mode that has no walk (R140; log entry 21). -/
  | walkUnpaged
deriving DecidableEq, Repr

/-- The outcome of an operation inside a command: a value and what it leaves of `σ`, or a stop. -/
inductive RunOf (σ α : Type) where
  | done (a : α) (s : σ)
  | fault (f : Fault)
  | refused (r : Refusal)
deriving DecidableEq, Repr

/-- An operation over the whole state. -/
abbrev Run (α : Type) := RunOf State α

/-- Sequencing: go on with the value and the state, or stay stopped. -/
def RunOf.bind {σ α β : Type} (r : RunOf σ α) (f : α → σ → RunOf σ β) : RunOf σ β :=
  match r with
  | .done a s => f a s
  | .fault e => .fault e
  | .refused e => .refused e

/-- No RAM region (R30). -/
def Ram.absent : Ram := { present := false, begin := 0, size := 0, data := [] }

/-- The machine at launch under given parameters (R38, R340 to R343): every hart in its reset state, no RAM, empty history. -/
def State.launch (p : Params) : State :=
  { params := p, harts := [], ram := Ram.absent, history := [], returned := [], failed := false, freed := false, cur := 0,
    pending := [], running := [], env := { others := [], pteOrders := [], devAnswers := [], allocDraws := [], draws := 0 } }

/-- The machine right after reset, under the parameters of `Config.defaultParams`. -/
def State.reset : State := State.launch defaultParams

end Sys2Proof.Machine
end

