-- ==== Sys2Proof/Machine/Operands.lean ====
section
/-! DEFINITION. Every operand and field form of the spec: pages and slots (30_encoding.md R96), the context word (R86),
the paging mode (41_walker.md R140), the fields of a walk (R95), device operation sizes (10_state.md R31). -/

namespace Sys2Proof.Machine

open Sys2Proof.Config

/-- `PAGE_SIZE` (00_scope.md R7). -/
def pageSize : Nat := 4096

/-- `VPN(v) = v >> 12` over the whole value (R13, R96). -/
def vpnOf (v : Word) : Word := v >>> 12

/-- `vaddr & 0xFFF` (42_dispatcher.md R181). -/
def pageOffset (v : Word) : Nat := (v &&& 0xFFF).toNat

/-- `XLEN` as a number of bits (R8). -/
def xlenBits : XLen → Nat
  | .x32 => 32
  | .x64 => 64

/-- `(v + n) mod 2^XLEN` (R181). -/
def wrapAddr (x : XLen) (v : Word) : Word := v &&& mask (xlenBits x)

/-- `slot = VPN & (TLB_ENTRIES - 1)` (43_tlb.md R220). -/
def slotIndex (p : Params) (vpn : Word) : Nat := vpn.toNat &&& (p.tlbEntries - 1)

/-- A 2-bit privilege code (30_encoding.md R87). -/
def privOfBits (b : BitVec 2) : Priv :=
  if b = 0 then .user else if b = 1 then .supervisor else if b = 2 then .reserved else .machine

/-- The code of a privilege (R87). -/
def privBits : Priv → BitVec 2
  | .user => 0
  | .supervisor => 1
  | .reserved => 2
  | .machine => 3

/-- The context word's reserved bits [7:6] and [63:12] (R86). -/
def ctxReservedMask : Word := 0xFFFFFFFFFFFFF0C0

/-- The context that CTX.SET's operands name (R86). -/
def ctxOfWord (root w : Word) : Ctx :=
  { priv := privOfBits (w.extractLsb' 0 2)
    mode := w.extractLsb' 8 4
    root := root
    mprv := w.getLsbD 4
    mpp := privOfBits (w.extractLsb' 2 2)
    mxr := w.getLsbD 5 }

/-- The context word of a context (R86). -/
def wordOfCtx (c : Ctx) : Word :=
  (0 : BitVec 52) ++ c.mode ++ (0 : BitVec 2) ++ BitVec.ofBool c.mxr ++ BitVec.ofBool c.mprv ++ privBits c.mpp ++ privBits c.priv

/-- The parameters of a walk (00_scope.md R7). -/
structure WalkParams where
  vpnBits  : Nat
  levels   : Nat
  pteBytes : Nat
  physBits : Nat
deriving DecidableEq, Repr

/-- What a 4-bit mode code means (41_walker.md R140). -/
inductive Paging where
  | bare
  | paged (wp : WalkParams)
  | unknown
deriving DecidableEq, Repr

def sv32 : WalkParams := { vpnBits := 10, levels := 2, pteBytes := 4, physBits := 34 }
def sv39 : WalkParams := { vpnBits := 9, levels := 3, pteBytes := 8, physBits := 56 }
def sv48 : WalkParams := { vpnBits := 9, levels := 4, pteBytes := 8, physBits := 56 }
def sv57 : WalkParams := { vpnBits := 9, levels := 5, pteBytes := 8, physBits := 56 }

/-- `MODE_PARAMS` (R140, 30_encoding.md R88), whatever XLEN is. -/
def modeParams (m : BitVec 4) : Paging :=
  if m = 0 then .bare
  else if m = 1 then .paged sv32
  else if m = 8 then .paged sv39
  else if m = 9 then .paged sv48
  else if m = 10 then .paged sv57
  else .unknown

/-- `bit_off = i * vpn_bits + 12` at level i (R141). -/
def bitOff (wp : WalkParams) (i : Nat) : Nat := i * wp.vpnBits + 12

/-- `pte_phys = pagetable + index * pte_bytes`, `index = (vaddr >> bit_off) & mask(vpn_bits)` (R144). -/
def pteAddress (wp : WalkParams) (table vaddr : Word) (i : Nat) : Word :=
  table + ((vaddr >>> bitOff wp i) &&& mask wp.vpnBits) * BitVec.ofNat 64 wp.pteBytes

/-- The next table of a pointer: `((pte >> 10) << 12) & mask(phys_bits)` (R153). -/
def nextTable (wp : WalkParams) (pte : Word) : Word :=
  ((pte >>> 10) <<< 12) &&& mask wp.physBits

/-- The paddr of a leaf at level i: `((pte << 2) & pmask) | (vaddr & vmask)` (R152). -/
def leafPaddr (wp : WalkParams) (pte vaddr : Word) (i : Nat) : Word :=
  ((pte <<< 2) &&& (mask wp.physBits &&& ~~~ mask (bitOff wp i))) ||| (vaddr &&& mask (bitOff wp i))

/-- A leaf at level i with a PPN bit below that level set (R150, conflict C1). -/
def misaligned (wp : WalkParams) (pte : Word) (i : Nat) : Bool :=
  ((pte <<< 2) &&& mask (bitOff wp i) &&& (mask wp.physBits &&& ~~~ mask 12)) != 0

/-- The canonical check of the 64-bit modes (R142); Sv32 has none (R143). -/
def canonical (wp : WalkParams) (vaddr : Word) : Bool :=
  wp.pteBytes != 8 || vaddr == sext (bitOff wp (wp.levels - 1) + wp.vpnBits) vaddr

/-- A device operation size in bytes (10_state.md R31). -/
def opBytes : OpSize → Nat
  | .b1 => 1
  | .b2 => 2
  | .b4 => 4
  | .b8 => 8
  | .b16 => 16

/-- Effective privilege: MPP for a READ or WRITE under MPRV, else the current privilege (42_dispatcher.md R182). -/
def effPriv (c : Ctx) (op : Op) : Priv :=
  if c.mprv && op != .X then c.mpp else c.priv

/-- The access mask (42_dispatcher.md R184, conflict C2): a READ under MXR needs R or X (`union`), or X (`replace`). -/
def accessMask (rule : MxrRule) (c : Ctx) (op : Op) : Word :=
  if c.mxr && op == .R then
    match rule with
    | .union => opCode .R ||| opCode .X
    | .replace => opCode .X
  else opCode op

end Sys2Proof.Machine
end

