-- ==== Sys2Proof/Machine/Flags.lean ====
section
/-! DEFINITION. Flag computations. The core has no condition flags (10_state.md R35); the flag bits it reads and writes are
those of a PTE (30_encoding.md R90, R94). -/

namespace Sys2Proof.Machine

/-- `V = 0`, or the reserved encoding `R = 0, W = 1` (R94, 41_walker.md R147). -/
def pteInvalid (pte : Word) : Bool :=
  !pte.getLsbD 0 || (!pte.getLsbD 1 && pte.getLsbD 2)

/-- A leaf has at least one of R, W, X set (R94, 41_walker.md R148). -/
def pteLeaf (pte : Word) : Bool :=
  pte.getLsbD 1 || pte.getLsbD 2 || pte.getLsbD 3

/-- The leaf permission check `(pte & acc) = 0` (41_walker.md R149). No U or SUM check (R149, `U_SUM_CHECK = false`). -/
def pteDenies (pte acc : Word) : Bool := (pte &&& acc) == 0

/-- `new = pte | 0x40 | (0x80 on a WRITE)`: A always, D on a WRITE (41_walker.md R151). -/
def pteAccessed (pte acc : Word) : Word :=
  pte ||| 0x40 ||| (if (acc &&& opCode .W) != 0 then 0x80 else 0)

end Sys2Proof.Machine
end

