-- ==== Sys2Proof/Machine/Prog.lean ====
section
/-! DEFINITION. A command as a program: the accesses it makes to the machine one after another, each with what it does for every
answer. Between two accesses to RAM or to a device other agents may act (20_memory.md R57, 60_exceptions.md R320;
Machine/Interleave.lean). -/

namespace Sys2Proof.Machine

open Sys2Proof.Config

/-- One access of a command to the machine, done at one instant. -/
inductive Atom where
  /-- TLB.LOOKUP (43_tlb.md R221). -/
  | lookup (op : Op) (vpn : Word)
  /-- TLB.FILL (R223). -/
  | fill (op : Op) (vpn bias : Word)
  /-- `emit E` (00_scope.md R11). -/
  | emit (e : Event)
  /-- Read one RAM byte (20_memory.md R57). -/
  | readByte (o : Nat)
  /-- Write one RAM byte (R57). -/
  | writeByte (o : Nat) (b : Byte)
  /-- Read an aligned PTE word indivisibly (R58, PTE_LOAD_ATOMIC). -/
  | readWord (o n : Nat)
  /-- In which order to read the bytes of a PTE (R58). -/
  | pteOrder
  /-- `CAS_n` (R59). -/
  | cas (o n : Nat) (expected desired : Word)
  /-- One callback of a device (44_mmio.md R258). -/
  | device (call : DevCall)
deriving DecidableEq, Repr

/-- A program: it ends with a value, stops, or makes an access and goes on with its reply. -/
inductive Prog (α : Type) where
  | done (a : α)
  | fault (f : Fault)
  | refused (r : Refusal)
  | op (x : Atom) (k : Reply → Prog α)

/-- Sequencing of programs. -/
def Prog.bind {α β : Type} (p : Prog α) (f : α → Prog β) : Prog β :=
  match p with
  | .done a => f a
  | .fault e => .fault e
  | .refused e => .refused e
  | .op x k => .op x fun r => (k r).bind f

/-- Run a program over a world `σ` that answers its accesses. -/
def Prog.runOn {σ α : Type} (answer : Atom → σ → Reply × σ) : Prog α → σ → RunOf σ α
  | .done a, s => .done a s
  | .fault e, _ => .fault e
  | .refused e, _ => .refused e
  | .op x k, s => (k (answer x s).1).runOn answer (answer x s).2

/-- What is left of a program after replies it has already had. -/
def Prog.after {α : Type} : List Reply → Prog α → Prog α
  | [], p => p
  | r :: rs, .op _ k => (k r).after rs
  | _ :: _, .done a => .done a
  | _ :: _, .fault e => .fault e
  | _ :: _, .refused e => .refused e

/-! ### Replies; each access has one form of reply -/

def Reply.toLookup : Reply → Bool × Word
  | .lookup hit bias => (hit, bias)
  | _ => (false, 0)

def Reply.toByte : Reply → Byte
  | .byte b => b
  | _ => 0

def Reply.toWord : Reply → Word
  | .word w => w
  | _ => 0

def Reply.toBool : Reply → Bool
  | .success ok => ok
  | _ => false

def Reply.toAnswer : Reply → DevAnswer
  | .answer a => a
  | _ => { ok := false, bytes := 0 }

def Reply.toOrder : Reply → List Nat
  | .order bytes => bytes
  | _ => []

/-! ### What a command sees of the machine -/

/-- What of the state stands still while a command runs: its hart, the launch parameters (10_state.md R32), the hart's context
(R20), the RAM region (R29, no RAM.INIT or RAM.FREE while a hart runs). -/
structure View where
  hart   : Nat
  params : Params
  ctx    : Ctx
  ram    : Ram
deriving DecidableEq, Repr

/-- An access and the form of its reply. -/
def Atom.prog {α : Type} (x : Atom) (f : Reply → α) : Prog α := .op x fun r => .done (f r)

end Sys2Proof.Machine
end

