-- ==== Sys2Proof/Machine/Sparse.lean ====
section
/-! DEFINITION. Sparse data by key in one canonical form, for RAM bytes, TLB slots and harts: a list of (key, value), keys
strictly rising, no value equal to what an unlisted key reads as. Equal contents are equal lists. -/

namespace Sys2Proof.Machine

namespace Sparse

variable {α : Type}

/-- The value at a key; an unlisted key reads as the default of that key. -/
def get (d : Nat → α) (k : Nat) : List (Nat × α) → α
  | [] => d k
  | (k', v) :: m => if k' = k then v else get d k m

/-- Put an entry in its place among rising keys. -/
def insert (k : Nat) (v : α) : List (Nat × α) → List (Nat × α)
  | [] => [(k, v)]
  | (k', v') :: m => if k < k' then (k, v) :: (k', v') :: m else (k', v') :: insert k v m

/-- Remove a key. -/
def erase (k : Nat) (m : List (Nat × α)) : List (Nat × α) :=
  m.filter (fun c => c.1 != k)

/-- Write a value: the entry replaces the old one, and is left out if it is what an unlisted key reads as. -/
def put [DecidableEq α] (d : Nat → α) (k : Nat) (v : α) (m : List (Nat × α)) : List (Nat × α) :=
  if v = d k then erase k m else insert k v (erase k m)

/-- Keys strictly rising, all of them at least `lo`. -/
def rising (lo : Nat) : List (Nat × α) → Bool
  | [] => true
  | (k, _) :: m => lo ≤ k && rising (k + 1) m

/-- The canonical form. -/
def wf [DecidableEq α] (d : Nat → α) (m : List (Nat × α)) : Bool :=
  rising 0 m && m.all (fun c => c.2 != d c.1)

end Sparse

/-- What an unlisted RAM offset reads as: RAM.INIT makes every byte 0 (10_state.md R30). -/
def zeroByte : Nat → Byte := fun _ => 0

/-- The canonical form of RAM's contents. -/
def Memory.wf (m : List Host.Cell) : Bool := Sparse.wf zeroByte m

end Sys2Proof.Machine
end

