-- ==== Sys2Proof/Machine/Ops.lean ====
section
/-! DEFINITION. The named operations over harts, TLB slots, RAM, devices and events that the meanings share, and taking a trap. A
return from a trap is not an operation of the core: it reaches the core as a CTX.SET (60_exceptions.md R312). -/

namespace Sys2Proof.Machine

open Sys2Proof.Config

/-! ### Harts and slots -/

/-- A slot as TLB.FLUSH and reset leave it (10_state.md R27, 43_tlb.md R227). -/
def flushedSlot (p : Params) (i : Nat) : Slot :=
  if i = 0 then { tagR := p.flushSlot0Tag, tagW := p.flushSlot0Tag, tagX := p.flushSlot0Tag, hostBias := 0 }
  else { tagR := 0, tagW := 0, tagX := 0, hostBias := 0 }

/-- A hart as reset leaves it: context CTX0, every slot flushed (70_reset_and_hazards.md R340, R341). -/
def resetHart (p : Params) (_ : Nat) : Hart := { ctx := p.ctx0, tlb := [] }

/-- Hart `h`. -/
def State.hart (s : State) (h : Nat) : Hart := Sparse.get (resetHart s.params) h s.harts

/-- Write hart `h`. -/
def State.setHart (s : State) (h : Nat) (v : Hart) : State :=
  { s with harts := Sparse.put (resetHart s.params) h v s.harts }

/-- The context of the hart whose command runs (R20). -/
def State.ctx (s : State) : Ctx := (s.hart s.cur).ctx

/-- Slot `i` of hart `h`. -/
def State.slot (s : State) (h i : Nat) : Slot := Sparse.get (flushedSlot s.params) i (s.hart h).tlb

/-- Write slot `i` of the running hart's TLB; no operation writes another hart's (R26). -/
def State.setSlot (s : State) (i : Nat) (v : Slot) : State :=
  s.setHart s.cur { s.hart s.cur with tlb := Sparse.put (flushedSlot s.params) i v (s.hart s.cur).tlb }

/-! ### Outputs -/

/-- `emit E`: append an event (00_scope.md R11, 10_state.md R33). -/
def State.emit (s : State) (e : Event) : State := { s with history := s.history ++ [e] }

/-- Return a value to the running hart (30_encoding.md R80). -/
def State.give (s : State) (v : Value) : State :=
  { s with returned := s.returned ++ [{ hart := s.cur, value := v }] }

/-- The two classes of trap (60_exceptions.md R300). -/
inductive TrapClass where
  | page
  | access
deriving DecidableEq, Repr

/-- The cause codes (60_exceptions.md R301). -/
def trapCause : TrapClass → Op → Nat
  | .page, .R => 13
  | .page, .W => 15
  | .page, .X => 12
  | .access, .R => 5
  | .access, .W => 7
  | .access, .X => 1

/-! ### RAM -/

/-- The RAM byte at an offset. -/
def State.ramByte (s : State) (o : Nat) : Byte := Sparse.get zeroByte o s.ram.data

/-- Write one RAM byte. -/
def State.setRamByte (s : State) (o : Nat) (b : Byte) : State :=
  { s with ram := { s.ram with data := Sparse.put zeroByte o b s.ram.data } }

/-- Offsets o .. o+n-1 are all in the RAM region. -/
def Ram.holds (r : Ram) (o n : Nat) : Bool := r.present && o + n ≤ r.size.toNat

/-- A RAM byte written by an agent outside the harts; an offset outside RAM writes nothing (log entry 28). -/
def State.foreignWrite (s : State) (o : Nat) (b : Byte) : State :=
  if s.ram.holds o 1 then s.setRamByte o b else s

/-- The bytes at offsets o .. o+n-1, at one instant. -/
def State.bytesAt (s : State) (o : Nat) : Nat → List Byte
  | 0 => []
  | n + 1 => s.ramByte o :: s.bytesAt (o + 1) n

/-- Write bytes at offsets from o on, at one instant. -/
def State.setBytes (s : State) (o : Nat) : List Byte → State
  | [] => s
  | b :: bs => (s.setRamByte o b).setBytes (o + 1) bs

/-- `CAS_n` (00_scope.md R11, 20_memory.md R59): one indivisible compare and write of little-endian images. -/
def casWord (o n : Nat) (expected desired : Word) (s : State) : Bool × State :=
  let success := leWord (s.bytesAt o n) == expected
  (success, if success then s.setBytes o (leBytes n desired) else s)

/-! ### Draws -/

/-- The answer of a device to a call: the next one the run supplies, else a free value (44_mmio.md R258; log entry 7). -/
def deviceDraw (call : DevCall) (s : State) : DevAnswer × State :=
  match s.env.devAnswers with
  | a :: rest => (a, { s with env := { s.env with devAnswers := rest } })
  | [] => (Config.deviceAnswer s.env.draws s.history call, { s with env := { s.env with draws := s.env.draws + 1 } })

/-- RAM.INIT's draw ALLOC_FAILS: the next one the run supplies, else a free value (40_pam.md R123; log entry 8). -/
def allocDraw (start size : Word) (s : State) : Bool × State :=
  match s.env.allocDraws with
  | b :: rest => (b, { s with env := { s.env with allocDraws := rest } })
  | [] => (Config.allocFails s.env.draws start size, { s with env := { s.env with draws := s.env.draws + 1 } })

/-- The first n bytes of a device's answer. -/
def answerBytes (a : DevAnswer) (n : Nat) : List Byte :=
  (List.range n).map (fun j => a.bytes.extractLsb' (8 * j) 8)

/-! ### What a command does to the machine, as programs -/

/-- The order that the run gives for the running hart's PTE load that begins now, if any (log entry 32). -/
def State.pteOrder (s : State) : List Nat :=
  ((s.env.pteOrders.find? fun q => q.hart == s.cur && q.events == s.history.length).map PteOrder.order).getD []

/-- The view of the running hart's command. -/
def State.view (s : State) : View :=
  { hart := s.cur, params := s.params, ctx := s.ctx, ram := { s.ram with data := [] } }

/-- Append an event. -/
def emit (e : Event) : Prog Unit := Atom.prog (.emit e) fun _ => ()

/-- `raise PageFault(op, tval)` and `raise AccessFault(op, tval)`: append the Trap event and change nothing else (60_exceptions.md
R310). The running command then returns false. -/
def raiseTrap (v : View) (c : TrapClass) (op : Op) (tval : Word) : Prog Unit :=
  emit (.trap v.hart (trapCause c op) tval)

/-- The physical address of a RAM offset. -/
def Ram.physOf (r : Ram) (o : Word) : Word := r.begin + o

/-- Read n bytes one after another in increasing order (20_memory.md R57). -/
def readBytes (o : Nat) : Nat → Prog (List Byte)
  | 0 => .done []
  | n + 1 => (Atom.prog (.readByte o) Reply.toByte).bind fun b => (readBytes (o + 1) n).bind fun bs => .done (b :: bs)

/-- Write bytes one after another in increasing order (R57). -/
def writeBytes (o : Nat) : List Byte → Prog Unit
  | [] => .done ()
  | b :: bs => (Atom.prog (.writeByte o b) fun _ => ()).bind fun _ => writeBytes (o + 1) bs

/-- `MemRead` of an ACCESS copy: n byte reads, then one RamRead event (42_dispatcher.md R191; log entry 16). -/
def ramRead (v : View) (o : Word) (n : Nat) : Prog (List Byte) :=
  if v.ram.holds o.toNat n then
    (readBytes o.toNat n).bind fun bs => (emit (.ramRead v.hart (v.ram.physOf o) n)).bind fun _ => .done bs
  else .fault .ramRange

/-- `MemWrite` of an ACCESS copy: byte writes, then one RamWrite event (R191; log entry 16). -/
def ramWrite (v : View) (o : Word) (bs : List Byte) : Prog Unit :=
  if v.ram.holds o.toNat bs.length then
    (writeBytes o.toNat bs).bind fun _ => emit (.ramWrite v.hart (v.ram.physOf o) bs.length bs)
  else .fault .ramRange

/-- An order of n bytes: the one given, if it names each of the n bytes once, else upwards. -/
def byteOrder (n : Nat) (order : List Nat) : List Nat := if order.isPerm (List.range n) then order else List.range n

/-- Read the bytes at the listed distances from o one after another, each with its distance. -/
def readEach (o : Nat) : List Nat → Prog (List (Nat × Byte))
  | [] => .done []
  | i :: is => (Atom.prog (.readByte (o + i)) Reply.toByte).bind fun b => (readEach o is).bind fun bs => .done ((i, b) :: bs)

/-- The first n bytes of those read, in address order. -/
def gathered (n : Nat) (bs : List (Nat × Byte)) : List Byte := (List.range n).map fun i => (bs.lookup i).getD 0

/-- A PTE load that may tear: its bytes are read one by one, in any order (20_memory.md R58; log entry 32). -/
def readTorn (o n : Nat) : Prog Word :=
  (Atom.prog .pteOrder Reply.toOrder).bind fun order =>
    (readEach o (byteOrder n order)).bind fun bs => .done (leWord (gathered n bs))

/-- The walker's PTE load (41_walker.md R146): little-endian, zero-extended, one RamRead event. Its bytes are read at one
instant under PTE_LOAD_ATOMIC, else each at an instant of its own (20_memory.md R58). -/
def loadPte (v : View) (o : Word) (n : Nat) : Prog Word :=
  if v.ram.holds o.toNat n then
    (if v.params.pteLoadAtomic then Atom.prog (.readWord o.toNat n) Reply.toWord
      else readTorn o.toNat n).bind fun pte =>
    (emit (.ramRead v.hart (v.ram.physOf o) n)).bind fun _ => .done pte
  else .fault .ramRange

/-- The walker's compare-and-swap and its RamCas event (41_walker.md R151). -/
def casPte (v : View) (o : Word) (n : Nat) (expected desired : Word) : Prog Bool :=
  if v.ram.holds o.toNat n then
    (Atom.prog (.cas o.toNat n expected desired) Reply.toBool).bind fun success =>
    (emit (.ramCas v.hart (v.ram.physOf o) n expected desired success)).bind fun _ => .done success
  else .fault .ramRange

/-- `DevRead(dev, off, n)` (44_mmio.md R255, R258): the callback and its event; `none` when the device answers not ok. -/
def devRead (v : View) (k : Nat) (d : Device) (off : Word) (n : Nat) : Prog (Option (List Byte)) :=
  (Atom.prog (.device { dev := k, ctx := d.ctx, off := off, size := n, bytes := none }) Reply.toAnswer).bind fun a =>
  (emit (.devRead v.hart k off n)).bind fun _ => .done (if a.ok then some (answerBytes a n) else none)

/-- `DevWrite(dev, off, n, bytes)` (R255, R258). -/
def devWrite (v : View) (k : Nat) (d : Device) (off : Word) (bs : List Byte) : Prog (Option (List Byte)) :=
  (Atom.prog (.device { dev := k, ctx := d.ctx, off := off, size := bs.length, bytes := some bs }) Reply.toAnswer).bind fun a =>
  (emit (.devWrite v.hart k off bs.length bs)).bind fun _ => .done (if a.ok then some [] else none)

/-! ### The end of a command -/

/-- The outcome of a command or micro-operation: its value is returned to the hart. -/
def finish (r : Run Value) : Host.Outcome State Fault Refusal :=
  match r with
  | .done v s => .next (s.give v)
  | .fault f => .fault f
  | .refused e => .refused e

/-- `{ok, data}` of an access or an adapter call: on failure there are no data (42_dispatcher.md R192, 60_exceptions.md
R310). -/
def response (r : Option (List Byte)) : Value :=
  match r with
  | some data => .command true data
  | none => .command false []

end Sys2Proof.Machine
end

