-- ==== Sys2Proof/Machine/Mmio.lean ====
section
/-! DEFINITION. The MMIO access adapter: MMIO.READ and MMIO.WRITE (44_mmio.md). -/

namespace Sys2Proof.Machine

open Sys2Proof.Config

/-- The direction of an adapter call (R259). -/
inductive Dir where
  | rd
  | wr
deriving DecidableEq, Repr

/-- `MMIO_SCRATCH` (00_scope.md R8). -/
def mmioScratch : Nat := 16

/-- `aligned_off = off & ~(m - 1)` (R252). -/
def alignedOff (m : Nat) (off : Word) : Word := off &&& ~~~ BitVec.ofNat 64 (m - 1)

/-- `diff = off - aligned_off`, that is `off & (m - 1)` (R252). -/
def offDiff (m : Nat) (off : Word) : Nat := (off - alignedOff m off).toNat

/-- `Wsz = max(m, pow2ceil(diff + size))` (R252, conflict C6). -/
def windowSize (m : Nat) (off : Word) (n : Nat) : Nat := max m (pow2ceil (offDiff m off + n))

/-- The access is widened: too narrow, or not at a multiple of m (R251). -/
def mustWiden (m : Nat) (off : Word) (n : Nat) : Bool :=
  decide (n < m) || (off &&& BitVec.ofNat 64 (m - 1)) != 0

/-- Overwrite the scratch bytes from `diff` on with the caller's bytes (R253). -/
def splice (tmp : List Byte) (diff : Nat) (buf : List Byte) : List Byte :=
  tmp.take diff ++ buf ++ tmp.drop (diff + buf.length)

/-- The adapter on device k (R259), with the recursion depth left. `none` is the source's false; a read gives the bytes read, a
write none. R256 bounds the depth, so `adapterDepth` is never the answer for a legal device. -/
def mmio (v : View) (k : Nat) (d : Device) : Nat → Dir → Word → Nat → List Byte → Prog (Option (List Byte))
  | 0, _, _, _, _ => .fault .adapterDepth
  | depth + 1, dir, off, n, buf =>
    let m := opBytes d.minOp
    if mustWiden m off n then
      let a := alignedOff m off
      let w := windowSize m off n
      if w > mmioScratch then .refused .mmioWindow
      else
        (mmio v k d depth .rd a w []).bind fun r =>
          match r, dir with
          | none, _ => .done none
          | some tmp, .rd => .done (some ((tmp.drop (offDiff m off)).take n))
          | some tmp, .wr => mmio v k d depth .wr a w (splice tmp (offDiff m off) buf)
    else if n > opBytes d.maxOp then
      let h := n / 2
      (mmio v k d depth dir off h (buf.take h)).bind fun r =>
        match r with
        | none => .done none
        | some lo =>
          (mmio v k d depth dir (off + BitVec.ofNat 64 h) (n - h) (buf.drop h)).bind fun r =>
            match r with
            | none => .done none
            | some hi => .done (some (lo ++ hi))
    else
      match dir with
      | .rd => devRead v k d off n
      | .wr => devWrite v k d off buf

/-- A depth no legal call exceeds (R256). -/
def mmioDepth : Nat := 16

/-- An adapter call on device k of the list (R250). -/
def mmioCall (v : View) (dir : Dir) (k : Nat) (off : Word) (n : Nat) (buf : List Byte) : Prog (Option (List Byte)) :=
  match v.params.devices[k]? with
  | some d => mmio v k d mmioDepth dir off n buf
  | none => .refused .noSuchDevice

/-- MMIO.READ and MMIO.WRITE (R259, R260). -/
def mmioCommand (v : View) (dir : Dir) (off dev : Word) (n : Nat) (buf : List Byte) : Prog Value :=
  (mmioCall v dir dev.toNat off n buf).bind fun r => .done (response r)

end Sys2Proof.Machine
end

