-- ==== Sys2Proof/Machine/Tlb.lean ====
section
/-! DEFINITION. The software TLB: TLB.LOOKUP, TLB.FILL, TLB.FLUSH, TLB.FLUSHPAGE (43_tlb.md). -/

namespace Sys2Proof.Machine

open Sys2Proof.Config

/-- The tag an access kind looks at (R221). -/
def slotTag (op : Op) (e : Slot) : Word :=
  match op with
  | .R => e.tagR
  | .W => e.tagW
  | .X => e.tagX

/-- The slot that a virtual page number selects in the running hart's TLB (R220). -/
def State.slotFor (s : State) (vpn : Word) : Slot := s.slot s.cur (slotIndex s.params vpn)

/-- A lookup hits: the op's tag is the VPN (R221). -/
def tlbHit (s : State) (op : Op) (vpn : Word) : Bool := slotTag op (s.slotFor vpn) == vpn

/-- A tag after a fill that does not set it: kept if it is the VPN, else invalidated with VPN - 1 (R224 to R226). -/
def keepOrInvalidate (vpn tag : Word) : Word := if tag = vpn then tag else vpn - 1

/-- READ_FILL (R224). -/
def readFill (vpn bias : Word) (e : Slot) : Slot :=
  { tagR := vpn, tagW := keepOrInvalidate vpn e.tagW, tagX := keepOrInvalidate vpn e.tagX, hostBias := bias }

/-- WRITE_FILL (R225). -/
def writeFill (vpn bias : Word) (e : Slot) : Slot :=
  { tagR := vpn, tagW := vpn, tagX := keepOrInvalidate vpn e.tagX, hostBias := bias }

/-- EXEC_FILL (R226). -/
def execFill (vpn bias : Word) (e : Slot) : Slot :=
  { tagR := keepOrInvalidate vpn e.tagR, tagW := keepOrInvalidate vpn e.tagW, tagX := vpn, hostBias := bias }

/-- The slot after a fill (R223). -/
def filledSlot (op : Op) (vpn bias : Word) (e : Slot) : Slot :=
  match op with
  | .R => readFill vpn bias e
  | .W => writeFill vpn bias e
  | .X => execFill vpn bias e

/-- Fill the slot of a VPN (R223). -/
def tlbFill (op : Op) (vpn bias : Word) (s : State) : State :=
  s.setSlot (slotIndex s.params vpn) (filledSlot op vpn bias (s.slotFor vpn))

/-- Flush the running hart's whole TLB: every slot as `flushedSlot` (R227). -/
def tlbFlush (s : State) : State := s.setHart s.cur { s.hart s.cur with tlb := [] }

/-- The slot after a page flush: the three tags VPN - 1, the bias unchanged (R228). -/
def flushedPageSlot (vpn : Word) (e : Slot) : Slot :=
  { e with tagR := vpn - 1, tagW := vpn - 1, tagX := vpn - 1 }

/-- Flush the slot of a VPN (R228). -/
def tlbFlushPage (vpn : Word) (s : State) : State :=
  s.setSlot (slotIndex s.params vpn) (flushedPageSlot vpn (s.slotFor vpn))

/-- TLB.LOOKUP (R221). -/
def execTlbLookup (vaddr : Word) (op : Op) (s : State) : Host.Outcome State Fault Refusal :=
  finish (.done (.lookup (tlbHit s op (vpnOf vaddr)) (s.slotFor (vpnOf vaddr)).hostBias) s)

/-- TLB.FILL (R223). -/
def execTlbFill (vaddr : Word) (op : Op) (bias : Word) (s : State) : Host.Outcome State Fault Refusal :=
  finish (.done .filled (tlbFill op (vpnOf vaddr) bias s))

/-- TLB.FLUSH (R227). -/
def execTlbFlush (s : State) : Host.Outcome State Fault Refusal :=
  finish (.done (.command true []) (tlbFlush s))

/-- TLB.FLUSHPAGE (R228). -/
def execTlbFlushPage (vaddr : Word) (s : State) : Host.Outcome State Fault Refusal :=
  finish (.done (.command true []) (tlbFlushPage (vpnOf vaddr) s))

end Sys2Proof.Machine
end

