-- ==== Sys2Proof/Machine/Pam.lean ====
section
/-! DEFINITION. The physical address map: PAM.PHYS2HOST, PAM.FINDMMIO, RAM.INIT, RAM.FREE (40_pam.md). -/

namespace Sys2Proof.Machine

open Sys2Proof.Config

/-- `InRam(p)` (R120). -/
def Ram.contains (r : Ram) (p : Word) : Bool :=
  r.present && decide (r.begin ≤ p) && decide (p - r.begin < r.size)

/-- `PHYS2HOST(p)`: the RAM offset of a physical address in RAM (R120). -/
def physToHost (r : Ram) (p : Word) : Option Word :=
  if r.contains p then some (p - r.begin) else none

/-- A physical address lies in a device's half-open region (10_state.md R31). -/
def deviceContains (d : Device) (p : Word) : Bool :=
  decide (d.begin ≤ p) && decide (p < d.stop)

/-- `FINDMMIO(p)`: the first device in list order whose region contains p (R121). -/
def findMmio (ds : List Device) (p : Word) : Option Nat :=
  ds.findIdx? (fun d => deviceContains d p)

/-- begin and size are page-aligned, size is not 0, and the region ends at or below 2^64 (R123). -/
def ramRegionOk (start size : Word) : Bool :=
  start &&& 0xFFF == 0 && size &&& 0xFFF == 0 && size != 0 && decide (start.toNat + size.toNat ≤ 2 ^ 64)

/-- A device's region and a RAM region have a byte in common. -/
def deviceOverlapsRam (start size : Word) (d : Device) : Bool :=
  decide (max d.begin.toNat start.toNat < min d.stop.toNat (start.toNat + size.toNat))

/-- PAM.PHYS2HOST (R120). -/
def execPhysToHost (paddr : Word) (s : State) : Host.Outcome State Fault Refusal :=
  finish (.done (.hostOffset (physToHost s.ram paddr)) s)

/-- PAM.FINDMMIO (R121). -/
def execFindMmio (paddr : Word) (s : State) : Host.Outcome State Fault Refusal :=
  finish (.done (.device (findMmio s.params.devices paddr)) s)

/-- RAM.INIT's false: "After a false result, the machine does not start" (R123). -/
def initFails (s : State) : Run Value := .done (.command false []) { s with failed := true }

/-- RAM.INIT (R123), called once and while no hart runs (70_reset_and_hazards.md R345). A region that overlaps a device is refused
(10_state.md R31; log entry 13). -/
def execRamInit (start size : Word) (s : State) : Host.Outcome State Fault Refusal :=
  if s.ram.present || s.failed then .refused .ramInitTwice
  else if !s.running.isEmpty then .refused .hartsRunning
  else if !ramRegionOk start size then finish (initFails s)
  else if s.params.devices.any (deviceOverlapsRam start size) then .refused .ramOverlapsDevice
  else
    let r := allocDraw start size s
    if r.1 then finish (initFails r.2)
    else finish (.done (.command true []) { r.2 with ram := { present := true, begin := start, size := size, data := [] } })

/-- RAM.FREE (R124), when no hart runs: no RAM, and the run ends. -/
def execRamFree (s : State) : Host.Outcome State Fault Refusal :=
  if !s.ram.present then .refused .freeWithoutRam
  else if !s.running.isEmpty then .refused .hartsRunning
  else finish (.done (.command true []) { s with ram := Ram.absent, freed := true })

end Sys2Proof.Machine
end

