-- ==== Sys2Proof/Machine/Walker.lean ====
section
/-! DEFINITION. The page-table walker (41_walker.md). A walk loads PTEs from the root down (R144 to R154), then makes the A/D
update of the leaf (R151); the loads and the update are separate events (R163). -/

namespace Sys2Proof.Machine

open Sys2Proof.Config

/-- A leaf that passed every check: its level, the physical address and RAM offset of its PTE, and the loaded value. -/
structure Leaf where
  level   : Nat
  ptePhys : Word
  offset  : Word
  pte     : Word
deriving DecidableEq, Repr

/-- What the loads of a walk end with. -/
inductive LeafResult where
  | leaf (l : Leaf)
  | fault (why : WalkFault)
deriving DecidableEq, Repr

/-- The checks of a leaf at level i, in order: permission (R149), then superpage alignment (R150). -/
def leafFault (wp : WalkParams) (pte acc : Word) (i : Nat) : Option WalkFault :=
  if pteDenies pte acc then some .permission
  else if misaligned wp pte i then some .misalignedSuperpage
  else none

/-- What a loaded PTE at level i means: a fault, a leaf that passed its checks, or the next table (R147 to R153). The
source's second test of W on a pointer (R153) can not fire after R147. -/
inductive PteStep where
  | fault (why : WalkFault)
  | leaf
  | next (table : Word)
deriving DecidableEq, Repr

/-- The decision on a loaded PTE (R147, R148, R149, R150, R153). -/
def pteStep (wp : WalkParams) (pte acc : Word) (i : Nat) : PteStep :=
  if pteInvalid pte then .fault .invalid
  else if pteLeaf pte then
    match leafFault wp pte acc i with
    | some why => .fault why
    | none => .leaf
  else .next (nextTable wp pte)

/-- The loads of a walk: `levels` levels are left, the table of level `levels - 1` is at `table` (R155). -/
def findLeaf (v : View) (wp : WalkParams) (vaddr acc : Word) : Nat → Word → Prog LeafResult
  | 0, _ => .done (.fault .noLeaf)
  | i + 1, table =>
    let ptePhys := pteAddress wp table vaddr i
    match physToHost v.ram ptePhys with
    | none => .done (.fault .pteNotRam)
    | some o =>
      (loadPte v o wp.pteBytes).bind fun pte =>
        match pteStep wp pte acc i with
        | .fault why => .done (.fault why)
        | .leaf => .done (.leaf { level := i, ptePhys := ptePhys, offset := o, pte := pte })
        | .next table' => findLeaf v wp vaddr acc i table'

/-- The A/D update (R151): a compare-and-swap if a bit is to be set, its result ignored. -/
def updateAD (v : View) (wp : WalkParams) (acc : Word) (l : Leaf) : Prog Unit :=
  if pteAccessed l.pte acc = l.pte then .done ()
  else (casPte v l.offset wp.pteBytes l.pte (pteAccessed l.pte acc)).bind fun _ => .done ()

/-- The walk of the hart's root table (R155). -/
def walk (v : View) (wp : WalkParams) (vaddr acc : Word) : Prog WalkResult :=
  if canonical wp vaddr then
    (findLeaf v wp vaddr acc wp.levels v.ctx.root).bind fun r =>
      match r with
      | .fault why => .done (.fault why)
      | .leaf l => (updateAD v wp acc l).bind fun _ => .done (.ok (leafPaddr wp l.pte vaddr l.level))
  else .done (.fault .noncanonical)

/-- WALK (R155). It runs only for the four paged modes (R140; log entry 21). -/
def walkCommand (v : View) (vaddr acc : Word) : Prog Value :=
  match modeParams v.ctx.mode with
  | .paged wp => (walk v wp vaddr acc).bind fun r => .done (.walk r)
  | .bare => .refused .walkUnpaged
  | .unknown => .refused .walkUnpaged

end Sys2Proof.Machine
end

