-- ==== Sys2Proof/Machine/Access.lean ====
section
/-! DEFINITION. The translation dispatcher: ACCESS.R, ACCESS.W, ACCESS.X (42_dispatcher.md). -/

namespace Sys2Proof.Machine

open Sys2Proof.Config

/-- What translation select ends with (R186, R190): a physical address, or the class of the trap to raise. -/
inductive Translation where
  | phys (paddr : Word)
  | trap (c : TrapClass)
deriving DecidableEq, Repr

/-- The trap of a walk fault (R190): a page fault, but the access fault for PTE_NOT_RAM under WALK_NON_RAM_FAULT = access
(41_walker.md R145). -/
def walkTrap (p : Params) (why : WalkFault) : TrapClass :=
  if why = .pteNotRam && p.walkNonRam == .access then .access else .page

/-- Translation select on a TLB miss (R186). -/
def translate (v : View) (op : Op) (vaddr : Word) : Prog Translation :=
  if effPriv v.ctx op = .machine then .done (.phys vaddr)
  else
    match modeParams v.ctx.mode with
    | .bare => .done (.phys vaddr)
    | .unknown => .done (.trap .page)
    | .paged wp =>
      (walk v wp vaddr (accessMask v.params.mxrRule v.ctx op)).bind fun r =>
        match r with
        | .ok paddr => .done (.phys paddr)
        | .fault why => .done (.trap (walkTrap v.params why))

/-- The data copy at a RAM offset (R191). -/
def copy (v : View) (op : Op) (o : Word) (n : Nat) (buf : List Byte) : Prog (Option (List Byte)) :=
  match op with
  | .W => (ramWrite v o buf).bind fun _ => .done (some [])
  | .R => (ramRead v o n).bind fun data => .done (some data)
  | .X => (ramRead v o n).bind fun data => .done (some data)

/-- The fill and the JIT hook of a RAM hit (R187, steps 1 and 2). -/
def ramHit (v : View) (op : Op) (vaddr paddr o : Word) (n : Nat) : Prog Unit :=
  (Atom.prog (.fill op (vpnOf vaddr) (o - vaddr)) fun _ => ()).bind fun _ =>
    match op with
    | .W => emit (.jitInvalidate v.hart vaddr paddr n)
    | .R => .done ()
    | .X => .done ()

/-- A single-page access that fails: its trap, and the source's false (60_exceptions.md R310). -/
def trapOut (v : View) (c : TrapClass) (op : Op) (vaddr : Word) : Prog (Option (List Byte)) :=
  (raiseTrap v c op vaddr).bind fun _ => .done none

/-- The direction of the adapter call: EXEC uses the read path (R188, 44_mmio.md R261). -/
def opDir : Op → Dir
  | .R => .rd
  | .W => .wr
  | .X => .rd

/-- The adapter call of an MMIO hit at paddr, and its access fault (R188). -/
def mmioHit (v : View) (op : Op) (vaddr paddr : Word) (k n : Nat) (buf : List Byte) : Prog (Option (List Byte)) :=
  match v.params.devices[k]? with
  | none => .refused .noSuchDevice
  | some d =>
    (mmio v k d mmioDepth (opDir op) (paddr - d.begin) n buf).bind fun r =>
      match r with
      | some data => .done (some data)
      | none => trapOut v .access op vaddr

/-- The access at a physical address: RAM (R187), else MMIO (R188), else void (R189). -/
def accessPhys (v : View) (op : Op) (vaddr paddr : Word) (n : Nat) (buf : List Byte) : Prog (Option (List Byte)) :=
  match physToHost v.ram paddr with
  | some o => (ramHit v op vaddr paddr o n).bind fun _ => copy v op o n buf
  | none =>
    match findMmio v.params.devices paddr with
    | some k => mmioHit v op vaddr paddr k n buf
    | none => trapOut v .access op vaddr

/-- ACCESS1 (R193): one single-page access. `none` is the source's false. -/
def access1 (v : View) (op : Op) (vaddr : Word) (n : Nat) (buf : List Byte) : Prog (Option (List Byte)) :=
  if effPriv v.ctx op = .reserved then .refused .reservedPrivilege
  else
    (Atom.prog (.lookup op (vpnOf vaddr)) Reply.toLookup).bind fun e =>
      if e.1 then copy v op (e.2 + vaddr) n buf
      else
        (translate v op vaddr).bind fun t =>
          match t with
          | .phys paddr => accessPhys v op vaddr paddr n buf
          | .trap c => trapOut v c op vaddr

/-- The bytes of an access that lie on its first page, when it crosses (R181). -/
def firstPart (vaddr : Word) : Nat := pageSize - pageOffset vaddr

/-- The access crosses a page boundary (R181). -/
def crosses (vaddr : Word) (n : Nat) : Bool := decide (pageOffset vaddr + n > pageSize)

/-- The virtual address of the second part (R181). -/
def secondAddr (p : Params) (vaddr : Word) : Word := wrapAddr p.xlen (vaddr + BitVec.ofNat 64 (firstPart vaddr))

/-- ACCESS (R193): one single-page access, or two in order when it crosses a page (R181). -/
def access (v : View) (op : Op) (vaddr : Word) (n : Nat) (buf : List Byte) : Prog (Option (List Byte)) :=
  if crosses vaddr n then
    (access1 v op vaddr (firstPart vaddr) (buf.take (firstPart vaddr))).bind fun r =>
      match r with
      | none => .done none
      | some lo =>
        (access1 v op (secondAddr v.params vaddr) (n - firstPart vaddr) (buf.drop (firstPart vaddr))).bind fun r =>
          match r with
          | none => .done none
          | some hi => .done (some (lo ++ hi))
  else access1 v op vaddr n buf

/-- `vaddr` is below 2^XLEN (R180). -/
def vaddrOk (p : Params) (vaddr : Word) : Bool := decide (vaddr.toNat < 2 ^ xlenBits p.xlen)

/-- An ACCESS command: its precondition (R180), then the access and its result (R192). -/
def accessCommand (v : View) (op : Op) (vaddr : Word) (n : Nat) (buf : List Byte) : Prog Value :=
  if vaddrOk v.params vaddr then (access v op vaddr n buf).bind fun r => .done (response r)
  else .refused .vaddrWidth

end Sys2Proof.Machine
end

