-- ==== Sys2Proof/Machine/Context.lean ====
section
/-! DEFINITION. The hart-context update CTX.SET (42_dispatcher.md R196). -/

namespace Sys2Proof.Machine

open Sys2Proof.Config

/-- Write the running hart's context. -/
def State.setCtx (s : State) (c : Ctx) : State := s.setHart s.cur { s.hart s.cur with ctx := c }

/-- CTX.SET (R196). -/
def execCtxSet (root ctxWord : Word) (satpw : Bool) (s : State) : Host.Outcome State Fault Refusal :=
  if root &&& 0xFFF ≠ 0 then .refused .misalignedRoot
  else if ctxWord &&& ctxReservedMask ≠ 0 then .refused .reservedContextBits
  else
    let c := ctxOfWord root ctxWord
    let t := s.setCtx c
    finish (.done (.command true []) (if satpw || s.ctx ≠ c then tlbFlush t else t))

end Sys2Proof.Machine
end

