-- ==== Sys2Proof/Machine/Interleave.lean ====
section
/-! DEFINITION. How the commands of the harts, and other agents, interleave: at RAM byte accesses, PTE loads, compare-and-swaps and
device callbacks (20_memory.md R57, R58, R59, 60_exceptions.md R320). A step performs one command whole; before each of its
shared accesses the next batch of `Env.others` says which other agents act, and another hart then goes on with its own command
by one shared access (log entry 10). -/

namespace Sys2Proof.Machine

open Sys2Proof.Config

/-- The accesses before which another agent may act: those to RAM and to devices (R320). A hart's TLB and its events are its
own, and so is the order in which it reads a PTE. -/
def Atom.shared : Atom → Bool
  | .lookup _ _ | .fill _ _ _ | .emit _ | .pteOrder => false
  | .readByte _ | .writeByte _ _ | .readWord _ _ | .cas _ _ _ _ | .device _ => true

/-- One access of the running hart, and its reply. -/
def perform (x : Atom) (s : State) : Reply × State :=
  match x with
  | .lookup op vpn => (.lookup (tlbHit s op vpn) (s.slotFor vpn).hostBias, s)
  | .fill op vpn bias => (.unit, tlbFill op vpn bias s)
  | .emit e => (.unit, s.emit e)
  | .readByte o => (.byte (s.ramByte o), s)
  | .writeByte o b => (.unit, s.setRamByte o b)
  | .readWord o n => (.word (leWord (s.bytesAt o n)), s)
  | .pteOrder => (.order s.pteOrder, s)
  | .cas o n expected desired => let r := casWord o n expected desired s
                                 (.success r.1, r.2)
  | .device call => let r := deviceDraw call s
                    (.answer r.1, r.2)

/-! ### A command in progress -/

/-- A program before its next shared access, the replies it had on the way, and the state it left. -/
structure Paused (α : Type) where
  prog  : Prog α
  seen  : List Reply
  state : State

/-- Make the accesses up to the next shared one. -/
def Prog.settle {α : Type} : Prog α → State → Paused α
  | .op x k, s =>
    if x.shared then { prog := .op x k, seen := [], state := s }
    else
      let r := perform x s
      let q := (k r.1).settle r.2
      { q with seen := r.1 :: q.seen }
  | .done a, s => { prog := .done a, seen := [], state := s }
  | .fault e, s => { prog := .fault e, seen := [], state := s }
  | .refused e, s => { prog := .refused e, seen := [], state := s }

/-- What is left to do of a command in progress. -/
def Running.program (v : View) (c : Running) : Prog Value := (accessCommand v c.op c.vaddr c.size c.buf).after c.seen

/-- The command of a hart that is in progress, if any. -/
def State.runningOf (s : State) (h : Nat) : Option Running := s.running.find? (fun c => c.hart == h)

/-- A hart has no command in progress any more. -/
def State.dropRunning (s : State) (h : Nat) : State := { s with running := s.running.filter (fun c => c.hart != h) }

/-- A command in progress, in place of what its hart had. -/
def State.putRunning (s : State) (c : Running) : State := { s with running := (s.dropRunning c.hart).running ++ [c] }

/-- The hart `h` is the running one. -/
def State.as (s : State) (h : Nat) : State := { s with cur := h }

/-- The running hart's command c goes on by one shared access. A command that stops has no effect here; the stop is its hart's
next step. -/
def advance (c : Running) (s : State) : Option State :=
  let a := (c.program s.view).settle s
  match a.prog with
  | .op x k =>
    let r := perform x a.state
    let b := (k r.1).settle r.2
    match b.prog with
    | .done v => some ((b.state.dropRunning c.hart).give v)
    | .op _ _ | .fault _ | .refused _ => some (b.state.putRunning { c with seen := c.seen ++ a.seen ++ r.1 :: b.seen })
  | .done v => some ((a.state.dropRunning c.hart).give v)
  | .fault _ => none
  | .refused _ => none

/-- The ACCESS command of an instruction. -/
def accessOf (h : Nat) : Instr → Option Running
  | .accessR v n => some { hart := h, op := .R, vaddr := v, size := n, buf := [], seen := [] }
  | .accessW v bs => some { hart := h, op := .W, vaddr := v, size := bs.length, buf := bs, seen := [] }
  | .accessX v n => some { hart := h, op := .X, vaddr := v, size := n, buf := [], seen := [] }
  | .tlbFlush | .tlbFlushPage _ | .ramInit _ _ | .ramFree | .ctxSet _ _ _ | .walk _ _ | .tlbLookup _ _ | .tlbFill _ _ _
  | .physToHost _ | .findMmio _ | .mmioRead _ _ _ | .mmioWrite _ _ _ => none

/-- The next state of an outcome. -/
def nextOf (o : Host.Outcome State Fault Refusal) : Option State :=
  match o with
  | .next t => some t
  | .fault _ => none
  | .refused _ => none

/-- A command of the running hart while another hart's command is in progress: an ACCESS begins and goes on by one shared access,
a command that touches only the hart itself is performed; RAM.INIT and RAM.FREE wait until no hart runs (R123, R124). -/
def beginCommand (i : Instr) (s : State) : Option State :=
  match i with
  | .accessR _ _ | .accessW _ _ | .accessX _ _ => (accessOf s.cur i).bind fun c => advance c s
  | .tlbFlush => nextOf (execTlbFlush s)
  | .tlbFlushPage v => nextOf (execTlbFlushPage v s)
  | .ctxSet root w satpw => nextOf (execCtxSet root w satpw s)
  | .ramInit _ _ | .ramFree | .walk _ _ | .tlbLookup _ _ | .tlbFill _ _ _ | .physToHost _ | .findMmio _ | .mmioRead _ _ _
  | .mmioWrite _ _ _ => none

/-- The oldest request of a hart in a queue, and the queue without it (42_dispatcher.md R198). -/
def takeFirst (h : Nat) : List Request → Option (Request × List Request)
  | [] => none
  | r :: rest => if r.hart = h then some (r, rest) else (takeFirst h rest).map fun q => (q.1, r :: q.2)

/-- The running hart goes on: with its command in progress, else with its next request. -/
def goOn (s : State) : Option State :=
  match s.runningOf s.cur with
  | some c => advance c s
  | none =>
    (takeFirst s.cur s.pending).bind fun q =>
      match decode s.params.maxAccess q.1 with
      | .ok i => beginCommand i { s with pending := q.2 }
      | .error _ => none

/-- Hart h goes on by one shared access, in between another hart's; nothing happens if it can not. -/
def State.moveHart (s : State) (h : Nat) : State :=
  if h < s.params.harts ∧ h ≠ s.cur then
    match goOn (s.as h) with
    | some t => t.as s.cur
    | none => s
  else s

/-- One action of another agent. -/
def State.act (s : State) : Action → State
  | .write o b => s.foreignWrite o b
  | .move h => s.moveHart h

/-- A point between two shared accesses of a command, where other agents act (20_memory.md R57, R58, 41_walker.md R163,
60_exceptions.md R320): the next batch of `Env.others`, if any. DESIGN CHOICE, safe (log entry 9). -/
def State.interfere (s : State) : State :=
  match s.env.others with
  | [] => s
  | batch :: rest => batch.foldl State.act { s with env := { s.env with others := rest } }

/-! ### A whole command -/

/-- One access of the command a step performs, other agents acting before a shared one. -/
def performAmong (x : Atom) (s : State) : Reply × State := perform x (if x.shared then s.interfere else s)

/-- Run a program to its end. -/
def Prog.run {α : Type} (p : Prog α) (s : State) : Run α := p.runOn performAmong s

/-- Perform what is left of a command in progress. -/
def complete (c : Running) (s : State) : Host.Outcome State Fault Refusal :=
  finish ((c.program s.view).run s)

/-- The command of a hart that is inside one is performed to its end. -/
def resume (c : Running) (s : State) : Host.Outcome State Fault Refusal :=
  complete c ((s.dropRunning c.hart).as c.hart)

end Sys2Proof.Machine
end

