-- ==== Sys2Proof/Machine/Commands.lean ====
section
/-! DEFINITION. The meanings of the commands and micro-operations that reach RAM or a device: each runs its program among the other
agents. -/

namespace Sys2Proof.Machine

/-- ACCESS.R (42_dispatcher.md R193). -/
def execAccessR (vaddr : Word) (n : Nat) (s : State) : Host.Outcome State Fault Refusal :=
  finish ((accessCommand s.view .R vaddr n []).run s)

/-- ACCESS.W (R194). -/
def execAccessW (vaddr : Word) (payload : List Byte) (s : State) : Host.Outcome State Fault Refusal :=
  finish ((accessCommand s.view .W vaddr payload.length payload).run s)

/-- ACCESS.X (R195). -/
def execAccessX (vaddr : Word) (n : Nat) (s : State) : Host.Outcome State Fault Refusal :=
  finish ((accessCommand s.view .X vaddr n []).run s)

/-- WALK (41_walker.md R155). -/
def execWalk (vaddr acc : Word) (s : State) : Host.Outcome State Fault Refusal :=
  finish ((walkCommand s.view vaddr acc).run s)

/-- MMIO.READ (44_mmio.md R259). -/
def execMmioRead (off dev : Word) (n : Nat) (s : State) : Host.Outcome State Fault Refusal :=
  finish ((mmioCommand s.view .rd off dev n []).run s)

/-- MMIO.WRITE (R260). -/
def execMmioWrite (off dev : Word) (payload : List Byte) (s : State) : Host.Outcome State Fault Refusal :=
  finish ((mmioCommand s.view .wr off dev payload.length payload).run s)

end Sys2Proof.Machine
end

