-- ==== Sys2Proof/Machine/Dispatch.lean ====
section
/-! DEFINITION. The dispatch: one arm per constructor of Instr, each one direct call of that instruction's meaning. -/

namespace Sys2Proof.Machine

def exec (i : Instr) (s : State) : Host.Outcome State Fault Refusal :=
  match i with
  | .accessR vaddr size => Sys2Proof.Machine.execAccessR vaddr size s
  | .accessW vaddr payload => Sys2Proof.Machine.execAccessW vaddr payload s
  | .accessX vaddr size => Sys2Proof.Machine.execAccessX vaddr size s
  | .tlbFlush => Sys2Proof.Machine.execTlbFlush s
  | .tlbFlushPage vaddr => Sys2Proof.Machine.execTlbFlushPage vaddr s
  | .ramInit start size => Sys2Proof.Machine.execRamInit start size s
  | .ramFree => Sys2Proof.Machine.execRamFree s
  | .ctxSet root ctxWord satpw => Sys2Proof.Machine.execCtxSet root ctxWord satpw s
  | .walk vaddr acc => Sys2Proof.Machine.execWalk vaddr acc s
  | .tlbLookup vaddr op => Sys2Proof.Machine.execTlbLookup vaddr op s
  | .tlbFill vaddr op bias => Sys2Proof.Machine.execTlbFill vaddr op bias s
  | .physToHost paddr => Sys2Proof.Machine.execPhysToHost paddr s
  | .findMmio paddr => Sys2Proof.Machine.execFindMmio paddr s
  | .mmioRead off dev size => Sys2Proof.Machine.execMmioRead off dev size s
  | .mmioWrite off dev payload => Sys2Proof.Machine.execMmioWrite off dev payload s

end Sys2Proof.Machine
end

