-- ==== Sys2Proof/Machine/Launch.lean ====
section
/-! DEFINITION. Which launch configurations the spec allows (00_scope.md R8, 10_state.md R20, R31), and the fetch of the next
request. -/

namespace Sys2Proof.Machine

open Sys2Proof.Config

/-- A power of two. -/
def isPowerOfTwo (n : Nat) : Bool := n == 2 ^ Nat.log2 n

/-- FLUSH_SLOT0_TAG is "any value that is not a VPN and whose low index bits are not 0" (R8). -/
def flushTagOk (p : Params) : Bool :=
  decide (2 ^ 52 ≤ p.flushSlot0Tag.toNat) && slotIndex p p.flushSlot0Tag != 0

/-- Two device regions have a byte in common (10_state.md R31). -/
def devicesOverlap (d e : Device) : Bool :=
  decide (max d.begin.toNat e.begin.toNat < min d.stop.toNat e.stop.toNat)

/-- The device list is valid: `min <= max` in each descriptor, no two regions overlap (R31). -/
def devicesOk : List Device → Bool
  | [] => true
  | d :: ds => decide (opBytes d.minOp ≤ opBytes d.maxOp) && ds.all (fun e => !devicesOverlap d e) && devicesOk ds

/-- The legal values of the launch parameters (R8), of the device list (R31) and of CTX0's root (R20, R23). -/
def paramsOk (p : Params) : Bool :=
  decide (1 ≤ p.harts) && decide (2 ≤ p.tlbEntries) && isPowerOfTwo p.tlbEntries && decide (1 ≤ p.maxAccess) &&
    decide (p.maxAccess ≤ 16) && flushTagOk p && devicesOk p.devices && (p.ctx0.root &&& 0xFFF) == 0

/-- Take the next request, and let its hart run (30_encoding.md R80, 60_exceptions.md R324). -/
def State.take (s : State) (r : Request) (rest : List Request) : State := { s with pending := rest, cur := r.hart }

end Sys2Proof.Machine
end

