-- ==== Sys2Proof/Machine/Step.lean ====
section
/-! DEFINITION. One step: the next pending request is decoded and its command performed whole, among what other agents do in between
(00_scope.md R6, 42_dispatcher.md R198, 60_exceptions.md R320). A hart that is inside a command ends it first (R198). With nothing
to do the core stays as it is (log entry 3). -/

namespace Sys2Proof.Machine

/-- One step. -/
def step (s : State) : Host.Outcome State Fault Refusal :=
  if paramsOk s.params then
    match s.pending with
    | [] =>
      match s.running with
      | [] => .next s
      | c :: _ => resume c s
    | r :: rest =>
      if s.failed then .refused .notStarted
      else if s.freed then .refused .afterRamFree
      else if r.hart < s.params.harts then
        match s.runningOf r.hart with
        | some c => resume c s
        | none =>
          match decode s.params.maxAccess r with
          | .error why => .refused (.undecodable why)
          | .ok i => exec i (s.take r rest)
      else .refused .noSuchHart
  else .refused .illegalLaunch

/-- The state with the request of a table word placed as the next one to perform, its hart 0 inside no other command. -/
def State.withFetchWord (s : State) (nbits w : Nat) : State :=
  { s.dropRunning 0 with pending := requestOfBits (w % 2 ^ nbits) :: s.pending }

end Sys2Proof.Machine
end

