-- ==== Sys2Proof/Machine/Pseudo.lean ====
section
/-! DEFINITION. The pseudo-commands: the guest events that the source ties to the core, and the commands they stand for
(30_encoding.md R101, 43_tlb.md R230). -/

namespace Sys2Proof.Machine

open Sys2Proof.Config

/-- A guest event of R101. `sfenceVma none _` is `SFENCE.VMA x0, rs2`; `sfenceVma (some v) _` has rs1 holding v. -/
inductive Pseudo where
  | sfenceVma (rs1 : Option Word) (rs2 : Word)
  | satpWrite (mode : BitVec 4) (root : Word)
  | privSet (p : Priv)
  | statusWrite (mprv : Bool) (mpp : Priv) (mxr : Bool)
  | load (vaddr : Word) (size : Nat)
  | store (vaddr : Word) (bytes : List Byte)
  | fetch (vaddr : Word) (size : Nat)
deriving DecidableEq, Repr

/-- The CTX.SET that gives a context. -/
def ctxSetOf (c : Ctx) (satpw : Bool) : Instr := .ctxSet c.root (wordOfCtx c) satpw

/-- The command of a pseudo-command, under the current context: omitted CTX.SET fields keep their values (R100, R101). -/
def expand (c : Ctx) : Pseudo → Instr
  | .sfenceVma none _ => .tlbFlush
  | .sfenceVma (some v) _ => .tlbFlushPage v
  | .satpWrite mode root => ctxSetOf { c with mode := mode, root := root } true
  | .privSet p => ctxSetOf { c with priv := p } false
  | .statusWrite mprv mpp mxr => ctxSetOf { c with mprv := mprv, mpp := mpp, mxr := mxr } false
  | .load v n => .accessR v n
  | .store v bs => .accessW v bs
  | .fetch v n => .accessX v n

end Sys2Proof.Machine
end

