-- ==== Sys2Proof/Safety.lean ====
section
/-! DEFINITION. What counts as a legal state of the core, and the terms the statements use. -/

namespace Sys2Proof.Machine

open Sys2Proof.Config

/-! ### Legal states -/

/-- RAM is absent, or a region RAM.INIT accepts that no device overlaps (10_state.md R29, R31); its contents are canonical and
inside the region. -/
def ramLegal (s : State) : Bool :=
  (if s.ram.present then
      ramRegionOk s.ram.begin s.ram.size && s.params.devices.all (fun d => !deviceOverlapsRam s.ram.begin s.ram.size d)
    else s.ram == Ram.absent) &&
    Memory.wf s.ram.data && s.ram.data.all (fun c => decide (c.1 < s.ram.size.toNat))

/-- A tag of slot i that a lookup can match: it is a VPN and it indexes its own slot (10_state.md R28). -/
def tagLive (p : Params) (i : Nat) (tag : Word) : Bool := slotIndex p tag == i && decide (tag.toNat < 2 ^ 52)

/-- A bias leads the page of a VPN to a whole page of RAM offsets (00_scope.md R15, 43_tlb.md R222). -/
def biasSound (r : Ram) (bias vpn : Word) : Bool :=
  r.present && (bias + (vpn <<< 12)) &&& 0xFFF == 0 && decide ((bias + (vpn <<< 12)).toNat + pageSize ≤ r.size.toNat)

/-- A live tag's page lies in RAM. -/
def tagSound (p : Params) (r : Ram) (i : Nat) (e : Slot) (tag : Word) : Bool :=
  !tagLive p i tag || biasSound r e.hostBias tag

/-- Every live tag of a slot is sound. -/
def slotSound (p : Params) (r : Ram) (i : Nat) (e : Slot) : Bool :=
  tagSound p r i e e.tagR && tagSound p r i e e.tagW && tagSound p r i e e.tagX

/-- A hart's context has a page-aligned root (10_state.md R23); its TLB is canonical, within TLB_ENTRIES, and sound while the
run lasts. -/
def hartLegal (s : State) (v : Hart) : Bool :=
  (v.ctx.root &&& 0xFFF) == 0 && Sparse.wf (flushedSlot s.params) v.tlb &&
    v.tlb.all (fun c => decide (c.1 < s.params.tlbEntries) && (s.freed || slotSound s.params s.ram c.1 c.2))

/-- The harts are canonical, numbered below HARTS, and legal. -/
def hartsLegal (s : State) : Bool :=
  Sparse.wf (resetHart s.params) s.harts && s.harts.all (fun c => decide (c.1 < s.params.harts) && hartLegal s c.2)

/-- A reply that an access can have had in a legal state: a hit led into RAM. -/
def replySound (r : Ram) (x : Atom) (y : Reply) : Bool :=
  match x with
  | .lookup _ vpn => !y.toLookup.1 || biasSound r y.toLookup.2 vpn
  | .fill _ _ _ | .emit _ | .readByte _ | .writeByte _ _ | .readWord _ _ | .pteOrder | .cas _ _ _ _ | .device _ => true

/-- Replies that a program can have had in a legal state. -/
def seenSound {α : Type} (r : Ram) : List Reply → Prog α → Bool
  | [], _ => true
  | y :: ys, .op x k => replySound r x y && seenSound r ys (k y)
  | _ :: _, .done _ => false
  | _ :: _, .fault _ => false
  | _ :: _, .refused _ => false

/-- A command in progress of a legal state: its hart and operands are as decoding gives them, and its replies sound. -/
def runningOk (s : State) (c : Running) : Bool :=
  decide (c.hart < s.params.harts) && accessSizeOk s.params.maxAccess c.size &&
    c.buf.length == (if c.op = .W then c.size else 0) &&
    seenSound s.ram c.seen (accessCommand (s.as c.hart).view c.op c.vaddr c.size c.buf)

/-- Every command in progress is legal, one at most for each hart. -/
def runningLegal (s : State) : Bool :=
  decide (s.running.map Running.hart).Nodup && s.running.all (runningOk s)

/-- A legal state: legal parameters, RAM, harts and commands in progress; a run that has ended or not started has no RAM and no
command in progress; every pending request comes from outside. -/
abbrev Legal (s : State) : Prop :=
  paramsOk s.params = true ∧ ramLegal s = true ∧ hartsLegal s = true ∧ runningLegal s = true ∧ s.cur < s.params.harts ∧
    (s.freed = true ∨ s.failed = true → s.ram.present = false ∧ s.running = []) ∧
    s.pending.all (fun r => r.origin.isExternal) = true

/-- No other agent acts inside the commands to come. -/
abbrev Quiet (s : State) : Prop := s.env.others = []

/-- An action of another agent still to come writes RAM offset o. -/
def foreignTo (s : State) (o : Nat) : Prop := ∃ batch ∈ s.env.others, ∃ b, .write o b ∈ batch

/-- Hart h may go on with its own command inside the commands to come. -/
def movesIn (s : State) (h : Nat) : Prop := ∃ batch ∈ s.env.others, .move h ∈ batch

/-! ### Events -/

/-- The events a state has beyond another's. -/
def newEvents (s t : State) : List Event := t.history.drop s.history.length

/-- The hart an event names (10_state.md R33). -/
def eventHart : Event → Nat
  | .trap h _ _ | .jitInvalidate h _ _ _ | .devRead h _ _ _ | .devWrite h _ _ _ _ | .ramRead h _ _ | .ramWrite h _ _ _
  | .ramCas h _ _ _ _ _ => h

/-- The new events of the running hart's command, without those of the harts that went on inside it. -/
def ownEvents (s t : State) : List Event := (newEvents s t).filter (fun e => eventHart e == s.cur)

/-- The values newly returned to a hart. -/
def newValues (s t : State) (h : Nat) : List Value :=
  ((t.returned.drop s.returned.length).filter (fun r => r.hart == h)).map Returned.value

/-- `t` has, beyond s's returned values, exactly the value v for the running hart of s. -/
def Returns (s t : State) (v : Value) : Prop := s.returned <+: t.returned ∧ newValues s t s.cur = [v]

/-- A Trap event. -/
def isTrap : Event → Bool
  | .trap _ _ _ => true
  | _ => false

/-- A RamRead event. -/
def isRamRead : Event → Bool
  | .ramRead _ _ _ => true
  | _ => false

/-- A device call event, with its device, offset and size. -/
def deviceCallOf : Event → Option (Nat × Word × Nat)
  | .devRead _ k off n => some (k, off, n)
  | .devWrite _ k off n _ => some (k, off, n)
  | _ => none

/-- Offset o is among the n offsets from the RAM offset of paddr on. -/
def inSpan (r : Ram) (paddr : Word) (n o : Nat) : Prop := (paddr - r.begin).toNat ≤ o ∧ o < (paddr - r.begin).toNat + n

/-- An event that stores to RAM offset o: a RamWrite, or a RamCas that succeeded. -/
def storesTo (r : Ram) (o : Nat) : Event → Prop
  | .ramWrite _ paddr n _ => inSpan r paddr n o
  | .ramCas _ paddr n _ _ success => success = true ∧ inSpan r paddr n o
  | _ => False

/-! ### Instructions -/

/-- The ACCESS command of an access kind. ACCESS.W stores `buf`. -/
def accessInstr (op : Op) (vaddr : Word) (n : Nat) (buf : List Byte) : Instr :=
  match op with
  | .R => .accessR vaddr n
  | .W => .accessW vaddr buf
  | .X => .accessX vaddr n

/-- The buffer of an access: `n` bytes for a WRITE, none for a READ or EXEC. -/
abbrev bufOk (op : Op) (n : Nat) (buf : List Byte) : Prop := buf.length = if op = .W then n else 0

/-- `t` is `s` with the value v returned and, of everything else, at most the running hart different. -/
def OnlyThisHart (s t : State) (v : Value) : Prop :=
  t = ({ s with harts := t.harts } : State).give v ∧ ∀ h, h ≠ s.cur → t.hart h = s.hart h

/-- `t` is `s` with the value v returned and, of everything else, at most the running hart's TLB different. -/
def OnlyThisTlb (s t : State) (v : Value) : Prop :=
  OnlyThisHart s t v ∧ (t.hart s.cur).ctx = (s.hart s.cur).ctx

/-- The two states differ at most in their harts' contexts. -/
def SameButCtx (s t : State) : Prop :=
  t = { s with harts := t.harts } ∧ ∀ h, (t.hart h).tlb = (s.hart h).tlb

/-- The two outcomes are of one kind, and next states differ at most in their harts' contexts. -/
def SameOutcomeButCtx (x y : Host.Outcome State Fault Refusal) : Prop :=
  match x, y with
  | .next s, .next t => SameButCtx s t
  | .fault f, .fault g => f = g
  | .refused f, .refused g => f = g
  | _, _ => False

/-! ### What an undisturbed command does

The same walk and copy with no other agent in between, as plain functions of the RAM that stands there: what the statements
hold the machine against. -/

/-- The little-endian word of n RAM bytes from offset o on (20_memory.md R50). -/
def State.wordAt (s : State) (o n : Nat) : Word := leWord (s.bytesAt o n)

/-- The state with events recorded. -/
def State.record (s : State) (es : List Event) : State := { s with history := s.history ++ es }

/-- The PTE loads of a walk and what they end with (41_walker.md R144 to R154): `levels` levels left, from `table` down. -/
def leafOf (s : State) (wp : WalkParams) (vaddr acc : Word) : Nat → Word → List Event × LeafResult
  | 0, _ => ([], .fault .noLeaf)
  | i + 1, table =>
    let p := pteAddress wp table vaddr i
    match physToHost s.ram p with
    | none => ([], .fault .pteNotRam)
    | some o =>
      let pte := s.wordAt o.toNat wp.pteBytes
      match pteStep wp pte acc i with
      | .fault why => ([.ramRead s.cur p wp.pteBytes], .fault why)
      | .leaf => ([.ramRead s.cur p wp.pteBytes], .leaf { level := i, ptePhys := p, offset := o, pte := pte })
      | .next table' =>
        let r := leafOf s wp vaddr acc i table'
        (.ramRead s.cur p wp.pteBytes :: r.1, r.2)

/-- The result of a walk and the state after it (41_walker.md R155), the leaf's A bit set, and its D bit on a WRITE (R151). -/
def quietWalk (wp : WalkParams) (vaddr acc : Word) (s : State) : WalkResult × State :=
  if canonical wp vaddr then
    match leafOf s wp vaddr acc wp.levels s.ctx.root with
    | (es, .fault why) => (.fault why, s.record es)
    | (es, .leaf l) =>
      let new := l.pte ||| 0x40 ||| (if acc.getLsbD 2 then 0x80 else 0)
      (.ok (leafPaddr wp l.pte vaddr l.level),
        if new = l.pte then s.record es
        else (s.setBytes l.offset.toNat (leBytes wp.pteBytes new)).record
          (es ++ [.ramCas s.cur l.ptePhys wp.pteBytes l.pte new true]))
  else (.fault .noncanonical, s)

/-- The translation of a miss and the state after it (42_dispatcher.md R186, R190). -/
def quietTranslate (op : Op) (vaddr : Word) (s : State) : Translation × State :=
  if effPriv s.ctx op = .machine then (.phys vaddr, s)
  else
    match modeParams s.ctx.mode with
    | .bare => (.phys vaddr, s)
    | .unknown => (.trap .page, s)
    | .paged wp =>
      match quietWalk wp vaddr (accessMask s.params.mxrRule s.ctx op) s with
      | (.ok p, t) => (.phys p, t)
      | (.fault why, t) => (.trap (walkTrap s.params why), t)

/-- The data copy at RAM offset o (42_dispatcher.md R191): the bytes returned and the state after. -/
def quietCopy (op : Op) (o : Word) (n : Nat) (buf : List Byte) (s : State) : List Byte × State :=
  match op with
  | .W => ([], (s.setBytes o.toNat buf).record [.ramWrite s.cur (s.ram.begin + o) buf.length buf])
  | .R => (s.bytesAt o.toNat n, s.record [.ramRead s.cur (s.ram.begin + o) n])
  | .X => (s.bytesAt o.toNat n, s.record [.ramRead s.cur (s.ram.begin + o) n])

/-- A single-page access that its command does not refuse: `vaddr` below 2^XLEN (R180), no page crossing (R181), an effective
privilege that is not reserved (R183), a buffer of the right length. -/
abbrev OnePage (op : Op) (vaddr : Word) (n : Nat) (buf : List Byte) (s : State) : Prop :=
  vaddr.toNat < 2 ^ xlenBits s.params.xlen ∧ vaddr.toNat % 4096 + n ≤ 4096 ∧ effPriv s.ctx op ≠ .reserved ∧ bufOk op n buf

/-! ### An ideal byte-granular device (44_mmio.md R262) -/

/-- Bytes o .. o+n-1 of a store. -/
def storeBytes (f : Word → Byte) (o : Word) (n : Nat) : List Byte := (List.range n).map (fun j => f (o + BitVec.ofNat 64 j))

/-- A store with the bytes from o on overwritten. -/
def storeWrite (f : Word → Byte) (o : Word) (bs : List Byte) : Word → Byte :=
  fun a => bs.getD (a - o).toNat (f a)

/-- The device that always answers ok, from a store of bytes. -/
def storeAnswer (x : Atom) (f : Word → Byte) : Reply × (Word → Byte) :=
  match x with
  | .device call =>
    match call.bytes with
    | none => (.answer { ok := true, bytes := BitVec.ofNat 128 (leNat (storeBytes f call.off call.size)) }, f)
    | some bs => (.answer { ok := true, bytes := 0 }, storeWrite f call.off bs)
  | _ => (.unit, f)

end Sys2Proof.Machine
end

