-- ==== Sys2Proof/Certificates/Slice0/Obligations.lean ====
section
/-! DEFINITION. The statements about the model. `exec i s` runs one command or
micro-operation of the hart `s.cur`, whole, among what other agents do in between (`s.env.others`, log entries 9 and 10; `Quiet s`:
nothing); `s.give v` is `s` with the value v returned to that hart. -/

section Slice0Statements

open Sys2Proof Sys2Proof.Machine Sys2Proof.Config

/-! ### Encoding (30_encoding.md) -/

/-- R80, R82, R83: words written out from the tables decode to the commands they stand for. -/
def Obligations.WordsDecode : Prop :=
  decode 16 ⟨.external, 0, 0x00000402, 0x80001234, 0, []⟩ = .ok (.accessR 0x80001234 4) ∧
  decode 16 ⟨.external, 1, 0x00000204, 0x10000001, 0, [0xAA, 0xBB]⟩ = .ok (.accessW 0x10000001 [0xAA, 0xBB]) ∧
  decode 16 ⟨.external, 0, 0x00001008, 0x40212344, 0, []⟩ = .ok (.accessX 0x40212344 16) ∧
  decode 16 ⟨.external, 0, 0x00000010, 0, 0, []⟩ = .ok .tlbFlush ∧
  decode 16 ⟨.external, 2, 0x00000011, 0x2000, 0, []⟩ = .ok (.tlbFlushPage 0x2000) ∧
  decode 16 ⟨.external, 0, 0x00000020, 0x80000000, 0x100000, []⟩ = .ok (.ramInit 0x80000000 0x100000) ∧
  decode 16 ⟨.external, 0, 0x00000021, 0, 0, []⟩ = .ok .ramFree ∧
  decode 16 ⟨.external, 0, 0x01000030, 0x80010000, 0x101, []⟩ = .ok (.ctxSet 0x80010000 0x101 true) ∧
  decode 16 ⟨.internal 0, 0, 0x00000040, 0x1000, 0xA, []⟩ = .ok (.walk 0x1000 0xA) ∧
  decode 16 ⟨.internal 0x1F000, 0, 0x00000042, 0x1000, 0x2, []⟩ = .ok (.tlbFill 0x1000 .R 0x1F000) ∧
  decode 16 ⟨.internal 0, 0, 0x00000445, 0x2, 0, []⟩ = .ok (.mmioRead 0x2 0 4)

/-- R80 to R86: the decoder reads back every well-formed instruction from its own words, with every operand. -/
def Obligations.DecodeEncode : Prop :=
  ∀ (m hart : Nat) (i : Instr), m ≤ 16 → i.wellFormed m = true → decode m (encode hart i) = .ok i

/-- R80 to R86, R12: what decodes is well formed, and its request has no other words than the instruction's. The origin is the
model's own field (log entry 2): a micro-operation carries a bias only for TLB.FILL. -/
def Obligations.DecodedRequestIsEncoded : Prop :=
  ∀ (m : Nat) (r : Request) (i : Instr), decode m r = .ok i →
    i.wellFormed m = true ∧ (r.origin = i.origin → encode r.hart i = r)

/-- R84: the checks of a request from outside, in their order, on the numbers of its header. The last check, of the payload's
length (R80), is the model's own refusal (log entry 18). -/
def Obligations.DecodeChecksInOrder : Prop :=
  ∀ (m : Nat) (r : Request), r.origin = .external →
    let cmd := r.hdr.toNat % 256
    let size := r.hdr.toNat / 256 % 65536
    let flg := r.hdr.toNat / 16777216
    if cmd ∉ [0x02, 0x04, 0x08, 0x10, 0x11, 0x20, 0x21, 0x30, 0x40, 0x41, 0x42, 0x43, 0x44, 0x45, 0x46] then
      decode m r = .error .reservedCode
    else if 0x40 ≤ cmd then decode m r = .error .internal
    else if flg ≠ 0 ∧ ¬ (cmd = 0x30 ∧ flg = 1) then decode m r = .error .reservedFlag
    else if (cmd ∈ [0x02, 0x04, 0x08] ∧ (size = 0 ∨ m < size)) ∨ (cmd ∉ [0x02, 0x04, 0x08] ∧ size ≠ 0) then
      decode m r = .error .size
    else if (cmd ∈ [0x02, 0x04, 0x08, 0x11] ∧ r.b ≠ 0) ∨ (cmd ∈ [0x10, 0x21] ∧ (r.a ≠ 0 ∨ r.b ≠ 0)) then
      decode m r = .error .operand
    else if r.payload.length ≠ (if cmd = 0x04 then size else 0) then decode m r = .error .payload
    else ∃ i, decode m r = .ok i ∧ i.code.toByte.toNat = cmd

/-- R86, R87: every context has one context word, without reserved bits, and every such word one context. -/
def Obligations.ContextWordRoundTrip : Prop :=
  (∀ c : Ctx, ctxOfWord c.root (wordOfCtx c) = c ∧ wordOfCtx c &&& ctxReservedMask = 0) ∧
    ∀ root w : Word, w &&& ctxReservedMask = 0 → wordOfCtx (ctxOfWord root w) = w

/-! ### The step -/

/-- R84, R198, R324: when the next request's hart is inside no other command and the request decodes, a step runs its instruction
on that hart, with the request taken off the queue. A hart that is inside a command ends it first, and with no request pending a
step ends the first command in progress (log entry 10). -/
def Obligations.StepRunsDecoded : Prop :=
  ∀ s : State, paramsOk s.params = true →
    (∀ (r : Request) (rest : List Request), s.pending = r :: rest → s.failed = false → s.freed = false →
      r.hart < s.params.harts →
      (∀ i, s.runningOf r.hart = none → decode s.params.maxAccess r = .ok i →
        step s = exec i { s with pending := rest, cur := r.hart }) ∧
      ∀ c, s.runningOf r.hart = some c → step s = resume c s) ∧
    ∀ (c : Running) (cs : List Running), s.pending = [] → s.running = c :: cs → step s = resume c s

/-- R84, R123, R124, R31: when a step runs no instruction. With nothing to do it leaves the state (log entry 3); after a false
RAM.INIT the machine does not start: that every request is then refused, the flag and the refusal's name are the model's choice
(log entry 14); after RAM.FREE the run has ended; a request for no hart is refused (log entry 19), and so is every step under an
illegal launch (log entry 22). -/
def Obligations.StepTurnsAway : Prop :=
  ∀ s : State,
    (paramsOk s.params = false → step s = .refused .illegalLaunch) ∧
    (paramsOk s.params = true → s.pending = [] → s.running = [] → step s = .next s) ∧
    ∀ (r : Request) (rest : List Request), paramsOk s.params = true → s.pending = r :: rest →
      (s.failed = true → step s = .refused .notStarted) ∧
      (s.failed = false → s.freed = true → step s = .refused .afterRamFree) ∧
      (s.failed = false → s.freed = false → s.params.harts ≤ r.hart → step s = .refused .noSuchHart) ∧
      ∀ why, s.failed = false → s.freed = false → r.hart < s.params.harts → s.runningOf r.hart = none →
        decode s.params.maxAccess r = .error why → step s = .refused (.undecodable why)

/-! ### Reset and legal states (10_state.md, 70_reset_and_hazards.md) -/

/-- R340: every hart's TLB at reset, and a first access misses for every VPN and every op. -/
def Obligations.ResetTlb : Prop :=
  (∀ h i, State.reset.slot h i =
    if i = 0 then ⟨0xFFFFFFFFFFFFFFFF, 0xFFFFFFFFFFFFFFFF, 0xFFFFFFFFFFFFFFFF, 0⟩ else ⟨0, 0, 0, 0⟩) ∧
  ∀ (p : Params) (h : Nat) (op : Op) (v : Word), paramsOk p = true →
    ∃ b, exec (.tlbLookup v op) { State.launch p with cur := h } =
      .next (State.give { State.launch p with cur := h } (.lookup false b))

/-- R38, R341, R343: the state after launch under parameters p: context CTX0 in every hart, no RAM, an empty history; and it is
a legal state (R28, R29, R31) when p is legal. The reset state is that of `Config.defaultParams`, which are choices of the
model (log entries 4, 5 and 6). -/
def Obligations.LaunchState : Prop :=
  State.reset = State.launch defaultParams ∧ Legal State.reset ∧
  ∀ p : Params, (∀ h, ((State.launch p).hart h).ctx = p.ctx0) ∧ (State.launch p).ram.present = false ∧
    (State.launch p).history = [] ∧ (State.launch p).params = p ∧ (paramsOk p = true → Legal (State.launch p))

/-- Every step keeps a legal state legal: RAM's region and contents (R29, R31), page-aligned roots (R23), slots whose live
tags lead into RAM (R15, R28), the commands in progress (R320, log entry 10). -/
def Obligations.StepKeepsLegal : Prop := ∀ s t : State, Legal s → step s = .next t → Legal t

/-- From a legal state no step reaches a fault of the model: RAM is accessed only inside its region (R11, R15, R125), and the
adapter's recursion ends (44_mmio.md R256). -/
def Obligations.LegalStepNeverFaults : Prop := ∀ (s : State) (f : Fault), Legal s → step s ≠ .fault f

/-! ### What no command changes -/

/-- R20, R26, R320, R321: no command but CTX.SET writes its hart's context, and only ACCESS, CTX.SET and the TLB operations its TLB;
another hart that does not go on inside the command is unchanged. A hart that goes on changes no other hart, and what it
emits and returns is its own. -/
def Obligations.HartsFrame : Prop :=
  (∀ (i : Instr) (s t : State), exec i s = .next t →
    (i.code ≠ .ctxSet → (t.hart s.cur).ctx = (s.hart s.cur).ctx) ∧
    (∀ h, h ≠ s.cur → ¬ movesIn s h → t.hart h = s.hart h) ∧
    (i.code ∈ [.ramInit, .ramFree, .walk, .tlbLookup, .physToHost, .findMmio, .mmioRead, .mmioWrite] →
      t.hart s.cur = s.hart s.cur)) ∧
  ∀ (s : State) (h : Nat),
    (∀ g, g ≠ h → (s.moveHart h).hart g = s.hart g ∧ newValues s (s.moveHart h) g = [] ∧
      (s.moveHart h).runningOf g = s.runningOf g) ∧
    ∀ e ∈ newEvents s (s.moveHart h), eventHart e = h

/-- R32, R29, R123, R124: no command changes the launch parameters or the device list; only RAM.INIT and RAM.FREE change the RAM
region, only RAM.INIT can keep the machine from starting and only RAM.FREE ends the run. The requests and the command in progress
of a hart that does not go on inside the command stay (the model's queue, log entries 1 and 10). -/
def Obligations.ConfigurationFixed : Prop :=
  ∀ (i : Instr) (s t : State), exec i s = .next t →
    t.params = s.params ∧ t.cur = s.cur ∧ (i ≠ .ramFree → t.freed = s.freed) ∧
    (∀ h, h = s.cur ∨ ¬ movesIn s h →
      t.pending.filter (fun r => r.hart == h) = s.pending.filter (fun r => r.hart == h) ∧ t.runningOf h = s.runningOf h) ∧
    ((∀ a b, i ≠ .ramInit a b) → t.failed = s.failed ∧
      (i ≠ .ramFree → t.ram.present = s.ram.present ∧ t.ram.begin = s.ram.begin ∧ t.ram.size = s.ram.size))

/-- R33, R80: a command appends to the event history and to the returned values, and returns exactly one value to its hart. -/
def Obligations.OutputsOnlyGrow : Prop :=
  ∀ (i : Instr) (s t : State), exec i s = .next t →
    s.history <+: t.history ∧ ∃ v, Returns s t v ∧ t.returned.getLast? = some ⟨s.cur, v⟩

/-- R33, R60: a byte of RAM that reads otherwise after a command was written by an event of the command, a RamWrite or a
successful RamCas over it, by a write of an agent outside the harts (log entry 9), or by another hart that went on inside the
command (log entry 10). RAM.INIT and RAM.FREE replace RAM whole. -/
def Obligations.RamChangesAreEvents : Prop :=
  ∀ (i : Instr) (s t : State), exec i s = .next t → (∀ a b, i ≠ .ramInit a b) → i ≠ .ramFree →
    ∀ o, t.ramByte o ≠ s.ramByte o →
      foreignTo s o ∨ (∃ e ∈ ownEvents s t, storesTo s.ram o e) ∨ ∃ h, h ≠ s.cur ∧ movesIn s h

/-- R11, R15, R125: every RAM event of a command, and of a hart that goes on inside it, lies in the RAM region whole. -/
def Obligations.RamEventsStayInRam : Prop :=
  ∀ (i : Instr) (s t : State), exec i s = .next t → ∀ e ∈ newEvents s t,
    match e with
    | .ramRead _ p n | .ramWrite _ p n _ | .ramCas _ p n _ _ _ =>
      s.ram.present = true ∧ (p - s.ram.begin).toNat + n ≤ s.ram.size.toNat
    | _ => True

/-! ### Physical address map (40_pam.md) -/

/-- R120: PAM.PHYS2HOST, in unbounded integers. -/
def Obligations.PhysToHostResult : Prop :=
  ∀ (s : State) (p : Word),
    exec (.physToHost p) s = .next (s.give (.hostOffset
      (if s.ram.present = true ∧ s.ram.begin.toNat ≤ p.toNat ∧ p.toNat < s.ram.begin.toNat + s.ram.size.toNat
        then some (p - s.ram.begin) else none)))

/-- R121: PAM.FINDMMIO gives the first device in list order whose half-open region contains the address. -/
def Obligations.FindMmioResult : Prop :=
  ∀ (s : State) (p : Word), ∃ r, exec (.findMmio p) s = .next (s.give (.device r)) ∧
    match r with
    | none => ∀ d ∈ s.params.devices, ¬ (d.begin.toNat ≤ p.toNat ∧ p.toNat < d.stop.toNat)
    | some k => ∃ d, s.params.devices[k]? = some d ∧ d.begin.toNat ≤ p.toNat ∧ p.toNat < d.stop.toNat ∧
        ∀ j < k, ∀ e, s.params.devices[j]? = some e → ¬ (e.begin.toNat ≤ p.toNat ∧ p.toNat < e.stop.toNat)

/-- R122, R31: in a legal state an address in RAM is in no device, and an address is in one device at most. -/
def Obligations.ClassesDisjoint : Prop :=
  ∀ (s : State) (p : Word), Legal s →
    (s.ram.contains p = true → findMmio s.params.devices p = none) ∧
    ∀ (j k : Nat) (d e : Device), s.params.devices[j]? = some d → s.params.devices[k]? = some e → deviceContains d p = true →
      deviceContains e p = true → j = k

/-- R123, R345: RAM.INIT, called once and while no hart runs; after a false result the machine does not start. The model's choices: that
a false result sets a flag and a later RAM.INIT is then refused (log entry 14); that `no hart runs` is no command in progress, and
RAM.INIT is refused by name otherwise (log entry 15); the allocation draw is the run's, or a free value (log entry 8); a region
over a device is refused (R31, log entry 13). -/
def Obligations.RamInitResult : Prop :=
  ∀ (s : State) (a b : Word),
    let regionOk := a.toNat % 4096 = 0 ∧ b.toNat % 4096 = 0 ∧ b.toNat ≠ 0 ∧ a.toNat + b.toNat ≤ 2 ^ 64
    let clear := ∀ d ∈ s.params.devices, ¬ max d.begin.toNat a.toNat < min d.stop.toNat (a.toNat + b.toNat)
    let answer := fun (fails : Bool) (t : State) =>
      if fails then State.give { t with failed := true } (.command false [])
      else State.give { t with ram := ⟨true, a, b, []⟩ } (.command true [])
    (s.ram.present = true ∨ s.failed = true → exec (.ramInit a b) s = .refused .ramInitTwice) ∧
    (s.ram.present = false → s.failed = false →
      (s.running ≠ [] → exec (.ramInit a b) s = .refused .hartsRunning) ∧
      (s.running = [] →
        (¬ regionOk → exec (.ramInit a b) s = .next (answer true s)) ∧
        (regionOk → ¬ clear → exec (.ramInit a b) s = .refused .ramOverlapsDevice) ∧
        (regionOk → clear →
          (∀ fails rest, s.env.allocDraws = fails :: rest →
            exec (.ramInit a b) s = .next (answer fails { s with env := { s.env with allocDraws := rest } })) ∧
          (s.env.allocDraws = [] →
            ∃ fails, exec (.ramInit a b) s =
              .next (answer fails { s with env := { s.env with draws := s.env.draws + 1 } })))))

/-- R124: RAM.FREE, when no hart runs, removes RAM and ends the run; without RAM it is refused. The model's choices: that `no hart
runs` is no command in progress, and RAM.FREE is refused by name otherwise (log entry 15); that an absent RAM holds begin and size
as 0 (log entry 12). -/
def Obligations.RamFreeResult : Prop :=
  ∀ s : State,
    (s.ram.present = true → s.running = [] →
      exec .ramFree s = .next (State.give { s with ram := ⟨false, 0, 0, []⟩, freed := true } (.command true []))) ∧
    (s.ram.present = true → s.running ≠ [] → exec .ramFree s = .refused .hartsRunning) ∧
    (s.ram.present = false → exec .ramFree s = .refused .freeWithoutRam)

/-! ### Software TLB (43_tlb.md) -/

/-- R220, R221: TLB.LOOKUP compares the op's tag of the VPN's slot with the VPN, and writes no state. -/
def Obligations.TlbLookupResult : Prop :=
  ∀ (s : State) (v : Word) (op : Op), paramsOk s.params = true →
    let e := s.slot s.cur (v.toNat / 4096 % s.params.tlbEntries)
    let tag := match op with | .R => e.tagR | .W => e.tagW | .X => e.tagX
    exec (.tlbLookup v op) s = .next (s.give (.lookup (decide (tag.toNat = v.toNat / 4096)) e.hostBias))

/-- R223 to R226: the slot after a fill, and nothing else changed. -/
def Obligations.TlbFillResult : Prop :=
  ∀ (s : State) (v : Word) (op : Op) (bias : Word), paramsOk s.params = true →
    let vpn : Word := v >>> 12
    let i := v.toNat / 4096 % s.params.tlbEntries
    let e := s.slot s.cur i
    let keep := fun tag : Word => if tag ≠ vpn then vpn - 1 else tag
    ∃ t, exec (.tlbFill v op bias) s = .next t ∧ OnlyThisTlb s t .filled ∧
      (∀ j, j ≠ i → t.slot s.cur j = s.slot s.cur j) ∧
      t.slot s.cur i = match op with
        | .R => ⟨vpn, keep e.tagW, keep e.tagX, bias⟩
        | .W => ⟨vpn, vpn, keep e.tagX, bias⟩
        | .X => ⟨keep e.tagR, keep e.tagW, vpn, bias⟩

/-- R222, R229, R28: after a fill with the bias of a RAM offset o, a lookup of the same page hits, and the bias plus the address is
o moved by the difference of the two page offsets; and in that slot, whatever it held, no other page hits, for any op. -/
def Obligations.FillHitsItsPage : Prop :=
  ∀ (s t : State) (v o : Word) (op : Op), exec (.tlbFill v op (o - v)) s = .next t →
    (∀ v' : Word, v' >>> 12 = v >>> 12 →
      exec (.tlbLookup v' op) t = .next (t.give (.lookup true (o - v))) ∧
        (op = .W → exec (.tlbLookup v' .R) t = .next (t.give (.lookup true (o - v)))) ∧
        (o - v) + v' = o + (v' &&& 0xFFF) - (v &&& 0xFFF)) ∧
    ∀ (v' : Word) (op' : Op), paramsOk s.params = true →
      v'.toNat / 4096 % s.params.tlbEntries = v.toNat / 4096 % s.params.tlbEntries → v' >>> 12 ≠ v >>> 12 →
      ∃ b, exec (.tlbLookup v' op') t = .next (t.give (.lookup false b))

/-! ### Interleaved harts (60_exceptions.md R320, 20_memory.md R57) -/

/-- R57, R198, R320: one shared access after another: a command in progress whose hart goes on by one shared access, and is then
performed to its end, has done what it does when it is performed to its end at once, if nobody else acts. -/
def Obligations.MovesAddUp : Prop :=
  ∀ (s : State) (c : Running), paramsOk s.params = true → Quiet s → s.pending = [] → s.running = [c] → c.hart ≠ s.cur →
    c.hart < s.params.harts →
    ((s.moveHart c.hart).running = [] → step s = .next ((s.moveHart c.hart).as c.hart)) ∧
    ((s.moveHart c.hart).running ≠ [] → step (s.moveHart c.hart) = step s)

/-! ### Flushing the TLB (43_tlb.md) -/

/-- R227, R232 (P4): TLB.FLUSH leaves every slot flushed, changes nothing else, and after it no lookup hits. -/
def Obligations.TlbFlushResult : Prop :=
  ∀ s : State, ∃ t, exec .tlbFlush s = .next t ∧ OnlyThisTlb s t (.command true []) ∧
    (∀ i, t.slot s.cur i = if i = 0 then ⟨s.params.flushSlot0Tag, s.params.flushSlot0Tag, s.params.flushSlot0Tag, 0⟩
      else ⟨0, 0, 0, 0⟩) ∧
    (paramsOk s.params = true → ∀ v op, ∃ b, exec (.tlbLookup v op) t = .next (t.give (.lookup false b)))

/-- R228, R232 (P4): TLB.FLUSHPAGE sets the three tags of one slot to VPN - 1, keeps its bias, changes nothing else, and no page
of that slot hits afterwards. -/
def Obligations.TlbFlushPageResult : Prop :=
  ∀ (s : State) (v : Word), paramsOk s.params = true →
    let vpn : Word := v >>> 12
    let i := v.toNat / 4096 % s.params.tlbEntries
    ∃ t, exec (.tlbFlushPage v) s = .next t ∧ OnlyThisTlb s t (.command true []) ∧
      t.slot s.cur i = ⟨vpn - 1, vpn - 1, vpn - 1, (s.slot s.cur i).hostBias⟩ ∧
      (∀ j, j ≠ i → t.slot s.cur j = s.slot s.cur j) ∧
      ∀ v' op, v'.toNat / 4096 % s.params.tlbEntries = i →
        ∃ b, exec (.tlbLookup v' op) t = .next (t.give (.lookup false b))

/-! ### Hart context (42_dispatcher.md R196) -/

/-- R196, R86: CTX.SET writes the six fields, flushes the running hart's TLB exactly when SATPW is set or a field changes, and
changes nothing else; a misaligned root or a reserved bit is refused. -/
def Obligations.CtxSetResult : Prop :=
  ∀ (s : State) (a b : Word) (satpw : Bool),
    (a.extractLsb' 0 12 ≠ 0 → exec (.ctxSet a b satpw) s = .refused .misalignedRoot) ∧
    (a.extractLsb' 0 12 = 0 → b.extractLsb' 6 2 ≠ 0 ∨ b.extractLsb' 12 52 ≠ 0 →
      exec (.ctxSet a b satpw) s = .refused .reservedContextBits) ∧
    (a.extractLsb' 0 12 = 0 → b.extractLsb' 6 2 = 0 → b.extractLsb' 12 52 = 0 →
      ∃ t, exec (.ctxSet a b satpw) s = .next t ∧ OnlyThisHart s t (.command true []) ∧
        privBits (t.hart s.cur).ctx.priv = b.extractLsb' 0 2 ∧ privBits (t.hart s.cur).ctx.mpp = b.extractLsb' 2 2 ∧
        (t.hart s.cur).ctx.mprv = b.getLsbD 4 ∧ (t.hart s.cur).ctx.mxr = b.getLsbD 5 ∧
        (t.hart s.cur).ctx.mode = b.extractLsb' 8 4 ∧ (t.hart s.cur).ctx.root = a ∧
        ∀ i, t.slot s.cur i =
          if satpw = true ∨ (t.hart s.cur).ctx ≠ (s.hart s.cur).ctx then flushedSlot s.params i else s.slot s.cur i)

/-- R101, R230: the guest events as commands: SFENCE.VMA, a SATP write, a privilege change, a status write, and accesses. -/
def Obligations.PseudoCommands : Prop :=
  ∀ (s : State), s.ctx.root.extractLsb' 0 12 = 0 →
    (∀ rs2, expand s.ctx (.sfenceVma none rs2) = .tlbFlush) ∧
    (∀ v rs2, expand s.ctx (.sfenceVma (some v) rs2) = .tlbFlushPage v) ∧
    (∀ v n, expand s.ctx (.load v n) = .accessR v n ∧ expand s.ctx (.fetch v n) = .accessX v n) ∧
    (∀ v bs, expand s.ctx (.store v bs) = .accessW v bs) ∧
    (∀ (mode : BitVec 4) (root : Word), root.extractLsb' 0 12 = 0 → ∃ t,
      exec (expand s.ctx (.satpWrite mode root)) s = .next t ∧ t.ctx = { s.ctx with mode := mode, root := root } ∧
        ∀ i, t.slot s.cur i = flushedSlot s.params i) ∧
    (∀ p, ∃ t, exec (expand s.ctx (.privSet p)) s = .next t ∧ t.ctx = { s.ctx with priv := p } ∧
      ∀ i, t.slot s.cur i = if p ≠ s.ctx.priv then flushedSlot s.params i else s.slot s.cur i) ∧
    ∀ mprv mpp mxr, ∃ t, exec (expand s.ctx (.statusWrite mprv mpp mxr)) s = .next t ∧
      t.ctx = { s.ctx with mprv := mprv, mpp := mpp, mxr := mxr }

/-! ### Walker (41_walker.md) -/

/-- R140: the walk parameters of the sixteen mode codes. -/
def Obligations.ModeDecoder : Prop :=
  modeParams 0 = .bare ∧ modeParams 1 = .paged ⟨10, 2, 4, 34⟩ ∧ modeParams 8 = .paged ⟨9, 3, 8, 56⟩ ∧
  modeParams 9 = .paged ⟨9, 4, 8, 56⟩ ∧ modeParams 10 = .paged ⟨9, 5, 8, 56⟩ ∧
  (∀ m : BitVec 4, m.toNat ∉ [0, 1, 8, 9, 10] → modeParams m = .unknown) ∧
  ∀ (s : State) (v acc : Word) (t : State), exec (.walk v acc) s = .next t → s.ctx.mode.toNat ∈ [1, 8, 9, 10]

/-- R142, R143: in the 64-bit modes an address whose bits from `top` up are not all equal faults without a PTE load; every other
address does not fault so, and Sv32 has no such check. -/
def Obligations.CanonicalCheck : Prop :=
  ∀ (s : State) (v acc : Word), Legal s →
    (∀ top, (s.ctx.mode.toNat, top) ∈ [(8, 38), (9, 47), (10, 56)] →
      ¬ (v.toNat / 2 ^ top = 0 ∨ v.toNat / 2 ^ top = 2 ^ (64 - top) - 1) →
      exec (.walk v acc) s = .next (s.give (.walk (.fault .noncanonical)))) ∧
    ((∃ top, (s.ctx.mode.toNat, top) ∈ [(8, 38), (9, 47), (10, 56)] ∧
        (v.toNat / 2 ^ top = 0 ∨ v.toNat / 2 ^ top = 2 ^ (64 - top) - 1)) ∨ s.ctx.mode.toNat = 1 →
      ∃ r t, exec (.walk v acc) s = .next t ∧ Returns s t (.walk r) ∧ r ≠ .fault .noncanonical)

/-- R95, R144, R152, R153: the walker's fields as arithmetic: the PTE address, the next table, the paddr of a leaf. -/
def Obligations.WalkFields : Prop :=
  ∀ (wp : WalkParams) (i : Nat) (table v pte : Word), wp ∈ [sv32, sv39, sv48, sv57] → i < wp.levels →
    let b := i * wp.vpnBits + 12
    (pteAddress wp table v i).toNat =
      (table.toNat + v.toNat / 2 ^ b % 2 ^ wp.vpnBits * wp.pteBytes) % 2 ^ 64 ∧
    (nextTable wp pte).toNat = pte.toNat / 2 ^ 10 % 2 ^ (wp.physBits - 12) * 4096 ∧
    (leafPaddr wp pte v i).toNat = pte.toNat / 2 ^ (b - 2) % 2 ^ (wp.physBits - b) * 2 ^ b + v.toNat % 2 ^ b

/-- R147, R148, R149, R150, R153: what a loaded PTE at level i means, bit by bit. -/
def Obligations.PteDecision : Prop :=
  ∀ (wp : WalkParams) (i : Nat) (pte acc : Word), wp ∈ [sv32, sv39, sv48, sv57] → i < wp.levels →
    isAccessMask acc = true →
    pteStep wp pte acc i =
      if pte.getLsbD 0 = false ∨ (pte.getLsbD 1 = false ∧ pte.getLsbD 2 = true) then .fault .invalid
      else if pte.extractLsb' 1 3 = 0 then .next (nextTable wp pte)
      else if pte.extractLsb' 1 3 &&& acc.extractLsb' 1 3 = 0 then .fault .permission
      else if pte.extractLsb' 10 (i * wp.vpnBits) ≠ 0 then .fault .misalignedSuperpage
      else .leaf

/-- R162, R92: two PTEs that differ only in U, G, A, D, RSW and bits above the PPN lead the walk the same way and, as a leaf, to
the same paddr; the A/D update keeps every bit but 6 and 7. -/
def Obligations.IgnoredPteFields : Prop :=
  ∀ (wp : WalkParams) (i : Nat) (pte pte' acc v : Word), wp ∈ [sv32, sv39, sv48, sv57] → i < wp.levels →
    isAccessMask acc = true → pte.extractLsb' 0 4 = pte'.extractLsb' 0 4 →
    pte.extractLsb' 10 (wp.physBits - 12) = pte'.extractLsb' 10 (wp.physBits - 12) →
    pteStep wp pte acc i = pteStep wp pte' acc i ∧ leafPaddr wp pte v i = leafPaddr wp pte' v i ∧
      ∀ k, k ≠ 6 → k ≠ 7 → (pteAccessed pte acc).getLsbD k = pte.getLsbD k

/-- R155: WALK from a legal state, undisturbed: its result, its loads from the root down, and the A/D update of the leaf as one
successful compare-and-swap, or none if no bit is to be set. -/
def Obligations.WalkUndisturbed : Prop :=
  ∀ (s : State) (wp : WalkParams) (v acc : Word), Legal s → Quiet s → modeParams s.ctx.mode = .paged wp →
    isAccessMask acc = true →
    exec (.walk v acc) s = .next ((quietWalk wp v acc s).2.give (.walk (quietWalk wp v acc s).1))

/-- R161: how many PTE loads a walk makes, whatever other agents do meanwhile. Of a walk that succeeds it says that the loads are
`levels - i` for some level i at which the paddr is a leaf's paddr of some PTE value; it does not tie i to the PTE loaded last. -/
def Obligations.WalkLoadCount : Prop :=
  ∀ (s t : State) (wp : WalkParams) (v acc : Word) (r : WalkResult), modeParams s.ctx.mode = .paged wp →
    exec (.walk v acc) s = .next t → Returns s t (.walk r) →
    let loads := ((ownEvents s t).filter isRamRead).length
    match r with
    | .ok p => ∃ i < wp.levels, loads = wp.levels - i ∧ ∃ pte, p = leafPaddr wp pte v i
    | .fault .noncanonical => loads = 0
    | .fault .pteNotRam => loads < wp.levels
    | .fault .noLeaf => loads = wp.levels
    | .fault _ => 1 ≤ loads ∧ loads ≤ wp.levels

/-- R155, R54: WALK in a paged mode answers, whatever other agents do meanwhile; every PTE it loads or swaps is naturally
aligned; it does not change its hart. In the other modes it is refused (the model's choice, log entry 21). -/
def Obligations.WalkAnswersAligned : Prop :=
  ∀ (s : State) (v acc : Word),
    (s.ctx.mode.toNat ∉ [1, 8, 9, 10] → exec (.walk v acc) s = .refused .walkUnpaged) ∧
    ∀ wp, Legal s → modeParams s.ctx.mode = .paged wp →
      ∃ r t, exec (.walk v acc) s = .next t ∧ Returns s t (.walk r) ∧ t.hart s.cur = s.hart s.cur ∧
        ∀ e ∈ ownEvents s t,
          match e with
          | .ramRead _ p n | .ramCas _ p n _ _ _ => n = wp.pteBytes ∧ p.toNat % n = 0
          | _ => False

/-- R309, R155: a walk that faults makes loads only; undisturbed, it leaves RAM as it was. -/
def Obligations.FailedWalkChangesNothing : Prop :=
  ∀ (s t : State) (v acc : Word) (why : WalkFault), exec (.walk v acc) s = .next t → Returns s t (.walk (.fault why)) →
    (∀ e ∈ ownEvents s t, isRamRead e = true) ∧ t.hart s.cur = s.hart s.cur ∧ (Quiet s → t.ram = s.ram)

/-- R151, R66, R163: a walk makes at most one compare-and-swap, which sets A, and D on a WRITE, in the value it loaded; lost or
not, the walk succeeds with the translation of that value; lost, it wrote nothing. -/
def Obligations.CasResultIgnored : Prop :=
  ∀ (s t : State) (wp : WalkParams) (v acc : Word), modeParams s.ctx.mode = .paged wp →
    exec (.walk v acc) s = .next t → ∀ (h : Nat) (p : Word) (n : Nat) (pte new : Word) (success : Bool),
    .ramCas h p n pte new success ∈ ownEvents s t →
    new = pte ||| 0x40 ||| (if acc.getLsbD 2 then 0x80 else 0) ∧ new ≠ pte ∧
    (∃ i < wp.levels, Returns s t (.walk (.ok (leafPaddr wp pte v i)))) ∧
    ((ownEvents s t).filter (fun e => !isRamRead e)).length = 1 ∧
    (success = false → ∀ o, t.ramByte o ≠ s.ramByte o → foreignTo s o ∨ ∃ h, h ≠ s.cur ∧ movesIn s h)

/-- R160 (P5), R151: an undisturbed walk clears no bit of RAM, and when it succeeds the last PTE it loaded has A set, and D set on
a WRITE. -/
def Obligations.WalkSetsAccessedDirty : Prop :=
  ∀ (s t : State) (wp : WalkParams) (v acc : Word), Legal s → Quiet s → modeParams s.ctx.mode = .paged wp →
    exec (.walk v acc) s = .next t →
    (∀ o, s.ramByte o &&& t.ramByte o = s.ramByte o) ∧
    ∀ paddr, t.returned = s.returned ++ [⟨s.cur, .walk (.ok paddr)⟩] →
      ∃ p o, ((newEvents s t).filter isRamRead).getLast? = some (.ramRead s.cur p wp.pteBytes) ∧
        physToHost s.ram p = some o ∧ (t.wordAt o.toNat wp.pteBytes).getLsbD 6 = true ∧
        (acc.getLsbD 2 = true → (t.wordAt o.toNat wp.pteBytes).getLsbD 7 = true)

/-! ### Dispatcher (42_dispatcher.md, 60_exceptions.md) -/

/-- R180, R182, R183: an address not below 2^XLEN is refused, and so is the reserved effective privilege. -/
def Obligations.AccessRefusals : Prop :=
  ∀ (s : State) (op : Op) (v : Word) (n : Nat) (buf : List Byte),
    (2 ^ xlenBits s.params.xlen ≤ v.toNat → exec (accessInstr op v n buf) s = .refused .vaddrWidth) ∧
    (v.toNat < 2 ^ xlenBits s.params.xlen →
      (if s.ctx.mprv = true ∧ op ≠ .X then s.ctx.mpp else s.ctx.priv) = .reserved →
      exec (accessInstr op v n buf) s = .refused .reservedPrivilege)

/-- R184: the access mask of a READ under MXR, for both readings of MXR_READ_RULE, and of every other access. -/
def Obligations.MxrAccessMask : Prop :=
  ∀ (c : Ctx) (op : Op),
    (c.mxr = true → op = .R → accessMask .union c op = 0xA ∧ accessMask .replace c op = 0x8) ∧
    (c.mxr = false ∨ op ≠ .R → ∀ rule, accessMask rule c op = match op with | .R => 0x2 | .W => 0x4 | .X => 0x8)

/-- R185, R191, R222: an access that hits copies at the bias plus the address: no walk, no fill, no other event. -/
def Obligations.AccessHit : Prop :=
  ∀ (s : State) (op : Op) (v : Word) (n : Nat) (buf : List Byte), Legal s → Quiet s → s.freed = false →
    OnePage op v n buf s → tlbHit s op (v >>> 12) = true →
    let c := quietCopy op ((s.slotFor (v >>> 12)).hostBias + v) n buf s
    exec (accessInstr op v n buf) s = .next (c.2.give (.command true c.1))

/-- R186, R187, R191, P1, P2: an access that misses and translates to RAM, the identity under Machine or Bare or a walk, fills
the slot, tells the JIT hook on a WRITE, and copies. -/
def Obligations.AccessRam : Prop :=
  ∀ (s s1 : State) (op : Op) (v p o : Word) (n : Nat) (buf : List Byte), Legal s → Quiet s → OnePage op v n buf s →
    tlbHit s op (v >>> 12) = false → quietTranslate op v s = (.phys p, s1) → physToHost s1.ram p = some o →
    let t := tlbFill op (v >>> 12) (o - v) s1
    let c := quietCopy op o n buf (if op = .W then t.record [.jitInvalidate s.cur v p n] else t)
    exec (accessInstr op v n buf) s = .next (c.2.give (.command true c.1))

/-- R188, R261: an access that misses and translates into device k is the adapter's call on it, a read for READ and EXEC; when
the adapter fails, it is an access fault; no slot is filled and the JIT hook is not told. -/
def Obligations.AccessMmio : Prop :=
  ∀ (s s1 : State) (op : Op) (v p : Word) (n k : Nat) (d : Device) (buf : List Byte), Legal s → Quiet s → OnePage op v n buf s →
    tlbHit s op (v >>> 12) = false → quietTranslate op v s = (.phys p, s1) → physToHost s1.ram p = none →
    findMmio s.params.devices p = some k → s.params.devices[k]? = some d →
    match (mmio s.view k d mmioDepth (match op with | .W => .wr | _ => .rd) (p - d.begin) n buf).run s1 with
    | .done (some data) t =>
      exec (accessInstr op v n buf) s = .next (t.give (.command true data)) ∧ t.harts = s.harts ∧
        ∀ e ∈ newEvents s1 t, (deviceCallOf e).isSome = true
    | .done none t =>
      exec (accessInstr op v n buf) s = .next (State.give (t.record [.trap s.cur
        (match op with | .R => 5 | .W => 7 | .X => 1) v]) (.command false [])) ∧ t.harts = s.harts ∧
        ∀ e ∈ newEvents s1 t, (deviceCallOf e).isSome = true
    | .refused e => exec (accessInstr op v n buf) s = .refused e
    | .fault f => exec (accessInstr op v n buf) s = .fault f

/-- R189, R301, R309: an access that misses and translates to neither RAM nor a device raises an access fault, fills nothing, and
keeps the A/D update of its walk. -/
def Obligations.AccessVoid : Prop :=
  ∀ (s s1 : State) (op : Op) (v p : Word) (n : Nat) (buf : List Byte), Legal s → Quiet s → OnePage op v n buf s →
    tlbHit s op (v >>> 12) = false → quietTranslate op v s = (.phys p, s1) → physToHost s1.ram p = none →
    findMmio s.params.devices p = none →
    exec (accessInstr op v n buf) s = .next (State.give (s1.record [.trap s.cur
      (match op with | .R => 5 | .W => 7 | .X => 1) v]) (.command false []))

/-- R190, R145, R302: an access whose walk faults raises a page fault with its own address; PTE_NOT_RAM under
WALK_NON_RAM_FAULT = access raises the access fault. -/
def Obligations.AccessWalkFault : Prop :=
  ∀ (s : State) (op : Op) (v : Word) (n : Nat) (buf : List Byte) (wp : WalkParams) (why : WalkFault), Legal s → Quiet s →
    OnePage op v n buf s → tlbHit s op (v >>> 12) = false → effPriv s.ctx op ≠ .machine →
    modeParams s.ctx.mode = .paged wp →
    (quietWalk wp v (accessMask s.params.mxrRule s.ctx op) s).1 = .fault why →
    exec (accessInstr op v n buf) s =
      .next (State.give ((quietWalk wp v (accessMask s.params.mxrRule s.ctx op) s).2.record [.trap s.cur
        (if why = .pteNotRam ∧ s.params.walkNonRam = .access then (match op with | .R => 5 | .W => 7 | .X => 1)
          else (match op with | .R => 13 | .W => 15 | .X => 12)) v]) (.command false []))

/-- R304, R186: under an unknown mode a translated access raises a page fault and loads no PTE. -/
def Obligations.AccessUnknownMode : Prop :=
  ∀ (s : State) (op : Op) (v : Word) (n : Nat) (buf : List Byte), OnePage op v n buf s → tlbHit s op (v >>> 12) = false →
    effPriv s.ctx op ≠ .machine → s.ctx.mode.toNat ∉ [0, 1, 8, 9, 10] →
    exec (accessInstr op v n buf) s = .next (State.give (s.record [.trap s.cur
      (match op with | .R => 13 | .W => 15 | .X => 12) v]) (.command false []))

/-- R181, R192: a page-crossing access is its two single-page parts in order, the second at (v + n1) mod 2^XLEN from the state the
first leaves; if the first fails, the second is not attempted; what the first did stays. -/
def Obligations.PageCrossing : Prop :=
  ∀ (s s1 : State) (op : Op) (v : Word) (n : Nat) (buf : List Byte), n ≤ 16 → bufOk op n buf →
    4096 < v.toNat % 4096 + n → v.toNat < 2 ^ xlenBits s.params.xlen →
    let n1 := 4096 - v.toNat % 4096
    let vb : Word := BitVec.ofNat 64 ((v.toNat + n1) % 2 ^ xlenBits s.params.xlen)
    (exec (accessInstr op v n1 (buf.take n1)) s = .next (s1.give (.command false [])) →
      exec (accessInstr op v n buf) s = .next (s1.give (.command false []))) ∧
    ∀ lo, exec (accessInstr op v n1 (buf.take n1)) s = .next (s1.give (.command true lo)) →
      ∀ s2 : State, (exec (accessInstr op vb (n - n1) (buf.drop n1)) s1 = .next (s2.give (.command false [])) →
          exec (accessInstr op v n buf) s = .next (s2.give (.command false []))) ∧
        ∀ hi, exec (accessInstr op vb (n - n1) (buf.drop n1)) s1 = .next (s2.give (.command true hi)) →
          exec (accessInstr op v n buf) s = .next (s2.give (.command true (lo ++ hi)))

/-- R308, R301, R306, R192: a successful access raises no trap and returns the bytes asked for; a failing one returns none and
raises exactly one trap, its last event, with the address of the part that failed; whatever other agents do meanwhile. -/
def Obligations.OneTrapPerFailure : Prop :=
  ∀ (s t : State) (op : Op) (v : Word) (n : Nat) (buf : List Byte), n ≤ 16 → bufOk op n buf →
    exec (accessInstr op v n buf) s = .next t →
    (∃ data, Returns s t (.command true data) ∧ data.length = (if op = .W then 0 else n) ∧
      ∀ e ∈ ownEvents s t, isTrap e = false) ∨
    (Returns s t (.command false []) ∧
      ∃ es c tval, ownEvents s t = es ++ [.trap s.cur (trapCause c op) tval] ∧ (∀ e ∈ es, isTrap e = false) ∧
        (tval = v ∨ (4096 < v.toNat % 4096 + n ∧
          tval.toNat = (v.toNat + (4096 - v.toNat % 4096)) % 2 ^ xlenBits s.params.xlen)))

/-- R301: the cause codes; no other is ever raised; a trap of a command has one of its op's two, and only ACCESS raises traps. -/
def Obligations.TrapCauses : Prop :=
  trapCause .page .R = 13 ∧ trapCause .page .W = 15 ∧ trapCause .page .X = 12 ∧
  trapCause .access .R = 5 ∧ trapCause .access .W = 7 ∧ trapCause .access .X = 1 ∧
  ∀ (i : Instr) (s t : State), exec i s = .next t → ∀ h c tval, .trap h c tval ∈ newEvents s t →
    c ∈ [13, 15, 12, 5, 7, 1] ∧
    (h = s.cur → match i with
      | .accessR _ _ => c = 13 ∨ c = 5
      | .accessW _ _ => c = 15 ∨ c = 7
      | .accessX _ _ => c = 12 ∨ c = 1
      | _ => False)

/-- R310, R20, R26: the frame of an access, successful or not: its hart's context does not change, nor does another hart that
does not go on inside it, and of its hart's TLB at most the slots of the pages it touches; RAM changes only as
`RamChangesAreEvents` says. -/
def Obligations.AccessFrame : Prop :=
  ∀ (s t : State) (op : Op) (v : Word) (n : Nat) (buf : List Byte), n ≤ 16 → bufOk op n buf → paramsOk s.params = true →
    exec (accessInstr op v n buf) s = .next t →
    (t.hart s.cur).ctx = (s.hart s.cur).ctx ∧ (∀ h, h ≠ s.cur → ¬ movesIn s h → t.hart h = s.hart h) ∧
    (∀ i, i ≠ v.toNat / 4096 % s.params.tlbEntries →
      (4096 < v.toNat % 4096 + n →
        i ≠ (v.toNat + (4096 - v.toNat % 4096)) % 2 ^ xlenBits s.params.xlen / 4096 % s.params.tlbEntries) →
      t.slot s.cur i = s.slot s.cur i) ∧
    (op ≠ .W → ∀ e ∈ ownEvents s t, match e with | .ramWrite _ _ _ _ | .jitInvalidate _ _ _ _ => False | _ => True)

/-- R182, R184, P9: a fetch does not depend on MPRV, MPP or MXR, and a store does not depend on MXR. -/
def Obligations.FetchAndStoreContext : Prop :=
  ∀ (s : State) (c : Ctx) (v : Word), c.mode = s.ctx.mode → c.root = s.ctx.root → c.priv = s.ctx.priv →
    (∀ n, SameOutcomeButCtx (exec (.accessX v n) s) (exec (.accessX v n) (s.setCtx c))) ∧
    (c.mprv = s.ctx.mprv → c.mpp = s.ctx.mpp →
      ∀ buf, SameOutcomeButCtx (exec (.accessW v buf) s) (exec (.accessW v buf) (s.setCtx c)))

/-- R315, R149: User and Supervisor, as privilege and as MPP, give the same result for every access. -/
def Obligations.UserSupervisorAlike : Prop :=
  ∀ (s : State) (c : Ctx) (op : Op) (v : Word) (n : Nat) (buf : List Byte),
    c.mode = s.ctx.mode → c.root = s.ctx.root → c.mprv = s.ctx.mprv → c.mxr = s.ctx.mxr →
    (c.priv = s.ctx.priv ∨ (c.priv ∈ [.user, .supervisor] ∧ s.ctx.priv ∈ [.user, .supervisor])) →
    (c.mpp = s.ctx.mpp ∨ (c.mpp ∈ [.user, .supervisor] ∧ s.ctx.mpp ∈ [.user, .supervisor])) →
    SameOutcomeButCtx (exec (accessInstr op v n buf) s) (exec (accessInstr op v n buf) (s.setCtx c))

/-! ### MMIO adapter (44_mmio.md) -/

/-- R255, R55: every device call a command makes is on a device of the list, of a size between its two operation sizes, at an
offset that is a multiple of the smaller; and so is every call of a legal command in progress that goes on inside it. -/
def Obligations.DeviceCallsLegal : Prop :=
  ∀ (i : Instr) (s t : State), exec i s = .next t → ∀ e ∈ newEvents s t, eventHart e = s.cur ∨ runningLegal s = true →
    ∀ k off n, deviceCallOf e = some (k, off, n) →
    ∃ d, s.params.devices[k]? = some d ∧ opBytes d.minOp ≤ n ∧ n ≤ opBytes d.maxOp ∧ off.toNat % opBytes d.minOp = 0

/-- R256, R257: an adapter call of 1 to 16 bytes on a device of the list answers, or is refused when it must be widened to a window
of more than 16 bytes. A device index past the list is refused (the model's choice, log entry 21). -/
def Obligations.MmioEnds : Prop :=
  ∀ (s : State) (off dev : Word), paramsOk s.params = true →
    (s.params.devices[dev.toNat]? = none → (∀ n, exec (.mmioRead off dev n) s = .refused .noSuchDevice) ∧
      ∀ bs, exec (.mmioWrite off dev bs) s = .refused .noSuchDevice) ∧
    ∀ d, s.params.devices[dev.toNat]? = some d →
      let tooWide := fun n =>
        (n < opBytes d.minOp ∨ off.toNat % opBytes d.minOp ≠ 0) ∧ 16 < off.toNat % opBytes d.minOp + n
      (∀ n, 1 ≤ n → n ≤ 16 →
        (tooWide n → exec (.mmioRead off dev n) s = .refused .mmioWindow) ∧
        (¬ tooWide n → ∃ r t, exec (.mmioRead off dev n) s = .next t ∧
          Returns s t (response r) ∧ ∀ data, r = some data → data.length = n)) ∧
      ∀ bs, 1 ≤ bs.length → bs.length ≤ 16 →
        (tooWide bs.length → exec (.mmioWrite off dev bs) s = .refused .mmioWindow) ∧
        (¬ tooWide bs.length → ∃ r t, exec (.mmioWrite off dev bs) s = .next t ∧
          Returns s t (response r))

/-- R255, R258: a call inside the device's sizes and alignment is one callback; its answer is the run's next one, or a free value
(log entry 7). -/
def Obligations.MmioDirect : Prop :=
  ∀ (s : State) (off dev : Word) (d : Device), Quiet s → s.params.devices[dev.toNat]? = some d →
    off.toNat % opBytes d.minOp = 0 →
    (∀ n, opBytes d.minOp ≤ n → n ≤ opBytes d.maxOp →
      let answer := fun (a : DevAnswer) (t : State) =>
        State.give (t.record [.devRead s.cur dev.toNat off n])
          (if a.ok then .command true (answerBytes a n) else .command false [])
      (∀ a rest, s.env.devAnswers = a :: rest →
        exec (.mmioRead off dev n) s = .next (answer a { s with env := { s.env with devAnswers := rest } })) ∧
      (s.env.devAnswers = [] →
        ∃ a, exec (.mmioRead off dev n) s = .next (answer a { s with env := { s.env with draws := s.env.draws + 1 } }))) ∧
    ∀ bs, opBytes d.minOp ≤ bs.length → bs.length ≤ opBytes d.maxOp →
      let answer := fun (a : DevAnswer) (t : State) =>
        State.give (t.record [.devWrite s.cur dev.toNat off bs.length bs]) (.command a.ok [])
      (∀ a rest, s.env.devAnswers = a :: rest →
        exec (.mmioWrite off dev bs) s = .next (answer a { s with env := { s.env with devAnswers := rest } })) ∧
      (s.env.devAnswers = [] →
        ∃ a, exec (.mmioWrite off dev bs) s = .next (answer a { s with env := { s.env with draws := s.env.draws + 1 } }))

/-- R252, R253: an access that must be widened, with a window of one device operation. A read is one read of the window, of
which the bytes asked for are returned; a write reads the window, puts the caller's bytes in, and writes the window back; if the
window's read fails, the access fails and nothing is written. -/
def Obligations.MmioWiden : Prop :=
  ∀ (s : State) (off dev : Word) (d : Device) (a : DevAnswer) (rest : List DevAnswer), Quiet s →
    s.params.devices[dev.toNat]? = some d → s.env.devAnswers = a :: rest →
    let diff := off.toNat % opBytes d.minOp
    let window := fun n => max (opBytes d.minOp) (pow2ceil (diff + n))
    let widens := fun n => 1 ≤ n ∧ (n < opBytes d.minOp ∨ diff ≠ 0) ∧ window n ≤ opBytes d.maxOp
    let base := off - BitVec.ofNat 64 diff
    (∀ n, widens n →
      exec (.mmioRead off dev n) s =
        .next (State.give (State.record { s with env := { s.env with devAnswers := rest } }
          [.devRead s.cur dev.toNat base (window n)])
          (if a.ok then .command true (((answerBytes a (window n)).drop diff).take n) else .command false []))) ∧
    ∀ bs, widens bs.length →
      let w := window bs.length
      (a.ok = false → exec (.mmioWrite off dev bs) s =
        .next (State.give (State.record { s with env := { s.env with devAnswers := rest } }
          [.devRead s.cur dev.toNat base w]) (.command false []))) ∧
      ∀ a' rest', a.ok = true → rest = a' :: rest' → exec (.mmioWrite off dev bs) s =
        .next (State.give (State.record { s with env := { s.env with devAnswers := rest' } }
          [.devRead s.cur dev.toNat base w, .devWrite s.cur dev.toNat base w
            ((answerBytes a w).take diff ++ bs ++ (answerBytes a w).drop (diff + bs.length))]) (.command a'.ok []))

/-- R254: an access of more bytes than the device's larger operation, whose two halves are direct calls, is the lower half's
call and then the upper half's, skipped if the lower fails; a failing upper half leaves the lower half's write performed. -/
def Obligations.MmioSplit : Prop :=
  ∀ (s : State) (off dev : Word) (d : Device) (a a' : DevAnswer) (rest : List DevAnswer), Quiet s →
    s.params.devices[dev.toNat]? = some d → s.env.devAnswers = a :: a' :: rest → off.toNat % opBytes d.minOp = 0 →
    let halves := fun n => opBytes d.maxOp < n ∧ n - n / 2 ≤ opBytes d.maxOp ∧ n / 2 % opBytes d.minOp = 0 ∧
      opBytes d.minOp ≤ n / 2
    let upper := fun n => off + BitVec.ofNat 64 (n / 2)
    (∀ n, halves n →
      exec (.mmioRead off dev n) s =
        if a.ok then
          .next (State.give (State.record { s with env := { s.env with devAnswers := rest } }
            [.devRead s.cur dev.toNat off (n / 2), .devRead s.cur dev.toNat (upper n) (n - n / 2)])
            (if a'.ok then .command true (answerBytes a (n / 2) ++ answerBytes a' (n - n / 2)) else .command false []))
        else
          .next (State.give (State.record { s with env := { s.env with devAnswers := a' :: rest } }
            [.devRead s.cur dev.toNat off (n / 2)]) (.command false []))) ∧
    ∀ bs, halves bs.length →
      let h := bs.length / 2
      exec (.mmioWrite off dev bs) s =
        if a.ok then
          .next (State.give (State.record { s with env := { s.env with devAnswers := rest } }
            [.devWrite s.cur dev.toNat off h (bs.take h),
              .devWrite s.cur dev.toNat (upper bs.length) (bs.length - h) (bs.drop h)]) (.command a'.ok []))
        else
          .next (State.give (State.record { s with env := { s.env with devAnswers := a' :: rest } }
            [.devWrite s.cur dev.toNat off h (bs.take h)]) (.command false []))

/-- R262 (P10): on a device that is a store of bytes the adapter reads exactly the bytes asked for and writes exactly the caller's
bytes, for every pair of operation sizes, offset and size, unless the window is refused. -/
def Obligations.AdapterIsByteGranular : Prop :=
  ∀ (v : View) (k : Nat) (d : Device) (off : Word) (n : Nat) (f : Word → Byte), opBytes d.minOp ≤ opBytes d.maxOp → 1 ≤ n →
    n ≤ 16 → ¬ ((n < opBytes d.minOp ∨ off.toNat % opBytes d.minOp ≠ 0) ∧ 16 < off.toNat % opBytes d.minOp + n) →
    (mmio v k d mmioDepth .rd off n []).runOn storeAnswer f = .done (some (storeBytes f off n)) f ∧
    ∀ bs, bs.length = n →
      (mmio v k d mmioDepth .wr off n bs).runOn storeAnswer f = .done (some []) (storeWrite f off bs)

end Slice0Statements
end

