-- ==== Sys2Proof/Laws/Bits.lean ====
section
/-! SUPPORT. Bits of masks, fields and physical addresses, and their alignment. -/

namespace Sys2Proof.Machine

open Sys2Proof.Config

/-- Bit j of `mask n` is set exactly below n. -/
theorem mask_getLsbD {n : Nat} (hn : n ≤ 64) (j : Nat) : (mask n).getLsbD j = decide (j < n) := by
  simp only [mask, BitVec.getLsbD_ofNat, Nat.testBit_two_pow_sub_one]
  by_cases h : j < n
  · simp [h, show j < 64 by omega]
  · simp [h]

/-- The page offset is the value modulo 4096. -/
theorem and_fff (v : Word) : (v &&& 0xFFF).toNat = v.toNat % 4096 := by
  rw [BitVec.toNat_and]
  exact Nat.and_two_pow_sub_one_eq_mod v.toNat 12

theorem aligned_iff (v : Word) : v &&& 0xFFF = 0 ↔ v.toNat % 4096 = 0 := by
  rw [← and_fff]
  constructor
  · intro h; rw [h]; rfl
  · intro h; exact BitVec.eq_of_toNat_eq (by simpa using h)

theorem pageOffset_eq (v : Word) : pageOffset v = v.toNat % 4096 := and_fff v

theorem vpnOf_toNat (v : Word) : (vpnOf v).toNat = v.toNat / 4096 := by
  simp [vpnOf, BitVec.toNat_ushiftRight, Nat.shiftRight_eq_div_pow]

/-- The modes that walk. -/
inductive IsMode : WalkParams → Prop where
  | m32 : IsMode sv32
  | m39 : IsMode sv39
  | m48 : IsMode sv48
  | m57 : IsMode sv57

theorem modeParams_paged {m : BitVec 4} {wp : WalkParams} (h : modeParams m = .paged wp) : IsMode wp := by
  unfold modeParams at h
  split_ifs at h <;> cases h <;> constructor

theorem IsMode.bounds {wp : WalkParams} (h : IsMode wp) :
    (wp.pteBytes = 4 ∨ wp.pteBytes = 8) ∧ wp.physBits ≤ 64 ∧ 0 < wp.levels ∧ ∀ i < wp.levels, bitOff wp i ≤ 48 := by
  cases h <;> refine ⟨by decide, by decide, by decide, ?_⟩ <;> simp only [bitOff, sv32, sv39, sv48, sv57] <;> omega

/-- The next table of a pointer is page-aligned (R153). -/
theorem nextTable_aligned (wp : WalkParams) (pte : Word) : nextTable wp pte &&& 0xFFF = 0 := by
  apply BitVec.eq_of_getLsbD_eq
  intro j hj
  simp only [nextTable, BitVec.getLsbD_and, BitVec.getLsbD_shiftLeft]
  have e : (0xFFF : Word) = mask 12 := rfl
  rw [e, mask_getLsbD (n := 12) (by omega)]
  by_cases h : j < 12 <;> simp [h]

/-- A PTE address is a multiple of the PTE's size (20_memory.md R54). -/
theorem pteAddress_aligned {wp : WalkParams} (hp : wp.pteBytes = 4 ∨ wp.pteBytes = 8) {table : Word}
    (ht : table &&& 0xFFF = 0) (vaddr : Word) (i : Nat) : (pteAddress wp table vaddr i).toNat % wp.pteBytes = 0 := by
  rw [aligned_iff] at ht
  simp only [pteAddress, BitVec.toNat_add, BitVec.toNat_mul, BitVec.toNat_ofNat]
  generalize ((vaddr >>> bitOff wp i) &&& mask wp.vpnBits).toNat = x
  rcases hp with h | h <;> rw [h] <;> omega

/-- What PHYS2HOST answers (R120), in unbounded integers. -/
theorem physToHost_some {r : Ram} {p o : Word} (h : physToHost r p = some o) :
    r.present = true ∧ o = p - r.begin ∧ r.begin.toNat ≤ p.toNat ∧ o.toNat = p.toNat - r.begin.toNat ∧
      o.toNat < r.size.toNat := by
  unfold physToHost Ram.contains at h
  split at h
  · next hc =>
    injection h with h
    subst h
    simp only [Bool.and_eq_true, decide_eq_true_eq, BitVec.le_def, BitVec.lt_def] at hc
    refine ⟨hc.1.1, rfl, hc.1.2, ?_, hc.2⟩
    have := p.isLt
    rw [BitVec.toNat_sub]
    omega
  · cases h

/-- A region RAM.INIT accepts, in unbounded integers. -/
theorem ramRegionOk_iff (start size : Word) :
    ramRegionOk start size = true ↔
      start.toNat % 4096 = 0 ∧ size.toNat % 4096 = 0 ∧ 0 < size.toNat ∧ start.toNat + size.toNat ≤ 2 ^ 64 := by
  simp only [ramRegionOk, Bool.and_eq_true, beq_iff_eq, bne_iff_ne, decide_eq_true_eq, aligned_iff, and_assoc]
  have : size ≠ 0 ↔ 0 < size.toNat := by
    rw [Nat.pos_iff_ne_zero, not_iff_not]
    exact ⟨fun h => by rw [h]; rfl, fun h => BitVec.eq_of_toNat_eq (by simpa using h)⟩
  rw [this]

/-- A naturally aligned PTE that starts in RAM lies in RAM whole (R54). -/
theorem pte_holds {r : Ram} {p o : Word} {n : Nat} (hr : ramRegionOk r.begin r.size = true)
    (h : physToHost r p = some o) (hn : n = 4 ∨ n = 8) (hp : p.toNat % n = 0) : r.holds o.toNat n = true := by
  rw [ramRegionOk_iff] at hr
  obtain ⟨h1, -, h3, h4, h5⟩ := physToHost_some h
  simp only [Ram.holds, h1, Bool.true_and, decide_eq_true_eq]
  rcases hn with e | e <;> rw [e] at hp ⊢ <;> omega

/-- A part of a page that starts in RAM lies in RAM whole (40_pam.md R125). -/
theorem part_holds {r : Ram} {p o : Word} {n : Nat} (hr : ramRegionOk r.begin r.size = true)
    (h : physToHost r p = some o) (hn : p.toNat % 4096 + n ≤ 4096) : r.holds o.toNat n = true := by
  rw [ramRegionOk_iff] at hr
  obtain ⟨h1, -, h3, h4, h5⟩ := physToHost_some h
  simp only [Ram.holds, h1, Bool.true_and, decide_eq_true_eq]
  omega

/-- The bits of a leaf's paddr (R152): the offset inside the leaf from vaddr, the rest from the PTE. -/
theorem leafPaddr_getLsbD {wp : WalkParams} (pte vaddr : Word) {i : Nat} (hb : bitOff wp i ≤ 64) (hp : wp.physBits ≤ 64)
    (j : Nat) : (leafPaddr wp pte vaddr i).getLsbD j =
      if j < bitOff wp i then vaddr.getLsbD j else decide (j < wp.physBits) && pte.getLsbD (j - 2) := by
  have h12 : 12 ≤ bitOff wp i := by simp [bitOff]
  simp only [leafPaddr, BitVec.getLsbD_or, BitVec.getLsbD_and, BitVec.getLsbD_not, mask_getLsbD hb, mask_getLsbD hp,
    BitVec.getLsbD_shiftLeft]
  by_cases h : j < bitOff wp i
  · simp [h]
  · by_cases h64 : j < 64
    · simp [h, h64, show ¬ j < 2 by omega, Bool.and_comm]
    · simp [h, h64, show ¬ j < wp.physBits by omega]

/-- A translation keeps the page offset. -/
theorem leafPaddr_offset {wp : WalkParams} (pte vaddr : Word) {i : Nat} (hb : bitOff wp i ≤ 64) (hp : wp.physBits ≤ 64) :
    (leafPaddr wp pte vaddr i).toNat % 4096 = vaddr.toNat % 4096 := by
  rw [← and_fff, ← and_fff]
  congr 1
  apply BitVec.eq_of_getLsbD_eq
  intro j _
  have h12 : 12 ≤ bitOff wp i := by simp [bitOff]
  have e : (0xFFF : Word) = mask 12 := rfl
  rw [BitVec.getLsbD_and, BitVec.getLsbD_and, leafPaddr_getLsbD pte vaddr hb hp, e, mask_getLsbD (by omega)]
  by_cases h : j < 12
  · simp [h, show j < bitOff wp i by omega]
  · simp [h]

end Sys2Proof.Machine
end

