-- ==== Sys2Proof/Laws/Sparse.lean ====
section
/-! SUPPORT. Laws of sparse data: read after write, and the canonical form is kept. -/

namespace Sys2Proof.Machine.Sparse

variable {α : Type}

theorem get_erase_same (d : Nat → α) (k : Nat) (m : List (Nat × α)) : get d k (erase k m) = d k := by
  induction m with
  | nil => rfl
  | cons c m ih =>
    by_cases h : c.1 = k
    · simpa [erase, h] using ih
    · simpa [erase, h, get] using ih

theorem get_erase_other (d : Nat → α) {k j : Nat} (hj : j ≠ k) (m : List (Nat × α)) :
    get d j (erase k m) = get d j m := by
  induction m with
  | nil => rfl
  | cons c m ih =>
    by_cases h : c.1 = k
    · simpa [erase, h, get, Ne.symm hj] using (by simpa [erase] using ih)
    · by_cases e : c.1 = j
      · simp [erase, get, e, hj]
      · simpa [erase, h, get, e] using (by simpa [erase] using ih)

theorem get_insert_same (d : Nat → α) (k : Nat) (v : α) (m : List (Nat × α)) (h : ∀ c ∈ m, c.1 ≠ k) :
    get d k (insert k v m) = v := by
  induction m with
  | nil => simp [insert, get]
  | cons c m ih =>
    simp only [insert]
    split
    · simp [get]
    · simp [get, h c (by simp), ih (fun c hc => h c (by simp [hc]))]

theorem get_insert_other (d : Nat → α) {k j : Nat} (hj : j ≠ k) (v : α) (m : List (Nat × α)) :
    get d j (insert k v m) = get d j m := by
  induction m with
  | nil => simp [insert, get, Ne.symm hj]
  | cons c m ih =>
    simp only [insert]
    split
    · simp [get, Ne.symm hj]
    · simp [get, ih]

theorem mem_erase_ne {k : Nat} {m : List (Nat × α)} {c : Nat × α} (h : c ∈ erase k m) : c.1 ≠ k := by
  simpa using (List.mem_filter.1 h).2

theorem rising_mono {lo lo' : Nat} (h : lo' ≤ lo) {m : List (Nat × α)} (hm : rising lo m = true) : rising lo' m = true := by
  cases m with
  | nil => rfl
  | cons c m => simp only [rising, Bool.and_eq_true, decide_eq_true_eq] at hm ⊢; exact ⟨h.trans hm.1, hm.2⟩

theorem rising_erase (k : Nat) {lo : Nat} {m : List (Nat × α)} (hm : rising lo m = true) :
    rising lo (erase k m) = true := by
  induction m generalizing lo with
  | nil => rfl
  | cons c m ih =>
    simp only [rising, Bool.and_eq_true, decide_eq_true_eq] at hm
    by_cases h : c.1 = k
    · have : erase k (c :: m) = erase k m := by simp [erase, h]
      rw [this]
      exact rising_mono (Nat.le_succ_of_le hm.1) (ih hm.2)
    · have : erase k (c :: m) = c :: erase k m := by simp [erase, h]
      rw [this]
      simp only [rising, Bool.and_eq_true, decide_eq_true_eq]
      exact ⟨hm.1, ih hm.2⟩

theorem rising_insert {k : Nat} (v : α) {lo : Nat} {m : List (Nat × α)} (hm : rising lo m = true) (hk : lo ≤ k)
    (hn : ∀ c ∈ m, c.1 ≠ k) : rising lo (insert k v m) = true := by
  induction m generalizing lo with
  | nil => simpa [insert, rising] using hk
  | cons c m ih =>
    simp only [rising, Bool.and_eq_true, decide_eq_true_eq] at hm
    simp only [insert]
    split
    · next h =>
      simp only [rising, Bool.and_eq_true, decide_eq_true_eq]
      exact ⟨hk, h, hm.2⟩
    · next h =>
      have : c.1 ≠ k := hn c (by simp)
      simp only [rising, Bool.and_eq_true, decide_eq_true_eq]
      exact ⟨hm.1, ih hm.2 (by omega) (fun c hc => hn c (by simp [hc]))⟩

theorem mem_insert {k : Nat} {v : α} {m : List (Nat × α)} {c : Nat × α} (h : c ∈ insert k v m) : c = (k, v) ∨ c ∈ m := by
  induction m with
  | nil => simpa [insert] using h
  | cons c' m ih =>
    simp only [insert] at h
    split at h
    · simpa using h
    · rcases List.mem_cons.1 h with h | h
      · exact .inr (by simp [h])
      · rcases ih h with h | h
        · exact .inl h
        · exact .inr (by simp [h])

/-- What a key reads as is what an entry lists, or the default. -/
theorem get_mem_or_default (d : Nat → α) (k : Nat) (m : List (Nat × α)) : (k, get d k m) ∈ m ∨ get d k m = d k := by
  induction m with
  | nil => exact .inr rfl
  | cons c m ih =>
    by_cases h : c.1 = k
    · left
      subst h
      simp [get]
    · rcases ih with ih | ih
      · left; simp [get, h, ih]
      · right; simp [get, h, ih]

theorem get_of_rising (d : Nat → α) {lo k : Nat} (hk : k < lo) {m : List (Nat × α)} (hm : rising lo m = true) :
    get d k m = d k := by
  induction m generalizing lo with
  | nil => rfl
  | cons c m ih =>
    simp only [rising, Bool.and_eq_true, decide_eq_true_eq] at hm
    have : c.1 ≠ k := by omega
    simp [get, this, ih (lo := c.1 + 1) (by omega) hm.2]

theorem ext_rising (d : Nat → α) {lo : Nat} {m n : List (Nat × α)} (hm : rising lo m = true) (hn : rising lo n = true)
    (vm : ∀ c ∈ m, c.2 ≠ d c.1) (vn : ∀ c ∈ n, c.2 ≠ d c.1) (h : ∀ k, get d k m = get d k n) : m = n := by
  induction m generalizing lo n with
  | nil =>
    cases n with
    | nil => rfl
    | cons c n => exact absurd (by simpa [get] using (h c.1).symm) (vn c (by simp))
  | cons c m ih =>
    cases n with
    | nil => exact absurd (by simpa [get] using h c.1) (vm c (by simp))
    | cons e n =>
      simp only [rising, Bool.and_eq_true, decide_eq_true_eq] at hm hn
      have key : c.1 = e.1 := by
        rcases Nat.lt_trichotomy c.1 e.1 with hlt | heq | hgt
        · exfalso
          have := h c.1
          have he : e.1 ≠ c.1 := by omega
          simp only [get, if_true, he, if_false] at this
          rw [get_of_rising d (by omega : c.1 < e.1 + 1) hn.2] at this
          exact vm c (by simp) this
        · exact heq
        · exfalso
          have := h e.1
          have he : c.1 ≠ e.1 := by omega
          simp only [get, if_true, he, if_false] at this
          rw [get_of_rising d (by omega : e.1 < c.1 + 1) hm.2] at this
          exact vn e (by simp) this.symm
      have val : c.2 = e.2 := by simpa [get, key] using h c.1
      have hce : c = e := Prod.ext key val
      subst hce
      refine congrArg _ (ih (lo := c.1 + 1) hm.2 hn.2 (fun x hx => vm x (by simp [hx])) (fun x hx => vn x (by simp [hx])) ?_)
      intro k
      by_cases hk : c.1 = k
      · subst hk
        rw [get_of_rising d (Nat.lt_succ_self _) hm.2, get_of_rising d (Nat.lt_succ_self _) hn.2]
      · simpa [get, hk] using h k

variable [DecidableEq α]

/-- A read of the key written gives the value written. -/
@[simp] theorem get_put_same (d : Nat → α) (k : Nat) (v : α) (m : List (Nat × α)) : get d k (put d k v m) = v := by
  unfold put
  split
  · next h => rw [get_erase_same, h]
  · exact get_insert_same d k v _ (fun _ => mem_erase_ne)

/-- A write leaves every other key alone. -/
theorem get_put_other (d : Nat → α) {k j : Nat} (hj : j ≠ k) (v : α) (m : List (Nat × α)) :
    get d j (put d k v m) = get d j m := by
  unfold put
  split
  · exact get_erase_other d hj m
  · rw [get_insert_other d hj, get_erase_other d hj]

theorem get_put (d : Nat → α) (k j : Nat) (v : α) (m : List (Nat × α)) :
    get d j (put d k v m) = if j = k then v else get d j m := by
  split
  · next h => rw [h, get_put_same]
  · next h => exact get_put_other d h v m

/-- An entry after a write is the one written or an old one of another key. -/
theorem mem_put {d : Nat → α} {k : Nat} {v : α} {m : List (Nat × α)} {c : Nat × α} (h : c ∈ put d k v m) :
    c = (k, v) ∧ v ≠ d k ∨ c ∈ m ∧ c.1 ≠ k := by
  unfold put at h
  split at h
  · exact .inr ⟨(List.mem_filter.1 h).1, mem_erase_ne h⟩
  · next hv =>
    rcases mem_insert h with h | h
    · exact .inl ⟨h, hv⟩
    · exact .inr ⟨(List.mem_filter.1 h).1, mem_erase_ne h⟩

/-- A write keeps the canonical form. -/
theorem wf_put (d : Nat → α) (k : Nat) (v : α) {m : List (Nat × α)} (hm : wf d m = true) : wf d (put d k v m) = true := by
  simp only [wf, Bool.and_eq_true, List.all_eq_true, bne_iff_ne] at hm ⊢
  refine ⟨?_, fun c hc => ?_⟩
  · unfold put
    split
    · exact rising_erase k hm.1
    · exact rising_insert v (rising_erase k hm.1) (Nat.zero_le k) (fun _ => mem_erase_ne)
  · rcases mem_put hc with ⟨rfl, h⟩ | ⟨h, -⟩
    · exact h
    · exact hm.2 c h

@[simp] theorem wf_nil (d : Nat → α) : wf d [] = true := rfl

/-- Two canonical lists with the same contents are the same list. -/
theorem ext_of_wf (d : Nat → α) {m n : List (Nat × α)} (hm : wf d m = true) (hn : wf d n = true)
    (h : ∀ k, get d k m = get d k n) : m = n := by
  simp only [wf, Bool.and_eq_true, List.all_eq_true, bne_iff_ne] at hm hn
  exact ext_rising d hm.1 hn.1 hm.2 hn.2 h

end Sys2Proof.Machine.Sparse
end

