-- ==== Sys2Proof/Laws/State.lean ====
section
/-! SUPPORT. One lemma per field per named update of State, and what a hart, a slot and a RAM byte read after each update. -/

namespace Sys2Proof.Machine

open Sys2Proof.Config

variable (s : State)

@[simp] theorem emit_params (e : Event) : (s.emit e).params = s.params := rfl
@[simp] theorem emit_harts (e : Event) : (s.emit e).harts = s.harts := rfl
@[simp] theorem emit_ram (e : Event) : (s.emit e).ram = s.ram := rfl
@[simp] theorem emit_history (e : Event) : (s.emit e).history = s.history ++ [e] := rfl
@[simp] theorem emit_returned (e : Event) : (s.emit e).returned = s.returned := rfl
@[simp] theorem emit_failed (e : Event) : (s.emit e).failed = s.failed := rfl
@[simp] theorem emit_freed (e : Event) : (s.emit e).freed = s.freed := rfl
@[simp] theorem emit_cur (e : Event) : (s.emit e).cur = s.cur := rfl
@[simp] theorem emit_pending (e : Event) : (s.emit e).pending = s.pending := rfl
@[simp] theorem emit_running (e : Event) : (s.emit e).running = s.running := rfl
@[simp] theorem emit_env (e : Event) : (s.emit e).env = s.env := rfl

@[simp] theorem give_params (v : Value) : (s.give v).params = s.params := rfl
@[simp] theorem give_harts (v : Value) : (s.give v).harts = s.harts := rfl
@[simp] theorem give_ram (v : Value) : (s.give v).ram = s.ram := rfl
@[simp] theorem give_history (v : Value) : (s.give v).history = s.history := rfl
@[simp] theorem give_returned (v : Value) : (s.give v).returned = s.returned ++ [{ hart := s.cur, value := v }] := rfl
@[simp] theorem give_failed (v : Value) : (s.give v).failed = s.failed := rfl
@[simp] theorem give_freed (v : Value) : (s.give v).freed = s.freed := rfl
@[simp] theorem give_cur (v : Value) : (s.give v).cur = s.cur := rfl
@[simp] theorem give_pending (v : Value) : (s.give v).pending = s.pending := rfl
@[simp] theorem give_running (v : Value) : (s.give v).running = s.running := rfl
@[simp] theorem give_env (v : Value) : (s.give v).env = s.env := rfl

@[simp] theorem setHart_params (h : Nat) (v : Hart) : (s.setHart h v).params = s.params := rfl
@[simp] theorem setHart_harts (h : Nat) (v : Hart) : (s.setHart h v).harts = Sparse.put (resetHart s.params) h v s.harts := rfl
@[simp] theorem setHart_ram (h : Nat) (v : Hart) : (s.setHart h v).ram = s.ram := rfl
@[simp] theorem setHart_history (h : Nat) (v : Hart) : (s.setHart h v).history = s.history := rfl
@[simp] theorem setHart_returned (h : Nat) (v : Hart) : (s.setHart h v).returned = s.returned := rfl
@[simp] theorem setHart_failed (h : Nat) (v : Hart) : (s.setHart h v).failed = s.failed := rfl
@[simp] theorem setHart_freed (h : Nat) (v : Hart) : (s.setHart h v).freed = s.freed := rfl
@[simp] theorem setHart_cur (h : Nat) (v : Hart) : (s.setHart h v).cur = s.cur := rfl
@[simp] theorem setHart_pending (h : Nat) (v : Hart) : (s.setHart h v).pending = s.pending := rfl
@[simp] theorem setHart_running (h : Nat) (v : Hart) : (s.setHart h v).running = s.running := rfl
@[simp] theorem setHart_env (h : Nat) (v : Hart) : (s.setHart h v).env = s.env := rfl

@[simp] theorem setRamByte_params (o : Nat) (b : Byte) : (s.setRamByte o b).params = s.params := rfl
@[simp] theorem setRamByte_harts (o : Nat) (b : Byte) : (s.setRamByte o b).harts = s.harts := rfl
@[simp] theorem setRamByte_ram (o : Nat) (b : Byte) : (s.setRamByte o b).ram = { s.ram with data := Sparse.put zeroByte o b s.ram.data } := rfl
@[simp] theorem setRamByte_history (o : Nat) (b : Byte) : (s.setRamByte o b).history = s.history := rfl
@[simp] theorem setRamByte_returned (o : Nat) (b : Byte) : (s.setRamByte o b).returned = s.returned := rfl
@[simp] theorem setRamByte_failed (o : Nat) (b : Byte) : (s.setRamByte o b).failed = s.failed := rfl
@[simp] theorem setRamByte_freed (o : Nat) (b : Byte) : (s.setRamByte o b).freed = s.freed := rfl
@[simp] theorem setRamByte_cur (o : Nat) (b : Byte) : (s.setRamByte o b).cur = s.cur := rfl
@[simp] theorem setRamByte_pending (o : Nat) (b : Byte) : (s.setRamByte o b).pending = s.pending := rfl
@[simp] theorem setRamByte_running (o : Nat) (b : Byte) : (s.setRamByte o b).running = s.running := rfl
@[simp] theorem setRamByte_env (o : Nat) (b : Byte) : (s.setRamByte o b).env = s.env := rfl

@[simp] theorem setSlot_params (i : Nat) (e : Slot) : (s.setSlot i e).params = s.params := rfl
@[simp] theorem setSlot_ram (i : Nat) (e : Slot) : (s.setSlot i e).ram = s.ram := rfl
@[simp] theorem setSlot_history (i : Nat) (e : Slot) : (s.setSlot i e).history = s.history := rfl
@[simp] theorem setSlot_returned (i : Nat) (e : Slot) : (s.setSlot i e).returned = s.returned := rfl
@[simp] theorem setSlot_failed (i : Nat) (e : Slot) : (s.setSlot i e).failed = s.failed := rfl
@[simp] theorem setSlot_freed (i : Nat) (e : Slot) : (s.setSlot i e).freed = s.freed := rfl
@[simp] theorem setSlot_cur (i : Nat) (e : Slot) : (s.setSlot i e).cur = s.cur := rfl
@[simp] theorem setSlot_pending (i : Nat) (e : Slot) : (s.setSlot i e).pending = s.pending := rfl
@[simp] theorem setSlot_running (i : Nat) (e : Slot) : (s.setSlot i e).running = s.running := rfl
@[simp] theorem setSlot_env (i : Nat) (e : Slot) : (s.setSlot i e).env = s.env := rfl

@[simp] theorem setCtx_params (c : Ctx) : (s.setCtx c).params = s.params := rfl
@[simp] theorem setCtx_ram (c : Ctx) : (s.setCtx c).ram = s.ram := rfl
@[simp] theorem setCtx_history (c : Ctx) : (s.setCtx c).history = s.history := rfl
@[simp] theorem setCtx_returned (c : Ctx) : (s.setCtx c).returned = s.returned := rfl
@[simp] theorem setCtx_failed (c : Ctx) : (s.setCtx c).failed = s.failed := rfl
@[simp] theorem setCtx_freed (c : Ctx) : (s.setCtx c).freed = s.freed := rfl
@[simp] theorem setCtx_cur (c : Ctx) : (s.setCtx c).cur = s.cur := rfl
@[simp] theorem setCtx_pending (c : Ctx) : (s.setCtx c).pending = s.pending := rfl
@[simp] theorem setCtx_running (c : Ctx) : (s.setCtx c).running = s.running := rfl
@[simp] theorem setCtx_env (c : Ctx) : (s.setCtx c).env = s.env := rfl

@[simp] theorem tlbFlush_params : (Machine.tlbFlush s).params = s.params := rfl
@[simp] theorem tlbFlush_ram : (Machine.tlbFlush s).ram = s.ram := rfl
@[simp] theorem tlbFlush_history : (Machine.tlbFlush s).history = s.history := rfl
@[simp] theorem tlbFlush_returned : (Machine.tlbFlush s).returned = s.returned := rfl
@[simp] theorem tlbFlush_failed : (Machine.tlbFlush s).failed = s.failed := rfl
@[simp] theorem tlbFlush_freed : (Machine.tlbFlush s).freed = s.freed := rfl
@[simp] theorem tlbFlush_cur : (Machine.tlbFlush s).cur = s.cur := rfl
@[simp] theorem tlbFlush_pending : (Machine.tlbFlush s).pending = s.pending := rfl
@[simp] theorem tlbFlush_running : (Machine.tlbFlush s).running = s.running := rfl
@[simp] theorem tlbFlush_env : (Machine.tlbFlush s).env = s.env := rfl

@[simp] theorem tlbFlushPage_params (vpn : Word) : (Machine.tlbFlushPage vpn s).params = s.params := rfl
@[simp] theorem tlbFlushPage_ram (vpn : Word) : (Machine.tlbFlushPage vpn s).ram = s.ram := rfl
@[simp] theorem tlbFlushPage_history (vpn : Word) : (Machine.tlbFlushPage vpn s).history = s.history := rfl
@[simp] theorem tlbFlushPage_returned (vpn : Word) : (Machine.tlbFlushPage vpn s).returned = s.returned := rfl
@[simp] theorem tlbFlushPage_failed (vpn : Word) : (Machine.tlbFlushPage vpn s).failed = s.failed := rfl
@[simp] theorem tlbFlushPage_freed (vpn : Word) : (Machine.tlbFlushPage vpn s).freed = s.freed := rfl
@[simp] theorem tlbFlushPage_cur (vpn : Word) : (Machine.tlbFlushPage vpn s).cur = s.cur := rfl
@[simp] theorem tlbFlushPage_pending (vpn : Word) : (Machine.tlbFlushPage vpn s).pending = s.pending := rfl
@[simp] theorem tlbFlushPage_running (vpn : Word) : (Machine.tlbFlushPage vpn s).running = s.running := rfl
@[simp] theorem tlbFlushPage_env (vpn : Word) : (Machine.tlbFlushPage vpn s).env = s.env := rfl

@[simp] theorem tlbFill_params (op : Op) (vpn bias : Word) : (Machine.tlbFill op vpn bias s).params = s.params := rfl
@[simp] theorem tlbFill_ram (op : Op) (vpn bias : Word) : (Machine.tlbFill op vpn bias s).ram = s.ram := rfl
@[simp] theorem tlbFill_history (op : Op) (vpn bias : Word) : (Machine.tlbFill op vpn bias s).history = s.history := rfl
@[simp] theorem tlbFill_returned (op : Op) (vpn bias : Word) : (Machine.tlbFill op vpn bias s).returned = s.returned := rfl
@[simp] theorem tlbFill_failed (op : Op) (vpn bias : Word) : (Machine.tlbFill op vpn bias s).failed = s.failed := rfl
@[simp] theorem tlbFill_freed (op : Op) (vpn bias : Word) : (Machine.tlbFill op vpn bias s).freed = s.freed := rfl
@[simp] theorem tlbFill_cur (op : Op) (vpn bias : Word) : (Machine.tlbFill op vpn bias s).cur = s.cur := rfl
@[simp] theorem tlbFill_pending (op : Op) (vpn bias : Word) : (Machine.tlbFill op vpn bias s).pending = s.pending := rfl
@[simp] theorem tlbFill_running (op : Op) (vpn bias : Word) : (Machine.tlbFill op vpn bias s).running = s.running := rfl
@[simp] theorem tlbFill_env (op : Op) (vpn bias : Word) : (Machine.tlbFill op vpn bias s).env = s.env := rfl

@[simp] theorem take_params (r : Request) (rest : List Request) : (s.take r rest).params = s.params := rfl
@[simp] theorem take_harts (r : Request) (rest : List Request) : (s.take r rest).harts = s.harts := rfl
@[simp] theorem take_ram (r : Request) (rest : List Request) : (s.take r rest).ram = s.ram := rfl
@[simp] theorem take_history (r : Request) (rest : List Request) : (s.take r rest).history = s.history := rfl
@[simp] theorem take_returned (r : Request) (rest : List Request) : (s.take r rest).returned = s.returned := rfl
@[simp] theorem take_failed (r : Request) (rest : List Request) : (s.take r rest).failed = s.failed := rfl
@[simp] theorem take_freed (r : Request) (rest : List Request) : (s.take r rest).freed = s.freed := rfl
@[simp] theorem take_cur (r : Request) (rest : List Request) : (s.take r rest).cur = r.hart := rfl
@[simp] theorem take_pending (r : Request) (rest : List Request) : (s.take r rest).pending = rest := rfl
@[simp] theorem take_running (r : Request) (rest : List Request) : (s.take r rest).running = s.running := rfl
@[simp] theorem take_env (r : Request) (rest : List Request) : (s.take r rest).env = s.env := rfl

@[simp] theorem as_params (h : Nat) : (s.as h).params = s.params := rfl
@[simp] theorem as_harts (h : Nat) : (s.as h).harts = s.harts := rfl
@[simp] theorem as_ram (h : Nat) : (s.as h).ram = s.ram := rfl
@[simp] theorem as_history (h : Nat) : (s.as h).history = s.history := rfl
@[simp] theorem as_returned (h : Nat) : (s.as h).returned = s.returned := rfl
@[simp] theorem as_failed (h : Nat) : (s.as h).failed = s.failed := rfl
@[simp] theorem as_freed (h : Nat) : (s.as h).freed = s.freed := rfl
@[simp] theorem as_cur (h : Nat) : (s.as h).cur = h := rfl
@[simp] theorem as_pending (h : Nat) : (s.as h).pending = s.pending := rfl
@[simp] theorem as_running (h : Nat) : (s.as h).running = s.running := rfl
@[simp] theorem as_env (h : Nat) : (s.as h).env = s.env := rfl

@[simp] theorem dropRunning_params (h : Nat) : (s.dropRunning h).params = s.params := rfl
@[simp] theorem dropRunning_harts (h : Nat) : (s.dropRunning h).harts = s.harts := rfl
@[simp] theorem dropRunning_ram (h : Nat) : (s.dropRunning h).ram = s.ram := rfl
@[simp] theorem dropRunning_history (h : Nat) : (s.dropRunning h).history = s.history := rfl
@[simp] theorem dropRunning_returned (h : Nat) : (s.dropRunning h).returned = s.returned := rfl
@[simp] theorem dropRunning_failed (h : Nat) : (s.dropRunning h).failed = s.failed := rfl
@[simp] theorem dropRunning_freed (h : Nat) : (s.dropRunning h).freed = s.freed := rfl
@[simp] theorem dropRunning_cur (h : Nat) : (s.dropRunning h).cur = s.cur := rfl
@[simp] theorem dropRunning_pending (h : Nat) : (s.dropRunning h).pending = s.pending := rfl
@[simp] theorem dropRunning_running (h : Nat) : (s.dropRunning h).running = s.running.filter (fun c => c.hart != h) := rfl
@[simp] theorem dropRunning_env (h : Nat) : (s.dropRunning h).env = s.env := rfl

@[simp] theorem putRunning_params (c : Running) : (s.putRunning c).params = s.params := rfl
@[simp] theorem putRunning_harts (c : Running) : (s.putRunning c).harts = s.harts := rfl
@[simp] theorem putRunning_ram (c : Running) : (s.putRunning c).ram = s.ram := rfl
@[simp] theorem putRunning_history (c : Running) : (s.putRunning c).history = s.history := rfl
@[simp] theorem putRunning_returned (c : Running) : (s.putRunning c).returned = s.returned := rfl
@[simp] theorem putRunning_failed (c : Running) : (s.putRunning c).failed = s.failed := rfl
@[simp] theorem putRunning_freed (c : Running) : (s.putRunning c).freed = s.freed := rfl
@[simp] theorem putRunning_cur (c : Running) : (s.putRunning c).cur = s.cur := rfl
@[simp] theorem putRunning_pending (c : Running) : (s.putRunning c).pending = s.pending := rfl
@[simp] theorem putRunning_running (c : Running) : (s.putRunning c).running = s.running.filter (fun d => d.hart != c.hart) ++ [c] := rfl
@[simp] theorem putRunning_env (c : Running) : (s.putRunning c).env = s.env := rfl

/-! ### Harts, slots and bytes -/

theorem hart_congr {s t : State} (hp : t.params = s.params) (hh : t.harts = s.harts) : t.hart = s.hart := by
  funext h; simp [State.hart, hp, hh]

@[simp] theorem emit_hart (e : Event) (h : Nat) : (s.emit e).hart h = s.hart h := rfl
@[simp] theorem give_hart (v : Value) (h : Nat) : (s.give v).hart h = s.hart h := rfl
@[simp] theorem setRamByte_hart (o : Nat) (b : Byte) (h : Nat) : (s.setRamByte o b).hart h = s.hart h := rfl
@[simp] theorem take_hart (r : Request) (rest : List Request) (h : Nat) : (s.take r rest).hart h = s.hart h := rfl

@[simp] theorem as_hart (h k : Nat) : (s.as h).hart k = s.hart k := rfl
@[simp] theorem as_ctx (h : Nat) : (s.as h).ctx = (s.hart h).ctx := rfl
@[simp] theorem as_slot (h k i : Nat) : (s.as h).slot k i = s.slot k i := rfl
@[simp] theorem as_ramByte (h o : Nat) : (s.as h).ramByte o = s.ramByte o := rfl
@[simp] theorem as_as (h k : Nat) : (s.as h).as k = s.as k := rfl
@[simp] theorem as_cur_self : s.as s.cur = s := rfl
@[simp] theorem dropRunning_hart (h k : Nat) : (s.dropRunning h).hart k = s.hart k := rfl
@[simp] theorem dropRunning_ramByte (h o : Nat) : (s.dropRunning h).ramByte o = s.ramByte o := rfl
@[simp] theorem putRunning_hart (c : Running) (k : Nat) : (s.putRunning c).hart k = s.hart k := rfl
@[simp] theorem putRunning_ramByte (c : Running) (o : Nat) : (s.putRunning c).ramByte o = s.ramByte o := rfl

@[simp] theorem emit_ctx (e : Event) : (s.emit e).ctx = s.ctx := rfl
@[simp] theorem setRamByte_ctx (o : Nat) (b : Byte) : (s.setRamByte o b).ctx = s.ctx := rfl
@[simp] theorem emit_slot (e : Event) (h i : Nat) : (s.emit e).slot h i = s.slot h i := rfl
@[simp] theorem give_slot (v : Value) (h i : Nat) : (s.give v).slot h i = s.slot h i := rfl
@[simp] theorem setRamByte_slot (o : Nat) (b : Byte) (h i : Nat) : (s.setRamByte o b).slot h i = s.slot h i := rfl

@[simp] theorem emit_ramByte (e : Event) (o : Nat) : (s.emit e).ramByte o = s.ramByte o := rfl
@[simp] theorem give_ramByte (v : Value) (o : Nat) : (s.give v).ramByte o = s.ramByte o := rfl
@[simp] theorem setHart_ramByte (h : Nat) (v : Hart) (o : Nat) : (s.setHart h v).ramByte o = s.ramByte o := rfl
@[simp] theorem setSlot_ramByte (i : Nat) (e : Slot) (o : Nat) : (s.setSlot i e).ramByte o = s.ramByte o := rfl
@[simp] theorem tlbFill_ramByte (op : Op) (vpn bias : Word) (o : Nat) :
    (Machine.tlbFill op vpn bias s).ramByte o = s.ramByte o := rfl

/-- A RAM byte after a RAM write. -/
theorem setRamByte_ramByte (o : Nat) (b : Byte) (j : Nat) :
    (s.setRamByte o b).ramByte j = if j = o then b else s.ramByte j := by
  simp [State.ramByte, Sparse.get_put]

/-- A hart after a write of a hart. -/
theorem setHart_hart (h : Nat) (v : Hart) (j : Nat) : (s.setHart h v).hart j = if j = h then v else s.hart j := by
  simp [State.hart, Sparse.get_put]

@[simp] theorem setHart_hart_same (h : Nat) (v : Hart) : (s.setHart h v).hart h = v := by simp [setHart_hart]

theorem setHart_hart_other {h j : Nat} (hj : j ≠ h) (v : Hart) : (s.setHart h v).hart j = s.hart j := by
  simp [setHart_hart, hj]

/-- A hart after a write of a slot: only the running hart's TLB changes. -/
theorem setSlot_hart (i : Nat) (e : Slot) (h : Nat) :
    (s.setSlot i e).hart h =
      if h = s.cur then { s.hart s.cur with tlb := Sparse.put (flushedSlot s.params) i e (s.hart s.cur).tlb }
      else s.hart h := setHart_hart s s.cur _ h

@[simp] theorem setSlot_hart_ctx (i : Nat) (e : Slot) (h : Nat) : ((s.setSlot i e).hart h).ctx = (s.hart h).ctx := by
  rw [setSlot_hart]; split
  · next hh => rw [hh]
  · rfl

@[simp] theorem setSlot_ctx (i : Nat) (e : Slot) : (s.setSlot i e).ctx = s.ctx := setSlot_hart_ctx s i e s.cur

/-- A slot after a write of a slot. -/
theorem setSlot_slot (i : Nat) (e : Slot) (h j : Nat) :
    (s.setSlot i e).slot h j = if h = s.cur ∧ j = i then e else s.slot h j := by
  simp only [State.slot, setSlot_hart, setSlot_params]
  by_cases hh : h = s.cur
  · subst hh; simp [Sparse.get_put]
  · simp [hh]

@[simp] theorem tlbFill_ctx (op : Op) (vpn bias : Word) : (Machine.tlbFill op vpn bias s).ctx = s.ctx := setSlot_ctx s _ _

@[simp] theorem tlbFill_hart_ctx (op : Op) (vpn bias : Word) (h : Nat) :
    ((Machine.tlbFill op vpn bias s).hart h).ctx = (s.hart h).ctx := setSlot_hart_ctx s _ _ h

/-- The slots after a fill. -/
theorem tlbFill_slot (op : Op) (vpn bias : Word) (h j : Nat) :
    (Machine.tlbFill op vpn bias s).slot h j =
      if h = s.cur ∧ j = slotIndex s.params vpn then filledSlot op vpn bias (s.slotFor vpn) else s.slot h j :=
  setSlot_slot s _ _ h j

/-- The slots after a page flush. -/
theorem tlbFlushPage_slot (vpn : Word) (h j : Nat) :
    (Machine.tlbFlushPage vpn s).slot h j =
      if h = s.cur ∧ j = slotIndex s.params vpn then flushedPageSlot vpn (s.slotFor vpn) else s.slot h j :=
  setSlot_slot s _ _ h j

/-- The harts after a flush: only the running hart's TLB changes. -/
theorem tlbFlush_hart (h : Nat) :
    (Machine.tlbFlush s).hart h = if h = s.cur then { s.hart s.cur with tlb := [] } else s.hart h :=
  setHart_hart s _ _ h

@[simp] theorem tlbFlush_hart_ctx (h : Nat) : ((Machine.tlbFlush s).hart h).ctx = (s.hart h).ctx := by
  rw [tlbFlush_hart]; split
  · next hh => rw [hh]
  · rfl

/-- The slots after a flush. -/
theorem tlbFlush_slot (h j : Nat) :
    (Machine.tlbFlush s).slot h j = if h = s.cur then flushedSlot s.params j else s.slot h j := by
  simp only [State.slot, tlbFlush_hart, tlbFlush_params]
  split <;> simp [Sparse.get]

/-- The harts after a context write. -/
theorem setCtx_hart (c : Ctx) (h : Nat) :
    (s.setCtx c).hart h = if h = s.cur then { s.hart s.cur with ctx := c } else s.hart h :=
  setHart_hart s _ _ h

@[simp] theorem setCtx_ctx (c : Ctx) : (s.setCtx c).ctx = c := by
  simp [State.ctx, setCtx_hart]

/-- A context write leaves every slot. -/
@[simp] theorem setCtx_slot (c : Ctx) (h j : Nat) : (s.setCtx c).slot h j = s.slot h j := by
  simp only [State.slot, setCtx_hart, setCtx_params]
  split
  · next hh => rw [hh]
  · rfl

/-! ### Sequencing -/

variable {σ α β : Type}

@[simp] theorem RunOf.done_bind (a : α) (s : σ) (f : α → σ → RunOf σ β) : (RunOf.done a s).bind f = f a s := rfl
@[simp] theorem RunOf.fault_bind (e : Fault) (f : α → σ → RunOf σ β) : (RunOf.fault e : RunOf σ α).bind f = .fault e := rfl
@[simp] theorem RunOf.refused_bind (e : Refusal) (f : α → σ → RunOf σ β) :
    (RunOf.refused e : RunOf σ α).bind f = .refused e := rfl

/-- A sequence that ends has passed through a value and a state. -/
theorem RunOf.bind_eq_done {r : RunOf σ α} {f : α → σ → RunOf σ β} {b : β} {t : σ} (h : r.bind f = .done b t) :
    ∃ a s, r = .done a s ∧ f a s = .done b t := by
  cases r with
  | done a s => exact ⟨a, s, rfl, h⟩
  | fault e => cases h
  | refused e => cases h

@[simp] theorem finish_done (v : Value) (s : State) : finish (.done v s) = .next (s.give v) := rfl

/-- A command that answers a next state has returned a value. -/
theorem finish_eq_next {r : Run Value} {t : State} (h : finish r = .next t) : ∃ v s, r = .done v s ∧ t = s.give v := by
  cases r with
  | done v s => exact ⟨v, s, rfl, by simpa [finish] using h.symm⟩
  | fault e => cases h
  | refused e => cases h

end Sys2Proof.Machine
end

