-- ==== Sys2Proof/Laws/Ops.lean ====
section
/-! SUPPORT. RAM bytes: what a write of RAM changes, that it keeps RAM's canonical form and bounds, and what is read after it. -/

namespace Sys2Proof.Machine

open Sys2Proof.Config

/-- RAM's contents are canonical and inside the region. -/
def DataOk (r : Ram) : Prop := Memory.wf r.data = true ∧ ∀ c ∈ r.data, c.1 < r.size.toNat

theorem DataOk.put {r : Ram} (h : DataOk r) {o : Nat} (ho : o < r.size.toNat) (b : Byte) :
    DataOk { r with data := Sparse.put zeroByte o b r.data } := by
  refine ⟨Sparse.wf_put _ _ _ h.1, fun c hc => ?_⟩
  rcases Sparse.mem_put hc with ⟨rfl, -⟩ | ⟨hc, -⟩
  · exact ho
  · exact h.2 c hc

/-- A legal RAM is absent, or a region RAM.INIT accepts (10_state.md R29). -/
def RegionOk (r : Ram) : Prop := r.present = true → ramRegionOk r.begin r.size = true

theorem regionOk_of_legal {s : State} (h : ramLegal s = true) : RegionOk s.ram := by
  intro hp
  simp only [ramLegal, hp, if_true, Bool.and_eq_true] at h
  exact h.1.1.1

theorem dataOk_of_legal {s : State} (h : ramLegal s = true) : DataOk s.ram := by
  simp only [ramLegal, Bool.and_eq_true, List.all_eq_true, decide_eq_true_eq] at h
  exact ⟨h.1.2, h.2⟩

theorem holds_iff (r : Ram) (o n : Nat) : r.holds o n = true ↔ r.present = true ∧ o + n ≤ r.size.toNat := by
  simp [Ram.holds]

/-- `t` is `s` but for RAM bytes at the offsets P. -/
structure Stored (s t : State) (P : Nat → Prop) : Prop where
  same  : t = { s with ram := { s.ram with data := t.ram.data } }
  bytes : ∀ o, t.ramByte o ≠ s.ramByte o → P o
  data  : (∀ o, P o → o < s.ram.size.toNat) → DataOk s.ram → DataOk t.ram

theorem Stored.refl (s : State) (P : Nat → Prop) : Stored s s P := ⟨rfl, fun _ h => absurd rfl h, fun _ h => h⟩

theorem Stored.trans {s t u : State} {P : Nat → Prop} (a : Stored s t P) (b : Stored t u P) : Stored s u P where
  same := by
    have := b.same
    rw [a.same] at this
    exact this
  bytes o h := by
    by_cases e : u.ramByte o = t.ramByte o
    · exact a.bytes o (e ▸ h)
    · exact b.bytes o e
  data hP h := b.data (by rw [a.same]; exact hP) (a.data hP h)

theorem Stored.mono {s t : State} {P Q : Nat → Prop} (a : Stored s t P) (h : ∀ o, P o → Q o) : Stored s t Q :=
  ⟨a.same, fun o ho => h o (a.bytes o ho), fun hQ => a.data fun o ho => hQ o (h o ho)⟩

theorem setRamByte_stored (s : State) (o : Nat) (b : Byte) : Stored s (s.setRamByte o b) (· = o) where
  same := rfl
  bytes j h := by
    rw [setRamByte_ramByte] at h
    by_contra hj
    simp [hj] at h
  data ho h := h.put (ho o rfl) b

theorem setBytes_stored (o : Nat) (bs : List Byte) (s : State) :
    Stored s (s.setBytes o bs) (fun j => o ≤ j ∧ j < o + bs.length) := by
  induction bs generalizing o s with
  | nil => exact Stored.refl s _
  | cons b bs ih =>
    refine ((setRamByte_stored s o b).mono ?_).trans ((ih (o + 1) _).mono ?_)
    · intro j hj; subst hj; simp
    · intro j hj; simp only [List.length_cons]; omega

theorem foreignWrite_stored (s : State) (o : Nat) (b : Byte) :
    Stored s (s.foreignWrite o b) (fun j => j = o ∧ j < s.ram.size.toNat) := by
  unfold State.foreignWrite
  split
  · next h =>
    have : o < s.ram.size.toNat := by rw [holds_iff] at h; omega
    exact (setRamByte_stored s o b).mono fun j hj => ⟨hj, hj ▸ this⟩
  · exact Stored.refl s _

@[simp] theorem leBytes_length (n : Nat) (v : Word) : (leBytes n v).length = n := by
  induction n generalizing v with
  | zero => rfl
  | succ n ih => simp [leBytes, ih]

/-- A compare-and-swap writes its bytes if it succeeds, and nothing if it fails (20_memory.md R59). -/
theorem casWord_stored (o n : Nat) (expected desired : Word) (s : State) :
    Stored s (casWord o n expected desired s).2
      (fun j => (casWord o n expected desired s).1 = true ∧ o ≤ j ∧ j < o + n) := by
  unfold casWord
  by_cases h : (leWord (s.bytesAt o n) == expected) = true
  · simp only [h, if_true]
    exact (setBytes_stored o _ s).mono fun j hj => ⟨trivial, by simpa using hj⟩
  · simp only [h]
    exact Stored.refl s _

@[simp] theorem bytesAt_length (s : State) (o n : Nat) : (s.bytesAt o n).length = n := by
  induction n generalizing o with
  | zero => rfl
  | succ n ih => simp [State.bytesAt, ih]

@[simp] theorem answerBytes_length (a : DevAnswer) (n : Nat) : (answerBytes a n).length = n := by simp [answerBytes]

/-- A draw changes nothing but the draws to come. -/
theorem deviceDraw_same (call : DevCall) (s : State) :
    (deviceDraw call s).2 = { s with env := (deviceDraw call s).2.env } ∧
      (deviceDraw call s).2.env.others = s.env.others := by
  unfold deviceDraw
  split <;> exact ⟨rfl, rfl⟩

/-! ### Views -/

@[simp] theorem emit_view (s : State) (e : Event) : (s.emit e).view = s.view := rfl
@[simp] theorem give_view (s : State) (v : Value) : (s.give v).view = s.view := rfl
@[simp] theorem setRamByte_view (s : State) (o : Nat) (b : Byte) : (s.setRamByte o b).view = s.view := rfl
@[simp] theorem dropRunning_view (s : State) (h : Nat) : (s.dropRunning h).view = s.view := rfl
@[simp] theorem putRunning_view (s : State) (c : Running) : (s.putRunning c).view = s.view := rfl
@[simp] theorem tlbFill_view (s : State) (op : Op) (vpn bias : Word) : (tlbFill op vpn bias s).view = s.view := by
  simp [State.view]
@[simp] theorem view_hart (s : State) : s.view.hart = s.cur := rfl
@[simp] theorem view_params (s : State) : s.view.params = s.params := rfl
@[simp] theorem view_ctx (s : State) : s.view.ctx = s.ctx := rfl

/-- The RAM region of a view is the state's. -/
theorem view_holds (s : State) (o n : Nat) : s.view.ram.holds o n = s.ram.holds o n := rfl

@[simp] theorem view_physToHost (s : State) (p : Word) : physToHost s.view.ram p = physToHost s.ram p := rfl

@[simp] theorem view_storesTo (s : State) (o : Nat) (e : Event) : storesTo s.view.ram o e = storesTo s.ram o e := by
  cases e <;> rfl

@[simp] theorem view_biasSound (s : State) (bias vpn : Word) : biasSound s.view.ram bias vpn = biasSound s.ram bias vpn := rfl

end Sys2Proof.Machine
end

