-- ==== Sys2Proof/Laws/Prog.lean ====
section
/-! SUPPORT. Laws of programs. `p.Sat G Q F E R`: whatever the answers that G allows, every access of p meets Q, every fault F,
every refusal E and every result R. `p.Trace log a`: answered as log says, p ends with a. `Trail v log es K`: the accesses of log emit es, store only
what es tells of, and fill slots of K only. -/

namespace Sys2Proof.Machine

open Sys2Proof.Config

variable {σ α β γ : Type}

/-! ### Sequencing -/

@[simp] theorem Prog.done_bind (a : α) (f : α → Prog β) : (Prog.done a).bind f = f a := rfl
@[simp] theorem Prog.fault_bind (e : Fault) (f : α → Prog β) : (Prog.fault e).bind f = .fault e := rfl
@[simp] theorem Prog.refused_bind (e : Refusal) (f : α → Prog β) : (Prog.refused e).bind f = .refused e := rfl
@[simp] theorem Prog.op_bind (x : Atom) (k : Reply → Prog α) (f : α → Prog β) :
    (Prog.op x k).bind f = .op x fun r => (k r).bind f := rfl
@[simp] theorem Atom.prog_bind (x : Atom) (g : Reply → α) (f : α → Prog β) :
    (Atom.prog x g).bind f = .op x fun r => f (g r) := rfl

theorem Prog.bind_assoc (p : Prog α) (f : α → Prog β) (g : β → Prog γ) :
    (p.bind f).bind g = p.bind fun a => (f a).bind g := by
  induction p with
  | op x k ih => simp only [Prog.op_bind, ih]
  | _ => rfl

/-- Running a sequence is running its parts one after the other. -/
theorem Prog.runOn_bind (answer : Atom → σ → Reply × σ) (p : Prog α) (f : α → Prog β) (s : σ) :
    (p.bind f).runOn answer s = (p.runOn answer s).bind fun a t => (f a).runOn answer t := by
  induction p generalizing s with
  | op x k ih => exact ih _ _
  | _ => rfl

theorem Prog.after_append (l m : List Reply) (p : Prog α) : p.after (l ++ m) = (p.after l).after m := by
  induction l generalizing p with
  | nil => rfl
  | cons r l ih =>
    cases p with
    | op x k => exact ih _
    | _ => cases m <;> rfl

/-! ### What every path of a program meets -/

/-- Whatever the answers that G allows, every access of the program meets Q, every fault F, every refusal E and every result R. -/
def Prog.Sat (G : Atom → Reply → Prop) (Q : Atom → Prop) (F : Fault → Prop) (E : Refusal → Prop) (R : α → Prop) : Prog α → Prop
  | .done a => R a
  | .fault e => F e
  | .refused e => E e
  | .op x k => Q x ∧ ∀ r, G x r → (k r).Sat G Q F E R

variable {G : Atom → Reply → Prop} {Q : Atom → Prop} {F : Fault → Prop} {E : Refusal → Prop} {R : α → Prop} {R' : β → Prop}

theorem Prog.Sat.bind {p : Prog α} {f : α → Prog β} (h : p.Sat G Q F E R) (hf : ∀ a, R a → (f a).Sat G Q F E R') :
    (p.bind f).Sat G Q F E R' := by
  induction p with
  | done a => exact hf a h
  | fault e => exact h
  | refused e => exact h
  | op x k ih => exact ⟨h.1, fun r hr => ih r (h.2 r hr)⟩

theorem Prog.Sat.mono {S : α → Prop} {p : Prog α} (h : p.Sat G Q F E R) (hR : ∀ a, R a → S a) : p.Sat G Q F E S := by
  induction p with
  | done a => exact hR a h
  | fault e => exact h
  | refused e => exact h
  | op x k ih => exact ⟨h.1, fun r hr => ih r (h.2 r hr)⟩

/-- Answers that a program can have had: each one is allowed by G. -/
def Prog.Answered (G : Atom → Reply → Prop) : List Reply → Prog α → Prop
  | [], _ => True
  | r :: l, .op x k => G x r ∧ Prog.Answered G l (k r)
  | _ :: _, .done _ => True
  | _ :: _, .fault _ => True
  | _ :: _, .refused _ => True

/-- What is left of a program after such answers meets what the program meets. -/
theorem Prog.Sat.after {p : Prog α} (h : p.Sat G Q F E R) {l : List Reply} (hl : p.Answered G l) :
    (p.after l).Sat G Q F E R := by
  induction l generalizing p with
  | nil => exact h
  | cons r l ih =>
    cases p with
    | op x k => exact ih (h.2 r hl.1) hl.2
    | _ => exact h

/-! ### Traces -/

/-- Answered as the log says, the program ends with a value. -/
inductive Prog.Trace : Prog α → List (Atom × Reply) → α → Prop
  | done (a : α) : Trace (.done a) [] a
  | op {x : Atom} {k : Reply → Prog α} {r : Reply} {log : List (Atom × Reply)} {a : α} :
      Trace (k r) log a → Trace (.op x k) ((x, r) :: log) a

theorem Prog.Trace.done_inv {a b : α} {log : List (Atom × Reply)} (h : (Prog.done a).Trace log b) : log = [] ∧ a = b := by
  cases h; exact ⟨rfl, rfl⟩

theorem Prog.Trace.op_inv {x : Atom} {k : Reply → Prog α} {log : List (Atom × Reply)} {a : α} (h : (Prog.op x k).Trace log a) :
    ∃ r l, log = (x, r) :: l ∧ (k r).Trace l a := by
  cases h with
  | op h => exact ⟨_, _, rfl, h⟩

/-- An access, then the rest. -/
theorem Prog.Trace.prog_inv {x : Atom} {g : Reply → α} {f : α → Prog β} {log : List (Atom × Reply)} {b : β}
    (h : ((Atom.prog x g).bind f).Trace log b) : ∃ r l, log = (x, r) :: l ∧ (f (g r)).Trace l b := h.op_inv

theorem Prog.Trace.not_fault {e : Fault} {log : List (Atom × Reply)} {a : α} (h : (Prog.fault e).Trace log a) : False := by
  cases h

theorem Prog.Trace.not_refused {e : Refusal} {log : List (Atom × Reply)} {a : α} (h : (Prog.refused e).Trace log a) : False := by
  cases h

/-- A sequence that ends has passed through the end of its first part. -/
theorem Prog.Trace.bind_inv {p : Prog α} {f : α → Prog β} {log : List (Atom × Reply)} {b : β} (h : (p.bind f).Trace log b) :
    ∃ l m a, log = l ++ m ∧ p.Trace l a ∧ (f a).Trace m b := by
  induction p generalizing log with
  | done a => exact ⟨[], log, a, rfl, .done a, h⟩
  | fault e => exact h.not_fault.elim
  | refused e => exact h.not_refused.elim
  | op x k ih =>
    obtain ⟨r, l, rfl, h0⟩ := Prog.Trace.op_inv h
    obtain ⟨l1, m, a, rfl, h1, h2⟩ := ih r h0
    exact ⟨_, m, a, rfl, .op h1, h2⟩

/-- What every path meets, the accesses of a trace and its result meet. -/
theorem Prog.Trace.sat {p : Prog α} {log : List (Atom × Reply)} {a : α} (h : p.Trace log a) (hs : p.Sat G Q F E R)
    (hl : ∀ c ∈ log, G c.1 c.2) : (∀ c ∈ log, Q c.1) ∧ R a := by
  induction h with
  | done a => exact ⟨by simp, hs⟩
  | @op x k r log a _ ih =>
    have := ih (hs.2 r (hl (x, r) (by simp))) fun c hc => hl c (by simp [hc])
    exact ⟨by simpa using ⟨hs.1, fun x r hm => this.1 (x, r) hm⟩, this.2⟩

/-! ### Logs -/

/-- The events of a log. -/
def eventsOf (log : List (Atom × Reply)) : List Event :=
  log.filterMap fun c => match c.1 with
    | .emit e => some e
    | _ => none

/-- An access, with its reply, that stores to RAM offset o. -/
def Stores (o : Nat) (c : Atom × Reply) : Prop :=
  match c.1 with
  | .writeByte o' _ => o = o'
  | .cas o' n _ _ => c.2.toBool = true ∧ o' ≤ o ∧ o < o' + n
  | _ => False

@[simp] theorem eventsOf_nil : eventsOf [] = [] := rfl
@[simp] theorem eventsOf_append (l m : List (Atom × Reply)) : eventsOf (l ++ m) = eventsOf l ++ eventsOf m := by
  simp [eventsOf]

/-- The accesses of a log emit `es`, store only what an event of `es` tells of, and fill only slots of K. -/
structure Trail (v : View) (log : List (Atom × Reply)) (es : List Event) (K : Nat → Prop) : Prop where
  events : eventsOf log = es
  fills  : ∀ op vpn bias r, (Atom.fill op vpn bias, r) ∈ log → K (slotIndex v.params vpn)
  stores : ∀ o, ∀ c ∈ log, Stores o c → ∃ e ∈ es, storesTo v.ram o e

theorem Trail.nil (v : View) (K : Nat → Prop) : Trail v [] [] K := ⟨rfl, by simp, by simp⟩

theorem Trail.append {v : View} {l m : List (Atom × Reply)} {es fs : List Event} {K : Nat → Prop} (a : Trail v l es K)
    (b : Trail v m fs K) : Trail v (l ++ m) (es ++ fs) K where
  events := by rw [eventsOf_append, a.events, b.events]
  fills op vpn bias r h := (List.mem_append.1 h).elim (a.fills op vpn bias r) (b.fills op vpn bias r)
  stores o c hc hs := by
    rcases List.mem_append.1 hc with hc | hc
    · obtain ⟨e, he, h⟩ := a.stores o c hc hs; exact ⟨e, by simp [he], h⟩
    · obtain ⟨e, he, h⟩ := b.stores o c hc hs; exact ⟨e, by simp [he], h⟩

theorem Trail.mono {v : View} {l : List (Atom × Reply)} {es : List Event} {K L : Nat → Prop} (a : Trail v l es K)
    (h : ∀ i, K i → L i) : Trail v l es L := { a with fills := fun op vpn bias r hm => h _ (a.fills op vpn bias r hm) }

theorem Trail.emit (v : View) (e : Event) (r : Reply) (K : Nat → Prop) : Trail v [(.emit e, r)] [e] K where
  events := rfl
  fills op vpn bias r' h := by simp at h
  stores o c hc hs := by
    simp only [List.mem_singleton] at hc
    subst hc
    exact hs.elim

theorem Trail.fill (v : View) (op : Op) (vpn bias : Word) (r : Reply) :
    Trail v [(.fill op vpn bias, r)] [] (· = slotIndex v.params vpn) where
  events := rfl
  fills op' vpn' bias' r' h := by simp only [List.mem_singleton, Prod.mk.injEq, Atom.fill.injEq] at h; rw [h.1.2.1]
  stores o c hc hs := by
    simp only [List.mem_singleton] at hc
    subst hc
    exact hs.elim

/-- An access that neither emits, stores nor fills. -/
def Atom.plain : Atom → Bool
  | .lookup _ _ | .readByte _ | .readWord _ _ | .pteOrder | .device _ => true
  | .fill _ _ _ | .emit _ | .writeByte _ _ | .cas _ _ _ _ => false

theorem Trail.plain (v : View) {x : Atom} (h : x.plain = true) (r : Reply) (K : Nat → Prop) : Trail v [(x, r)] [] K where
  events := by cases x <;> first | rfl | cases h
  fills op vpn bias r' hm := by
    simp only [List.mem_singleton, Prod.mk.injEq] at hm
    rw [← hm.1] at h; cases h
  stores o c hc hs := by
    simp only [List.mem_singleton] at hc
    subst hc
    cases x <;> first | exact hs.elim | cases h

/-- A plain access, then the rest. -/
theorem Trail.cons {v : View} {x : Atom} (h : x.plain = true) (r : Reply) {l : List (Atom × Reply)} {es : List Event}
    {K : Nat → Prop} (a : Trail v l es K) : Trail v ((x, r) :: l) es K := (Trail.plain v h r K).append a

/-! ### The accesses -/

theorem emit_trace {e : Event} {log : List (Atom × Reply)} {x : Unit} (h : (emit e).Trace log x) : ∃ r, log = [(.emit e, r)] := by
  obtain ⟨r, l, rfl, h0⟩ := Prog.Trace.op_inv h
  obtain ⟨rfl, -⟩ := h0.done_inv
  exact ⟨r, rfl⟩

theorem inSpan_physOf (r : Ram) (o : Word) (n j : Nat) : inSpan r (r.physOf o) n j ↔ o.toNat ≤ j ∧ j < o.toNat + n := by
  simp [inSpan, Ram.physOf]

theorem readBytes_trace {v : View} {o n : Nat} {log : List (Atom × Reply)} {bs : List Byte} {K : Nat → Prop}
    (h : (readBytes o n).Trace log bs) : Trail v log [] K ∧ bs.length = n := by
  induction n generalizing o log bs with
  | zero => obtain ⟨rfl, rfl⟩ := h.done_inv; exact ⟨.nil _ _, rfl⟩
  | succ n ih =>
    obtain ⟨r, l, rfl, h0⟩ := Prog.Trace.prog_inv h
    obtain ⟨l, m, cs, rfl, h1, h2⟩ := Prog.Trace.bind_inv h0
    obtain ⟨rfl, rfl⟩ := h2.done_inv
    obtain ⟨t, hl⟩ := ih h1
    exact ⟨.cons rfl r (by simpa using t), by simp [hl]⟩

theorem writeBytes_trace {o : Nat} {bs : List Byte} {log : List (Atom × Reply)} {x : Unit} (h : (writeBytes o bs).Trace log x) :
    eventsOf log = [] ∧ (∀ op vpn bias r, (Atom.fill op vpn bias, r) ∉ log) ∧
      ∀ j, ∀ c ∈ log, Stores j c → o ≤ j ∧ j < o + bs.length := by
  induction bs generalizing o log with
  | nil => obtain ⟨rfl, -⟩ := h.done_inv; simp
  | cons b bs ih =>
    obtain ⟨r, l, rfl, h0⟩ := Prog.Trace.op_inv h
    obtain ⟨h1, h2, h3⟩ := ih h0
    refine ⟨h1, by simpa using h2, fun j c hc hs => ?_⟩
    rcases List.mem_cons.1 hc with rfl | hc
    · have : j = o := hs
      simp; omega
    · have := h3 j c hc hs
      simp only [List.length_cons]; omega

/-- `ramRead`: its bytes are n, and it emits one RamRead. -/
theorem ramRead_trace {v : View} {o : Word} {n : Nat} {log : List (Atom × Reply)} {bs : List Byte} {K : Nat → Prop}
    (h : (ramRead v o n).Trace log bs) :
    Trail v log [.ramRead v.hart (v.ram.physOf o) n] K ∧ bs.length = n ∧ v.ram.holds o.toNat n = true := by
  unfold ramRead at h
  split at h
  · next hr =>
    obtain ⟨l, m, cs, rfl, h1, h2⟩ := Prog.Trace.bind_inv h
    obtain ⟨l2, m2, x, rfl, h3, h4⟩ := Prog.Trace.bind_inv h2
    obtain ⟨rfl, rfl⟩ := h4.done_inv
    obtain ⟨r, rfl⟩ := emit_trace h3
    obtain ⟨t, hl⟩ := readBytes_trace (v := v) (K := K) h1
    exact ⟨by simpa using t.append (.emit v _ r K), hl, hr⟩
  · exact h.not_fault.elim

/-- `ramWrite`: it emits one RamWrite that tells of its bytes. -/
theorem ramWrite_trace {v : View} {o : Word} {bs : List Byte} {log : List (Atom × Reply)} {x : Unit} {K : Nat → Prop}
    (h : (ramWrite v o bs).Trace log x) :
    Trail v log [.ramWrite v.hart (v.ram.physOf o) bs.length bs] K ∧ v.ram.holds o.toNat bs.length = true := by
  unfold ramWrite at h
  split at h
  · next hr =>
    obtain ⟨l, m, y, rfl, h1, h2⟩ := Prog.Trace.bind_inv h
    obtain ⟨r, rfl⟩ := emit_trace h2
    obtain ⟨e1, e2, e3⟩ := writeBytes_trace h1
    refine ⟨⟨by rw [eventsOf_append, e1]; rfl, ?_, ?_⟩, hr⟩
    · intro op vpn bias r' hm
      rcases List.mem_append.1 hm with hm | hm
      · exact (e2 op vpn bias r' hm).elim
      · simp at hm
    · intro j c hc hs
      rcases List.mem_append.1 hc with hc | hc
      · exact ⟨_, List.mem_singleton.2 rfl, (inSpan_physOf _ _ _ _).2 (e3 j c hc hs)⟩
      · simp only [List.mem_singleton] at hc; subst hc; exact hs.elim
  · exact h.not_fault.elim

theorem readEach_trace {v : View} {o : Nat} {is : List Nat} {log : List (Atom × Reply)} {bs : List (Nat × Byte)}
    {K : Nat → Prop} (h : (readEach o is).Trace log bs) : Trail v log [] K := by
  induction is generalizing log bs with
  | nil => obtain ⟨rfl, -⟩ := h.done_inv; exact .nil _ _
  | cons i is ih =>
    obtain ⟨r, l, rfl, h0⟩ := Prog.Trace.prog_inv h
    obtain ⟨l, m, cs, rfl, h1, h2⟩ := Prog.Trace.bind_inv h0
    obtain ⟨rfl, -⟩ := h2.done_inv
    exact .cons rfl r (by simpa using ih h1)

theorem readTorn_trace {v : View} {o n : Nat} {log : List (Atom × Reply)} {pte : Word} {K : Nat → Prop}
    (h : (readTorn o n).Trace log pte) : Trail v log [] K := by
  obtain ⟨r, l, rfl, h0⟩ := Prog.Trace.prog_inv h
  obtain ⟨l, m, bs, rfl, h1, h2⟩ := Prog.Trace.bind_inv h0
  obtain ⟨rfl, -⟩ := h2.done_inv
  exact .cons rfl r (by simpa using readEach_trace h1)

/-- The PTE load emits one RamRead. -/
theorem loadPte_trace {v : View} {o : Word} {n : Nat} {log : List (Atom × Reply)} {pte : Word} {K : Nat → Prop}
    (h : (loadPte v o n).Trace log pte) :
    Trail v log [.ramRead v.hart (v.ram.physOf o) n] K ∧ v.ram.holds o.toNat n = true := by
  unfold loadPte at h
  split at h
  · next hr =>
    obtain ⟨l, m, w, rfl, h1, h2⟩ := Prog.Trace.bind_inv h
    obtain ⟨l2, m2, x, rfl, h3, h4⟩ := Prog.Trace.bind_inv h2
    obtain ⟨rfl, rfl⟩ := h4.done_inv
    obtain ⟨r, rfl⟩ := emit_trace h3
    have t : Trail v l [] K := by
      split at h1
      · obtain ⟨r', l', rfl, h5⟩ := Prog.Trace.op_inv h1
        obtain ⟨rfl, -⟩ := h5.done_inv
        exact .plain v rfl r' K
      · exact readTorn_trace h1
    exact ⟨by simpa using t.append (.emit v _ r K), hr⟩
  · exact h.not_fault.elim

/-- The CAS emits one RamCas with its result; it tells of the bytes the CAS wrote, when it wrote. -/
theorem casPte_trace {v : View} {o : Word} {n : Nat} {expected desired : Word} {log : List (Atom × Reply)} {ok : Bool}
    {K : Nat → Prop} (h : (casPte v o n expected desired).Trace log ok) :
    Trail v log [.ramCas v.hart (v.ram.physOf o) n expected desired ok] K ∧ v.ram.holds o.toNat n = true := by
  unfold casPte at h
  split at h
  · next hr =>
    obtain ⟨r, l, rfl, h0⟩ := Prog.Trace.prog_inv h
    obtain ⟨l, m, x, rfl, h1, h2⟩ := Prog.Trace.bind_inv h0
    obtain ⟨rfl, rfl⟩ := h2.done_inv
    obtain ⟨r', rfl⟩ := emit_trace h1
    refine ⟨⟨rfl, by simp, fun j c hc hs => ?_⟩, hr⟩
    simp only [List.append_nil, List.mem_cons, List.not_mem_nil, or_false] at hc
    rcases hc with rfl | rfl
    · exact ⟨_, List.mem_singleton.2 rfl, hs.1, (inSpan_physOf _ _ _ _).2 hs.2⟩
    · exact hs.elim
  · exact h.not_fault.elim

theorem devRead_trace {v : View} {k : Nat} {d : Device} {off : Word} {n : Nat} {log : List (Atom × Reply)}
    {r : Option (List Byte)} {K : Nat → Prop} (h : (devRead v k d off n).Trace log r) :
    Trail v log [.devRead v.hart k off n] K ∧ ∀ bs, r = some bs → bs.length = n := by
  obtain ⟨a, l, rfl, h0⟩ := Prog.Trace.prog_inv h
  obtain ⟨l, m, x, rfl, h1, h2⟩ := Prog.Trace.bind_inv h0
  obtain ⟨rfl, rfl⟩ := h2.done_inv
  obtain ⟨r', rfl⟩ := emit_trace h1
  refine ⟨.cons rfl a (.emit v _ r' K), fun bs hb => ?_⟩
  split at hb
  · injection hb with hb; subst hb; simp
  · cases hb

theorem devWrite_trace {v : View} {k : Nat} {d : Device} {off : Word} {bs : List Byte} {log : List (Atom × Reply)}
    {r : Option (List Byte)} {K : Nat → Prop} (h : (devWrite v k d off bs).Trace log r) :
    Trail v log [.devWrite v.hart k off bs.length bs] K ∧ ∀ data, r = some data → data = [] := by
  obtain ⟨a, l, rfl, h0⟩ := Prog.Trace.prog_inv h
  obtain ⟨l, m, x, rfl, h1, h2⟩ := Prog.Trace.bind_inv h0
  obtain ⟨rfl, rfl⟩ := h2.done_inv
  obtain ⟨r', rfl⟩ := emit_trace h1
  refine ⟨.cons rfl a (.emit v _ r' K), fun data hb => ?_⟩
  split at hb
  · injection hb with hb; exact hb.symm
  · cases hb

/-! ### Accesses that respect RAM's region, the devices and the slots -/

/-- A RAM event lies in the region, whole; a trap has a cause of the table (60_exceptions.md R301). -/
def EventOk (r : Ram) : Event → Prop
  | .ramRead _ p n | .ramWrite _ p n _ | .ramCas _ p n _ _ _ => r.present = true ∧ (p - r.begin).toNat + n ≤ r.size.toNat
  | .trap _ c _ => ∃ k op, c = trapCause k op
  | .jitInvalidate _ _ _ _ | .devRead _ _ _ _ | .devWrite _ _ _ _ _ => True

theorem EventOk.congr {r r' : Ram} (hp : r'.present = r.present) (hb : r'.begin = r.begin) (hs : r'.size = r.size) (e : Event) :
    EventOk r' e ↔ EventOk r e := by
  cases e <;> simp [EventOk, hp, hb, hs]

/-- A call within a device's sizes and alignment (20_memory.md R55). -/
def CallOk (v : View) (k : Nat) (off : Word) (n : Nat) : Prop :=
  ∃ d, v.params.devices[k]? = some d ∧ opBytes d.minOp ≤ n ∧ n ≤ opBytes d.maxOp ∧
    off &&& BitVec.ofNat 64 (opBytes d.minOp - 1) = 0

/-- An access of a command of the view: its events are its hart's, lookups are of VPNs, RAM accesses lie in the region, fills lead into RAM;
and, if the command has a buffer of the right length (B), device calls are legal. -/
def AtomOk (v : View) (B : Prop) : Atom → Prop
  | .lookup _ vpn => vpn.toNat < 2 ^ 52
  | .fill _ vpn bias => RegionOk v.ram → biasSound v.ram bias vpn = true
  | .emit e => eventHart e = v.hart ∧ EventOk v.ram e ∧ (B → ∀ k off n, deviceCallOf e = some (k, off, n) → CallOk v k off n)
  | .readByte o => v.ram.holds o 1 = true
  | .writeByte o _ => v.ram.holds o 1 = true
  | .readWord o n => v.ram.holds o n = true
  | .pteOrder => True
  | .cas o n _ _ => v.ram.holds o n = true
  | .device call => B → CallOk v call.dev call.off call.size

/-- Every access of the program is legal, every refusal meets E and every result R. Where C holds, a condition that the machine is
legal, no path that its answers allow ends in a fault. -/
abbrev Prog.Ok (v : View) (B C : Prop) (E : Refusal → Prop) (R : α → Prop) (p : Prog α) : Prop :=
  p.Sat (fun x r => C → replySound v.ram x r = true) (AtomOk v B) (fun _ => ¬ C) E R

variable {v : View} {B C : Prop}

theorem emit_ok {e : Event} (h : AtomOk v B (.emit e)) : (emit e).Ok v B C E (fun _ => True) :=
  ⟨h, fun _ _ => trivial⟩

theorem holds_sub {r : Ram} {o n : Nat} (h : r.holds o n = true) {j m : Nat} (h' : j + m ≤ o + n) :
    r.holds j m = true := by
  rw [holds_iff] at h ⊢
  exact ⟨h.1, by omega⟩

theorem readBytes_ok {o n : Nat} (h : v.ram.holds o n = true) :
    (readBytes o n).Ok v B C E (fun bs => bs.length = n) := by
  induction n generalizing o with
  | zero => exact rfl
  | succ n ih =>
    refine ⟨holds_sub h (by omega), fun r _ => ?_⟩
    exact (ih (holds_sub h (by omega))).bind fun bs hb => by simpa [Prog.Sat] using hb

theorem writeBytes_ok {o : Nat} {bs : List Byte} (h : v.ram.holds o bs.length = true) :
    (writeBytes o bs).Ok v B C E (fun _ => True) := by
  induction bs generalizing o with
  | nil => exact trivial
  | cons b bs ih =>
    simp only [List.length_cons] at h
    exact ⟨holds_sub h (by omega), fun r _ => ih (holds_sub h (by omega))⟩

/-- An event over a span that RAM holds lies in the region. -/
theorem span_ok {r : Ram} {o : Word} {n : Nat} (h : r.holds o.toNat n = true) :
    r.present = true ∧ (r.physOf o - r.begin).toNat + n ≤ r.size.toNat := by
  simpa [Ram.physOf] using (holds_iff _ _ _).1 h

/-- Every byte of an order lies among the n, and every one of the n stands in it. -/
theorem byteOrder_perm (n : Nat) (order : List Nat) : (byteOrder n order).Perm (List.range n) := by
  unfold byteOrder
  split
  · next h => exact List.isPerm_iff.1 h
  · exact .refl _

theorem readEach_ok {o n : Nat} (h : v.ram.holds o n = true) {is : List Nat} (hi : ∀ i ∈ is, i < n) :
    (readEach o is).Ok v B C E (fun _ => True) := by
  induction is with
  | nil => trivial
  | cons i is ih =>
    have := hi i (by simp)
    exact ⟨holds_sub h (by omega), fun _ _ => (ih fun j hj => hi j (by simp [hj])).bind fun _ _ => trivial⟩

theorem readTorn_ok {o n : Nat} (h : v.ram.holds o n = true) : (readTorn o n).Ok v B C E (fun _ => True) :=
  ⟨trivial, fun r _ => (readEach_ok h fun _ hi => List.mem_range.1 ((byteOrder_perm n r.toOrder).mem_iff.1 hi)).bind
    fun _ _ => trivial⟩

theorem ramRead_ok {o : Word} {n : Nat} (hc : C → v.ram.holds o.toNat n = true) : (ramRead v o n).Ok v B C E (fun bs => bs.length = n) := by
  unfold ramRead
  split
  · next h =>
    refine (readBytes_ok h).bind fun bs hb => (emit_ok (by exact ⟨rfl, span_ok h, fun _ _ _ _ hd => by cases hd⟩)).bind fun _ _ => hb
  · next h => exact fun c => h (hc c)

theorem ramWrite_ok {o : Word} {bs : List Byte} (hc : C → v.ram.holds o.toNat bs.length = true) : (ramWrite v o bs).Ok v B C E (fun _ => True) := by
  unfold ramWrite
  split
  · next h => exact (writeBytes_ok h).bind fun _ _ => emit_ok (by exact ⟨rfl, span_ok h, fun _ _ _ _ hd => by cases hd⟩)
  · next h => exact fun c => h (hc c)

theorem loadPte_ok {o : Word} {n : Nat} (hc : C → v.ram.holds o.toNat n = true) : (loadPte v o n).Ok v B C E (fun _ => True) := by
  unfold loadPte
  split
  · next h =>
    refine Prog.Sat.bind (R := fun _ => True) ?_ fun pte _ =>
      (emit_ok (by exact ⟨rfl, span_ok h, fun _ _ _ _ hd => by cases hd⟩)).bind fun _ _ => trivial
    split
    · exact ⟨h, fun _ _ => trivial⟩
    · exact readTorn_ok h
  · next h => exact fun c => h (hc c)

theorem casPte_ok {o : Word} {n : Nat} {expected desired : Word} (hc : C → v.ram.holds o.toNat n = true) :
    (casPte v o n expected desired).Ok v B C E (fun _ => True) := by
  unfold casPte
  split
  · next h =>
    exact ⟨h, fun _ _ => (emit_ok (by exact ⟨rfl, span_ok h, fun _ _ _ _ hd => by cases hd⟩)).bind fun _ _ => trivial⟩
  · next h => exact fun c => h (hc c)

theorem devRead_ok {k : Nat} {d : Device} {off : Word} {n : Nat} (h : B → CallOk v k off n) :
    (devRead v k d off n).Ok v B C E (fun r => ∀ bs, r = some bs → bs.length = n) := by
  refine ⟨h, fun a _ => (emit_ok (by exact ⟨rfl, trivial, fun hb k' off' n' hd => by cases hd; exact h hb⟩)).bind fun _ _ bs hb => ?_⟩
  · split at hb
    · injection hb with hb; subst hb; simp
    · cases hb

theorem devWrite_ok {k : Nat} {d : Device} {off : Word} {bs : List Byte}
    (h : B → CallOk v k off bs.length) : (devWrite v k d off bs).Ok v B C E (fun r => ∀ data, r = some data → data = []) := by
  refine ⟨h, fun a _ => (emit_ok (by exact ⟨rfl, trivial, fun hb k' off' n' hd => by cases hd; exact h hb⟩)).bind fun _ _ data hb => ?_⟩
  · split at hb
    · injection hb with hb; exact hb.symm
    · cases hb

end Sys2Proof.Machine
end

