-- ==== Sys2Proof/Laws/Mmio.lean ====
section
/-! SUPPORT. What the adapter can do: device calls within the device's sizes (20_memory.md R55), and an end within its depth
(44_mmio.md R256). -/

namespace Sys2Proof.Machine

open Sys2Proof.Config

/-- The event of one callback of device k that respects its sizes and alignment (R55). -/
def LegalCall (k : Nat) (d : Device) (e : Event) : Prop :=
  ∃ off n, deviceCallOf e = some (k, off, n) ∧ opBytes d.minOp ≤ n ∧ n ≤ opBytes d.maxOp ∧
    off &&& BitVec.ofNat 64 (opBytes d.minOp - 1) = 0

/-- The adapter's buffer: `n` bytes in the write direction. -/
def DirBuf (dir : Dir) (n : Nat) (buf : List Byte) : Prop := dir = .wr → buf.length = n

theorem le_pow2ceil (n : Nat) : n ≤ pow2ceil n := by
  unfold pow2ceil
  split
  · omega
  · next h =>
    have := Nat.lt_log2_self (n := n - 1)
    omega

theorem windowSize_ge (m : Nat) (off : Word) (n : Nat) : offDiff m off + n ≤ windowSize m off n :=
  (le_pow2ceil _).trans (Nat.le_max_right _ _)

theorem splice_length {tmp buf : List Byte} {diff : Nat} (h : diff + buf.length ≤ tmp.length) :
    (splice tmp diff buf).length = tmp.length := by
  simp [splice]; omega

/-- `m - 1` as a mask takes the value modulo m. -/
theorem and_pred_toNat {a : Nat} (ha : a ≤ 64) (v : Word) :
    (v &&& BitVec.ofNat 64 (2 ^ a - 1)).toNat = v.toNat % 2 ^ a := by
  have h : 2 ^ a - 1 < 2 ^ 64 := by
    have := Nat.pow_le_pow_right (n := 2) (by omega) ha
    have := Nat.one_le_two_pow (n := a)
    omega
  rw [BitVec.toNat_and, BitVec.toNat_ofNat, Nat.mod_eq_of_lt h]
  exact Nat.and_two_pow_sub_one_eq_mod _ _

/-- `diff` is the part of the offset below the alignment (R252). -/
theorem sub_alignedOff (m : Nat) (off : Word) : off - alignedOff m off = off &&& BitVec.ofNat 64 (m - 1) := by
  have h : off = alignedOff m off + (off &&& BitVec.ofNat 64 (m - 1)) := by
    rw [BitVec.add_eq_or_of_and_eq_zero]
    · apply BitVec.eq_of_getLsbD_eq
      intro i hi
      simp only [alignedOff, BitVec.getLsbD_or, BitVec.getLsbD_and, BitVec.getLsbD_not]
      cases off.getLsbD i <;> simp [hi]
    · apply BitVec.eq_of_getLsbD_eq
      intro i hi
      simp only [alignedOff, BitVec.getLsbD_and, BitVec.getLsbD_not]
      cases off.getLsbD i <;> simp
  exact BitVec.sub_eq_iff_eq_add.2 (by rw [BitVec.add_comm]; exact h)

theorem offDiff_eq {a : Nat} (ha : a ≤ 64) (off : Word) : offDiff (2 ^ a) off = off.toNat % 2 ^ a := by
  rw [offDiff, sub_alignedOff, and_pred_toNat ha]

/-- The aligned offset is a multiple of m (R252). -/
theorem alignedOff_and (m : Nat) (off : Word) : alignedOff m off &&& BitVec.ofNat 64 (m - 1) = 0 := by
  apply BitVec.eq_of_getLsbD_eq
  intro i hi
  simp only [alignedOff, BitVec.getLsbD_and, BitVec.getLsbD_not]
  cases off.getLsbD i <;> simp

/-- A call that is neither widened nor split is within the device's sizes and alignment. -/
theorem direct_legal {d : Device} {off : Word} {n : Nat} (hw : ¬ mustWiden (opBytes d.minOp) off n = true)
    (hM : ¬ n > opBytes d.maxOp) :
    opBytes d.minOp ≤ n ∧ n ≤ opBytes d.maxOp ∧ off &&& BitVec.ofNat 64 (opBytes d.minOp - 1) = 0 := by
  have hw' : mustWiden (opBytes d.minOp) off n = false := (Bool.not_eq_true _).mp hw
  simp only [mustWiden, Bool.or_eq_false_iff, decide_eq_false_iff_not, bne_eq_false_iff_eq] at hw'
  exact ⟨by omega, by omega, hw'.2⟩

variable {v : View} {k : Nat} {d : Device}

/-- Every event of the adapter is a legal call of its device, and a read gives as many bytes as were asked for. -/
theorem mmio_trace {K : Nat → Prop} {depth : Nat} {dir : Dir} {off : Word} {n : Nat} {buf : List Byte}
    {log : List (Atom × Reply)} {r : Option (List Byte)} (hb : DirBuf dir n buf)
    (h : (mmio v k d depth dir off n buf).Trace log r) :
    ∃ es, Trail v log es K ∧ (∀ e ∈ es, LegalCall k d e) ∧ ∀ data, r = some data → data.length = if dir = .rd then n else 0 := by
  induction depth generalizing dir off n buf log r with
  | zero => exact h.not_fault.elim
  | succ depth ih =>
    simp only [mmio] at h
    split at h
    · -- widen
      split at h
      · exact h.not_refused.elim
      · obtain ⟨l1, l2, r1, rfl, h1, h2⟩ := Prog.Trace.bind_inv h
        obtain ⟨es, w, he, hlen⟩ := ih (fun h => by cases h) h1
        cases r1 with
        | none =>
          obtain ⟨rfl, rfl⟩ := h2.done_inv
          exact ⟨es, by simpa using w, he, fun _ h => by cases h⟩
        | some tmp =>
          have ht : tmp.length = windowSize (opBytes d.minOp) off n := hlen tmp rfl
          have hge := windowSize_ge (opBytes d.minOp) off n
          cases dir with
          | rd =>
            obtain ⟨rfl, rfl⟩ := h2.done_inv
            refine ⟨es, by simpa using w, he, fun data hd => ?_⟩
            injection hd with hd
            subst hd
            simp only [List.length_take, List.length_drop, if_true]
            omega
          | wr =>
            have hbuf := hb rfl
            obtain ⟨fs, w', hf, hlen'⟩ := ih (fun _ => by rw [splice_length (by omega), ht]) h2
            exact ⟨es ++ fs, w.append w', fun e hm => (List.mem_append.1 hm).elim (he e) (hf e), hlen'⟩
    · next hw =>
      split at h
      · -- split
        obtain ⟨l1, l2, r1, rfl, h1, h2⟩ := Prog.Trace.bind_inv h
        obtain ⟨es, w, he, hlen⟩ := ih (fun hd => by have := hb hd; simp; omega) h1
        cases r1 with
        | none =>
          obtain ⟨rfl, rfl⟩ := h2.done_inv
          exact ⟨es, by simpa using w, he, fun _ h => by cases h⟩
        | some lo =>
          obtain ⟨l3, l4, r2, rfl, h3, h4⟩ := Prog.Trace.bind_inv h2
          obtain ⟨fs, w', hf, hlen'⟩ := ih (fun hd => by have := hb hd; simp; omega) h3
          have hall : ∀ e ∈ es ++ fs, LegalCall k d e := fun e hm => (List.mem_append.1 hm).elim (he e) (hf e)
          cases r2 with
          | none =>
            obtain ⟨rfl, rfl⟩ := h4.done_inv
            exact ⟨_, w.append (by simpa using w'), hall, fun _ h => by cases h⟩
          | some hi =>
            obtain ⟨rfl, rfl⟩ := h4.done_inv
            refine ⟨_, w.append (by simpa using w'), hall, fun data hd => ?_⟩
            injection hd with hd
            subst hd
            rw [List.length_append, hlen lo rfl, hlen' hi rfl]
            split <;> omega
      · -- direct
        next hM =>
        have hlegal := direct_legal hw hM
        cases dir with
        | rd =>
          obtain ⟨w, hl⟩ := devRead_trace (K := K) h
          refine ⟨_, w, fun e hm => ?_, fun data hd => by simpa using hl data hd⟩
          simp at hm; subst hm
          exact ⟨off, n, rfl, hlegal⟩
        | wr =>
          obtain ⟨w, hl⟩ := devWrite_trace (K := K) h
          refine ⟨_, w, fun e hm => ?_, fun data hd => by simp [hl data hd]⟩
          simp at hm; subst hm
          exact ⟨off, buf.length, rfl, by rw [hb rfl]; exact hlegal⟩

/-! ### Its accesses are legal, and the recursion ends (R256) -/

theorem pow2ceil_pow (n : Nat) : ∃ c, pow2ceil n = 2 ^ c := by
  unfold pow2ceil
  split
  · exact ⟨0, rfl⟩
  · exact ⟨_, rfl⟩

theorem windowSize_pow (a : Nat) (off : Word) (n : Nat) : ∃ c, a ≤ c ∧ windowSize (2 ^ a) off n = 2 ^ c := by
  obtain ⟨c, hc⟩ := pow2ceil_pow (offDiff (2 ^ a) off + n)
  rw [windowSize, hc]
  rcases Nat.le_total a c with h | h
  · exact ⟨c, h, Nat.max_eq_right (Nat.pow_le_pow_right (by omega) h)⟩
  · exact ⟨a, le_refl a, Nat.max_eq_left (Nat.pow_le_pow_right (by omega) h)⟩

theorem opBytes_pow (z : OpSize) : ∃ a ≤ 4, opBytes z = 2 ^ a := by
  cases z
  · exact ⟨0, by omega, rfl⟩
  · exact ⟨1, by omega, rfl⟩
  · exact ⟨2, by omega, rfl⟩
  · exact ⟨3, by omega, rfl⟩
  · exact ⟨4, by omega, rfl⟩

/-- The recursion depth left is enough: for any call of n bytes, or for a window, aligned and a power of two of at least m bytes,
which is never widened again. -/
def DepthOk (d : Device) (depth : Nat) (off : Word) (n : Nat) : Prop :=
  ∃ a b, a ≤ b ∧ b ≤ 4 ∧ opBytes d.minOp = 2 ^ a ∧ opBytes d.maxOp = 2 ^ b ∧
    ((∃ j, n ≤ 2 ^ j ∧ j + 7 ≤ depth) ∨
      ∃ c, a ≤ c ∧ n = 2 ^ c ∧ off &&& BitVec.ofNat 64 (2 ^ a - 1) = 0 ∧ c + 1 ≤ depth + b ∧ 1 ≤ depth)

/-- A call of at most 16 bytes on a device with legal sizes has enough depth (R256). -/
theorem mmioDepth_ok (hd : opBytes d.minOp ≤ opBytes d.maxOp) (off : Word) {n : Nat} (hn : n ≤ 16) :
    DepthOk d mmioDepth off n := by
  obtain ⟨a, ha4, ha⟩ := opBytes_pow d.minOp
  obtain ⟨b, hb4, hb⟩ := opBytes_pow d.maxOp
  exact ⟨a, b, (Nat.pow_le_pow_iff_right (a := 2) (by omega)).1 (by rw [← ha, ← hb]; exact hd), hb4, ha, hb,
    .inl ⟨4, hn, by decide⟩⟩

/-- A widened call leaves enough depth for its window's calls. -/
theorem DepthOk.widen {depth : Nat} {off : Word} {n : Nat} (h : DepthOk d (depth + 1) off n)
    (hw : mustWiden (opBytes d.minOp) off n = true) (hs : ¬ windowSize (opBytes d.minOp) off n > mmioScratch) :
    DepthOk d depth (alignedOff (opBytes d.minOp) off) (windowSize (opBytes d.minOp) off n) := by
  obtain ⟨a, b, hab, hb4, ha, hb, ⟨j, hn, hj⟩ | ⟨c, hac, rfl, hoff, hc, h1⟩⟩ := h
  · rw [ha] at hs ⊢
    obtain ⟨c, hac, hc⟩ := windowSize_pow a off n
    have hc4 : c ≤ 4 := by
      rw [hc] at hs
      by_contra h
      have : 2 ^ 5 ≤ 2 ^ c := Nat.pow_le_pow_right (by omega) (by omega)
      simp only [mmioScratch] at hs
      omega
    exact ⟨a, b, hab, hb4, ha, hb, .inr ⟨c, hac, hc, alignedOff_and _ off, by omega, by omega⟩⟩
  · have : ¬ 2 ^ c < 2 ^ a := Nat.not_lt.2 (Nat.pow_le_pow_right (by omega) hac)
    simp [mustWiden, ha, hoff, this] at hw

/-- A split call leaves enough depth for its halves. -/
theorem DepthOk.split {depth : Nat} {off : Word} {n : Nat} (h : DepthOk d (depth + 1) off n) (hM : n > opBytes d.maxOp) :
    DepthOk d depth off (n / 2) ∧ DepthOk d depth (off + BitVec.ofNat 64 (n / 2)) (n - n / 2) := by
  obtain ⟨a, b, hab, hb4, ha, hb, ⟨j, hn, hj⟩ | ⟨c, hac, rfl, hoff, hc, h1⟩⟩ := h
  · have h1 : 1 ≤ opBytes d.maxOp := by rw [hb]; exact Nat.one_le_two_pow
    obtain ⟨j, rfl⟩ : ∃ j', j = j' + 1 := by
      cases j with
      | zero => simp at hn; omega
      | succ j => exact ⟨j, rfl⟩
    rw [Nat.pow_succ] at hn
    exact ⟨⟨a, b, hab, hb4, ha, hb, .inl ⟨j, by omega, by omega⟩⟩, a, b, hab, hb4, ha, hb, .inl ⟨j, by omega, by omega⟩⟩
  · rw [hb] at hM
    have hbc : b < c := (Nat.pow_lt_pow_iff_right (by omega)).1 hM
    obtain ⟨c, rfl⟩ : ∃ c', c = c' + 1 := ⟨c - 1, by omega⟩
    have e1 : 2 ^ (c + 1) / 2 = 2 ^ c := by rw [Nat.pow_succ]; omega
    have e2 : 2 ^ (c + 1) - 2 ^ c = 2 ^ c := by rw [Nat.pow_succ]; omega
    rw [e1, e2]
    refine ⟨⟨a, b, hab, hb4, ha, hb, .inr ⟨c, by omega, rfl, hoff, by omega, by omega⟩⟩, a, b, hab, hb4, ha, hb,
      .inr ⟨c, by omega, rfl, ?_, by omega, by omega⟩⟩
    apply BitVec.eq_of_toNat_eq
    have h0 := congrArg BitVec.toNat hoff
    rw [and_pred_toNat (by omega)] at h0 ⊢
    have hdvd : (2 : Nat) ^ a ∣ 2 ^ 64 := Nat.pow_dvd_pow 2 (by omega)
    have hdvd' : (2 : Nat) ^ a ∣ 2 ^ c := Nat.pow_dvd_pow 2 (by omega)
    rw [BitVec.toNat_add, BitVec.toNat_ofNat, Nat.mod_mod_of_dvd _ hdvd, Nat.add_mod, Nat.mod_mod_of_dvd _ hdvd,
      Nat.mod_eq_zero_of_dvd hdvd']
    have h0' : off.toNat % 2 ^ a = 0 := by simpa using h0
    simp [h0']

variable {B C : Prop} {E : Refusal → Prop}

/-- The adapter's accesses are legal calls; with enough depth it ends, or is refused for its window (R257). -/
theorem mmio_ok (hk : v.params.devices[k]? = some d) (hE : E .mmioWindow) {depth : Nat} {dir : Dir} {off : Word} {n : Nat}
    {buf : List Byte} (hb : B → DirBuf dir n buf) (hd : C → DepthOk d depth off n) :
    (mmio v k d depth dir off n buf).Ok v B C E (fun r => ∀ data, r = some data → dir = .rd → data.length = n) := by
  induction depth generalizing dir off n buf with
  | zero =>
    intro c
    obtain ⟨_, _, _, _, _, _, ⟨j, -, hj⟩ | ⟨_, _, _, _, _, h1⟩⟩ := hd c <;> omega
  | succ depth ih =>
    simp only [mmio]
    split
    · next hw =>
      split
      · exact hE
      · next hs =>
        have hge := windowSize_ge (opBytes d.minOp) off n
        have hdw := fun c => (hd c).widen hw hs
        refine (ih (dir := .rd) (fun _ h => by cases h) hdw).bind fun r hr => ?_
        cases r with
        | none => exact fun _ h => by cases h
        | some tmp =>
          have ht : tmp.length = _ := hr tmp rfl rfl
          cases dir with
          | rd =>
            intro data hdata _
            injection hdata with hdata
            subst hdata
            simp only [List.length_take, List.length_drop]
            omega
          | wr =>
            refine (ih (dir := .wr) (fun b _ => ?_) hdw).mono fun r _ data _ h => by cases h
            have := hb b rfl
            rw [splice_length (by omega), ht]
    · next hw =>
      split
      · next hM =>
        have hds := fun c => (hd c).split hM
        refine (ih (fun b h => by have := hb b h; simp; omega) fun c => (hds c).1).bind fun r hr => ?_
        cases r with
        | none => exact fun _ h => by cases h
        | some lo =>
          refine (ih (fun b h => by have := hb b h; simp; omega) fun c => (hds c).2).bind fun r hr' => ?_
          cases r with
          | none => exact fun _ h => by cases h
          | some hi =>
            intro data hdata hdir
            injection hdata with hdata
            subst hdata
            rw [List.length_append, hr lo rfl hdir, hr' hi rfl hdir]
            omega
      · next hM =>
        have hlegal := direct_legal hw hM
        cases dir with
        | rd => exact (devRead_ok fun _ => ⟨d, hk, hlegal⟩).mono fun r h data hdata _ => h data hdata
        | wr =>
          exact (devWrite_ok fun b => ⟨d, hk, by rw [hb b rfl]; exact hlegal⟩).mono fun r _ data _ h => by cases h

end Sys2Proof.Machine
end

