-- ==== Sys2Proof/Laws/Tlb.lean ====
section
/-! SUPPORT. The TLB's index arithmetic, why an invalidated tag never hits (43_tlb.md R229), and why a hit leads into RAM
(43_tlb.md R222). -/

namespace Sys2Proof.Machine

open Sys2Proof.Config

/-- What legal parameters say of the TLB. -/
theorem paramsOk_tlb {p : Params} (h : paramsOk p = true) :
    ∃ b, 1 ≤ b ∧ p.tlbEntries = 2 ^ b ∧ slotIndex p p.flushSlot0Tag ≠ 0 := by
  simp only [paramsOk, Bool.and_eq_true, decide_eq_true_eq, isPowerOfTwo, beq_iff_eq, flushTagOk, bne_iff_ne] at h
  obtain ⟨⟨⟨⟨⟨⟨⟨-, h2⟩, h3⟩, -⟩, -⟩, h6⟩, -⟩, -⟩ := h
  refine ⟨Nat.log2 p.tlbEntries, ?_, h3, h6.2⟩
  by_contra hc
  have : Nat.log2 p.tlbEntries = 0 := by omega
  rw [this] at h3
  omega

theorem slotIndex_eq {p : Params} {b : Nat} (h : p.tlbEntries = 2 ^ b) (vpn : Word) : slotIndex p vpn = vpn.toNat % 2 ^ b := by
  rw [slotIndex, h, Nat.and_two_pow_sub_one_eq_mod]

theorem slotIndex_lt {p : Params} (h : paramsOk p = true) (vpn : Word) : slotIndex p vpn < p.tlbEntries := by
  obtain ⟨b, -, hb, -⟩ := paramsOk_tlb h
  rw [slotIndex_eq hb, hb]
  exact Nat.mod_lt _ (Nat.two_pow_pos b)

/-- `VPN - 1` indexes another slot than VPN (R229). -/
theorem slotIndex_pred_ne {p : Params} (h : paramsOk p = true) (vpn : Word) : slotIndex p (vpn - 1) ≠ slotIndex p vpn := by
  obtain ⟨b, hb1, hb, -⟩ := paramsOk_tlb h
  rw [slotIndex_eq hb, slotIndex_eq hb]
  intro e
  have hdvd : (2 : Nat) ∣ 2 ^ b := dvd_pow_self 2 (by omega)
  have e2 : (vpn - 1).toNat % 2 = vpn.toNat % 2 := by
    rw [← Nat.mod_mod_of_dvd _ hdvd, e, Nat.mod_mod_of_dvd _ hdvd]
  have := vpn.isLt
  rw [BitVec.toNat_sub] at e2
  simp at e2
  omega

/-- A tag that indexes another slot is not live. -/
theorem tagLive_of_ne {p : Params} {i : Nat} {tag : Word} (h : slotIndex p tag ≠ i) : tagLive p i tag = false := by
  rw [tagLive, beq_eq_false_iff_ne.2 h, Bool.false_and]

/-- A tag that is not live is sound. -/
theorem tagSound_of_dead {p : Params} {r : Ram} {i : Nat} {e : Slot} {tag : Word} (h : tagLive p i tag = false) :
    tagSound p r i e tag = true := by
  rw [tagSound, h]; rfl

/-- A VPN is below 2^52. -/
theorem vpnOf_lt (v : Word) : (vpnOf v).toNat < 2 ^ 52 := by
  rw [vpnOf_toNat]
  have := v.isLt
  omega

/-- A lookup of a VPN that hits has a live tag. -/
theorem tagLive_of_hit {s : State} {op : Op} {vpn : Word} (hv : vpn.toNat < 2 ^ 52) (h : tlbHit s op vpn = true) :
    tagLive s.params (slotIndex s.params vpn) (slotTag op (s.slotFor vpn)) = true := by
  have e : slotTag op (s.slotFor vpn) = vpn := by simpa [tlbHit] using h
  rw [e, tagLive, beq_self_eq_true, Bool.true_and, decide_eq_true_eq]
  exact hv

/-- A virtual address is its page and its offset. -/
theorem vpn_shift_add (v : Word) : ((vpnOf v) <<< 12).toNat = v.toNat - v.toNat % 4096 := by
  rw [BitVec.toNat_shiftLeft, vpnOf_toNat, Nat.shiftLeft_eq]
  have := v.isLt
  rw [Nat.mod_eq_of_lt (by omega)]
  omega

/-- A sound bias of a VPN: the bytes of an access within the page are in RAM, at the bias plus the address. -/
theorem holds_of_sound {r : Ram} {bias v : Word} {n : Nat} (h : biasSound r bias (vpnOf v) = true)
    (hn : v.toNat % 4096 + n ≤ 4096) : r.holds (bias + v).toNat n = true := by
  simp only [biasSound, Bool.and_eq_true, beq_iff_eq, pageSize] at h
  obtain ⟨⟨h1, h2⟩, h3⟩ := h
  replace h3 := of_decide_eq_true h3
  rw [aligned_iff] at h2
  have hb : (bias + vpnOf v <<< 12).toNat = (bias.toNat + (v.toNat - v.toNat % 4096)) % 2 ^ 64 := by
    rw [BitVec.toNat_add, vpn_shift_add]
  have hc : (bias + v).toNat = (bias.toNat + v.toNat) % 2 ^ 64 := BitVec.toNat_add _ _
  have hsz := r.size.isLt
  have hv := v.isLt
  have he := bias.isLt
  rw [hb] at h2 h3
  rw [holds_iff, hc]
  exact ⟨h1, by omega⟩

/-- The bias of a fill from a page of RAM is sound (42_dispatcher.md R187). -/
theorem biasSound_of_phys {r : Ram} (hr : RegionOk r) {v p o : Word} (ho : physToHost r p = some o)
    (hpv : p.toNat % 4096 = v.toNat % 4096) : biasSound r (o - v) (vpnOf v) = true := by
  obtain ⟨h1, -, h3, h4, h5⟩ := physToHost_some ho
  have hr := hr h1
  rw [ramRegionOk_iff] at hr
  have hbase : (o - v + vpnOf v <<< 12).toNat = o.toNat - o.toNat % 4096 := by
    rw [BitVec.toNat_add, BitVec.toNat_sub, vpn_shift_add v]
    have := v.isLt
    have := o.isLt
    omega
  have ha : (o - v + vpnOf v <<< 12) &&& 0xFFF = 0 := by rw [aligned_iff, hbase]; omega
  simp only [biasSound, h1, ha, Bool.true_and, beq_self_eq_true, decide_eq_true_eq, hbase, pageSize]
  omega

/-- A fill with a sound bias leaves sound tags (R223 to R226). -/
theorem filledSlot_sound {p : Params} (hp : paramsOk p = true) {r : Ram} {vpn bias : Word} (hb : biasSound r bias vpn = true)
    (op : Op) (e : Slot) : slotSound p r (slotIndex p vpn) (filledSlot op vpn bias e) = true := by
  have hdead : tagLive p (slotIndex p vpn) (vpn - 1) = false := tagLive_of_ne (slotIndex_pred_ne hp _)
  have hgood : ∀ e' : Slot, e'.hostBias = bias → tagSound p r (slotIndex p vpn) e' vpn = true := fun e' he => by
    rw [tagSound, he, hb, Bool.or_true]
  have hkeep : ∀ (e' : Slot) (tag : Word), e'.hostBias = bias →
      tagSound p r (slotIndex p vpn) e' (keepOrInvalidate vpn tag) = true := by
    intro e' tag he
    unfold keepOrInvalidate
    split
    · next h => rw [h]; exact hgood e' he
    · exact tagSound_of_dead hdead
  cases op <;> simp only [slotSound, filledSlot, readFill, writeFill, execFill, Bool.and_eq_true] <;>
    refine ⟨⟨?_, ?_⟩, ?_⟩ <;> first | exact hgood _ rfl | exact hkeep _ _ rfl

/-- A page flush leaves no live tag in its slot (R228). -/
theorem flushedPageSlot_sound {s : State} (hp : paramsOk s.params = true) (vpn : Word) (e : Slot) :
    slotSound s.params s.ram (slotIndex s.params vpn) (flushedPageSlot vpn e) = true := by
  have hdead : tagLive s.params (slotIndex s.params vpn) (vpn - 1) = false :=
    tagLive_of_ne (slotIndex_pred_ne hp _)
  simp only [slotSound, flushedPageSlot, tagSound_of_dead hdead, Bool.and_self]

/-- A flushed slot has no live tag (10_state.md R27). -/
theorem flushedSlot_dead {p : Params} (hp : paramsOk p = true) (op : Op) (i : Nat) :
    tagLive p i (slotTag op (flushedSlot p i)) = false := by
  obtain ⟨b, -, hb, hf⟩ := paramsOk_tlb hp
  unfold flushedSlot
  split
  · next h =>
    subst h
    cases op <;> exact tagLive_of_ne hf
  · next h =>
    have h0 : slotIndex p 0 = 0 := by rw [slotIndex_eq hb]; simp
    have hne : slotIndex p 0 ≠ i := by rw [h0]; exact Ne.symm h
    cases op <;> exact tagLive_of_ne hne

/-! ### Legal harts -/

/-- Every hart of a legal state is legal, listed or not. -/
theorem hart_legal {s : State} (hp : paramsOk s.params = true) (h : hartsLegal s = true) (k : Nat) :
    hartLegal s (s.hart k) = true := by
  simp only [hartsLegal, Bool.and_eq_true, List.all_eq_true, decide_eq_true_eq] at h
  rcases Sparse.get_mem_or_default (resetHart s.params) k s.harts with hm | hd
  · exact (h.2 _ hm).2
  · have : s.hart k = resetHart s.params k := hd
    rw [this]
    simp only [paramsOk, Bool.and_eq_true] at hp
    simp [hartLegal, resetHart]
    simpa using hp.2

/-- Writing a legal hart keeps the harts legal. -/
theorem setHart_legal {s : State} {k : Nat} {v : Hart} (h : hartsLegal s = true) (hk : k < s.params.harts)
    (hv : hartLegal s v = true) : hartsLegal (s.setHart k v) = true := by
  simp only [hartsLegal, Bool.and_eq_true, List.all_eq_true, decide_eq_true_eq] at h ⊢
  refine ⟨Sparse.wf_put _ _ _ h.1, fun c hc => ?_⟩
  rcases Sparse.mem_put hc with ⟨rfl, -⟩ | ⟨hc, -⟩
  · exact ⟨hk, hv⟩
  · exact h.2 c hc

/-- Writing a sound slot keeps the harts legal. -/
theorem setSlot_legal {s : State} (hp : paramsOk s.params = true) (h : hartsLegal s = true) (hk : s.cur < s.params.harts)
    {i : Nat} (hi : i < s.params.tlbEntries) {e : Slot} (he : slotSound s.params s.ram i e = true) :
    hartsLegal (s.setSlot i e) = true := by
  refine setHart_legal h hk ?_
  have hl := hart_legal hp h s.cur
  simp only [hartLegal, Bool.and_eq_true, List.all_eq_true, decide_eq_true_eq] at hl ⊢
  refine ⟨⟨hl.1.1, Sparse.wf_put _ _ _ hl.1.2⟩, fun c hc => ?_⟩
  rcases Sparse.mem_put hc with ⟨rfl, -⟩ | ⟨hc, -⟩
  · exact ⟨hi, by simp [he]⟩
  · exact hl.2 c hc

/-- A hit in a legal state leads into RAM (R222, 00_scope.md R15). -/
theorem hit_sound {s : State} (hp : paramsOk s.params = true) (h : hartsLegal s = true) (hf : s.freed = false) {op : Op}
    {vpn : Word} (hv : vpn.toNat < 2 ^ 52) (hit : tlbHit s op vpn = true) :
    biasSound s.ram (s.slotFor vpn).hostBias vpn = true := by
  have hlive := tagLive_of_hit hv hit
  have e : slotTag op (s.slotFor vpn) = vpn := by simpa [tlbHit] using hit
  have hl := hart_legal hp h s.cur
  simp only [hartLegal, Bool.and_eq_true, List.all_eq_true, decide_eq_true_eq, hf, Bool.false_or] at hl
  rcases Sparse.get_mem_or_default (flushedSlot s.params) (slotIndex s.params vpn) (s.hart s.cur).tlb with hm | hd
  · have hs : slotSound s.params s.ram (slotIndex s.params vpn) (s.slotFor vpn) = true := (hl.2 _ hm).2
    simp only [slotSound, Bool.and_eq_true] at hs
    have ht : tagSound s.params s.ram (slotIndex s.params vpn) (s.slotFor vpn) (slotTag op (s.slotFor vpn)) = true := by
      cases op
      · exact hs.1.1
      · exact hs.1.2
      · exact hs.2
    rw [tagSound, hlive, e] at ht
    simpa using ht
  · have hd' : s.slotFor vpn = flushedSlot s.params (slotIndex s.params vpn) := hd
    rw [hd', flushedSlot_dead hp] at hlive
    cases hlive

end Sys2Proof.Machine
end

