-- ==== Sys2Proof/Laws/Walker.lean ====
section
/-! SUPPORT. What a walk can do: its loads emit RamRead events only, its update at most one RamCas, its accesses are legal; and a
walk from a page-aligned root always ends. -/

namespace Sys2Proof.Machine

open Sys2Proof.Config

/-- The events of a walk. -/
def isWalkEvent : Event → Bool
  | .ramRead _ _ _ => true
  | .ramCas _ _ _ _ _ _ => true
  | _ => false

variable {v : View} {wp : WalkParams} {vaddr acc : Word} {log : List (Atom × Reply)} {K : Nat → Prop}

/-- What the loads of a walk end with: at most one RamRead for each level left; a leaf at level i after n - i of them, loaded
from RAM, with its checks passed. -/
theorem findLeaf_trace {n : Nat} {table : Word} {r : LeafResult} (h : (findLeaf v wp vaddr acc n table).Trace log r) :
    ∃ es, Trail v log es K ∧ (∀ e ∈ es, isRamRead e = true) ∧ es.length ≤ n ∧
      ∀ l, r = .leaf l → l.level < n ∧ es.length = n - l.level ∧ pteStep wp l.pte acc l.level = .leaf ∧
        physToHost v.ram l.ptePhys = some l.offset ∧ v.ram.holds l.offset.toNat wp.pteBytes = true := by
  induction n generalizing table log with
  | zero =>
    obtain ⟨rfl, rfl⟩ := h.done_inv
    exact ⟨[], .nil _ _, by simp, by simp, fun l hl => by cases hl⟩
  | succ n ih =>
    simp only [findLeaf] at h
    split at h
    · obtain ⟨rfl, rfl⟩ := h.done_inv
      exact ⟨[], .nil _ _, by simp, by simp, fun l hl => by cases hl⟩
    · next o ho =>
      obtain ⟨l1, l2, pte, rfl, h1, h2⟩ := Prog.Trace.bind_inv h
      obtain ⟨w, hr⟩ := loadPte_trace (K := K) h1
      split at h2
      · obtain ⟨rfl, rfl⟩ := h2.done_inv
        exact ⟨_, by simpa using w, by simp [isRamRead], by simp, fun l hl => by cases hl⟩
      · next hs =>
        obtain ⟨rfl, rfl⟩ := h2.done_inv
        refine ⟨_, by simpa using w, by simp [isRamRead], by simp, fun l hl => ?_⟩
        injection hl with hl
        subst hl
        exact ⟨Nat.lt_succ_self n, by simp, hs, ho, hr⟩
      · obtain ⟨es, w', he, hl, hleaf⟩ := ih h2
        refine ⟨_, w.append w', ?_, by simp; omega, fun l hl' => ?_⟩
        · intro e he'
          rcases List.mem_append.1 he' with he' | he'
          · simp at he'; subst he'; rfl
          · exact he e he'
        · obtain ⟨a, b, c, d⟩ := hleaf l hl'
          exact ⟨by omega, by simp; omega, c, d⟩

/-- The A/D update: nothing, or one RamCas of the leaf's PTE. -/
theorem updateAD_trace {l : Leaf} {x : Unit} (h : (updateAD v wp acc l).Trace log x) :
    (log = [] ∧ pteAccessed l.pte acc = l.pte) ∨
      (pteAccessed l.pte acc ≠ l.pte ∧
        ∃ ok, Trail v log [.ramCas v.hart (v.ram.physOf l.offset) wp.pteBytes l.pte (pteAccessed l.pte acc) ok] K) := by
  unfold updateAD at h
  split at h
  · next hn => obtain ⟨rfl, -⟩ := h.done_inv; exact .inl ⟨rfl, hn⟩
  · next hn =>
    obtain ⟨l1, l2, ok, rfl, h1, h2⟩ := Prog.Trace.bind_inv h
    obtain ⟨rfl, -⟩ := h2.done_inv
    exact .inr ⟨hn, ok, by simpa using (casPte_trace h1).1⟩

/-- What a walk can do. -/
theorem walk_trace {r : WalkResult} (h : (walk v wp vaddr acc).Trace log r) :
    ∃ es, Trail v log es K ∧ (∀ e ∈ es, isWalkEvent e = true) ∧
      (∀ why, r = .fault why → ∀ e ∈ es, isRamRead e = true) ∧
      (∀ paddr, r = .ok paddr → ∃ i < wp.levels, ∃ pte, paddr = leafPaddr wp pte vaddr i) := by
  unfold walk at h
  split at h
  · obtain ⟨l1, l2, lr, rfl, h1, h2⟩ := Prog.Trace.bind_inv h
    obtain ⟨es, w, he, -, hl⟩ := findLeaf_trace (K := K) h1
    have he' : ∀ e ∈ es, isWalkEvent e = true := by
      intro e hm
      have := he e hm
      cases e <;> simp_all [isRamRead, isWalkEvent]
    cases lr with
    | fault why =>
      obtain ⟨rfl, rfl⟩ := h2.done_inv
      exact ⟨es, by simpa using w, he', fun _ _ => he, fun p hp => by cases hp⟩
    | leaf l =>
      obtain ⟨l3, l4, x, rfl, h3, h4⟩ := Prog.Trace.bind_inv h2
      obtain ⟨rfl, rfl⟩ := h4.done_inv
      have hok : ∀ paddr, WalkResult.ok (leafPaddr wp l.pte vaddr l.level) = .ok paddr →
          ∃ i < wp.levels, ∃ pte, paddr = leafPaddr wp pte vaddr i := by
        intro p hp
        injection hp with hp
        exact ⟨l.level, (hl l rfl).1, l.pte, hp.symm⟩
      rcases updateAD_trace (K := K) h3 with ⟨rfl, -⟩ | ⟨-, ok, w'⟩
      · exact ⟨es, by simpa using w, he', fun _ hw => (by cases hw), hok⟩
      · refine ⟨_, w.append (by simpa using w'), ?_, fun _ hw => (by cases hw), hok⟩
        intro e hm
        rcases List.mem_append.1 hm with hm | hm
        · exact he' e hm
        · simp at hm; subst hm; rfl
  · obtain ⟨rfl, rfl⟩ := h.done_inv
    exact ⟨[], .nil _ _, by simp, by simp, fun p hp => by cases hp⟩

/-! ### Its accesses are legal, and it ends -/

variable {B C : Prop} {E : Refusal → Prop}

/-- A pointer's table is page-aligned (R153). -/
theorem pteStep_next_aligned {pte table : Word} {i : Nat} (h : pteStep wp pte acc i = .next table) : table &&& 0xFFF = 0 := by
  unfold pteStep at h
  split at h
  · cases h
  · split at h
    · split at h <;> cases h
    · injection h with h
      rw [← h]
      exact nextTable_aligned wp pte

/-- The loads of a walk: from a page-aligned table of a legal RAM every PTE lies in RAM whole. -/
theorem findLeaf_ok (hm : IsMode wp) (hr : C → RegionOk v.ram) {n : Nat} {table : Word} (ht : C → table &&& 0xFFF = 0) :
    (findLeaf v wp vaddr acc n table).Ok v B C E
      (fun r => ∀ l, r = .leaf l → l.level < n ∧ (C → v.ram.holds l.offset.toNat wp.pteBytes = true)) := by
  induction n generalizing table with
  | zero => exact fun l hl => by cases hl
  | succ n ih =>
    simp only [findLeaf]
    split
    · exact fun l hl => by cases hl
    · next o ho =>
      have hin : C → v.ram.holds o.toNat wp.pteBytes = true := fun c =>
        pte_holds (hr c (physToHost_some ho).1) ho hm.bounds.1 (pteAddress_aligned hm.bounds.1 (ht c) vaddr n)
      refine (loadPte_ok hin).bind fun pte _ => ?_
      split
      · exact fun l hl => by cases hl
      · intro l hl
        injection hl with hl
        subst hl
        exact ⟨Nat.lt_succ_self n, hin⟩
      · next hs => exact (ih fun _ => pteStep_next_aligned hs).mono fun r h l hl => ⟨by have := (h l hl).1; omega, (h l hl).2⟩

/-- A walk's accesses are legal; in a legal RAM, from a page-aligned root, it ends; its paddr keeps the page offset. -/
theorem walk_ok (hm : IsMode wp) (hr : C → RegionOk v.ram) (ht : C → v.ctx.root &&& 0xFFF = 0) :
    (walk v wp vaddr acc).Ok v B C E (fun r => ∀ p, r = .ok p → p.toNat % 4096 = vaddr.toNat % 4096) := by
  unfold walk
  split
  · refine (findLeaf_ok hm hr ht).bind fun r h => ?_
    cases r with
    | fault why => exact fun p hp => by cases hp
    | leaf l =>
      have hl := h l rfl
      refine Prog.Sat.bind (R := fun _ => True) ?_ fun _ _ p hp => ?_
      · unfold updateAD
        split
        · trivial
        · exact (casPte_ok hl.2).bind fun _ _ => trivial
      · injection hp with hp
        rw [← hp]
        exact leafPaddr_offset l.pte vaddr (by have := hm.bounds.2.2.2 l.level hl.1; omega) hm.bounds.2.1
  · exact fun p hp => by cases hp

end Sys2Proof.Machine
end

