-- ==== Sys2Proof/Laws/Access.lean ====
section
/-! SUPPORT. What an access can do: at most one slot of the running hart's TLB is filled for each page, one trap is the last event
exactly when it fails, its accesses to the machine are legal; and an access of a legal machine ends. -/

namespace Sys2Proof.Machine

open Sys2Proof.Config

theorem isTrap_of_walkEvent {e : Event} (h : isWalkEvent e = true) : isTrap e = false := by
  cases e <;> simp_all [isWalkEvent, isTrap]

theorem isTrap_of_legalCall {k : Nat} {d : Device} {e : Event} (h : LegalCall k d e) : isTrap e = false := by
  obtain ⟨off, n, h, -⟩ := h
  cases e <;> simp_all [deviceCallOf, isTrap]

variable {v : View} {op : Op} {vaddr paddr : Word} {n : Nat} {buf : List Byte} {log : List (Atom × Reply)}
  {r : Option (List Byte)} {K : Nat → Prop}

/-- A copy succeeds with its bytes and one event, if it ends. -/
theorem copy_trace {o : Word} (h : (copy v op o n buf).Trace log r) :
    ∃ data e, r = some data ∧ Trail v log [e] K ∧ isTrap e = false ∧ data.length = if op = .W then 0 else n := by
  cases op with
  | W =>
    obtain ⟨l, m, x, rfl, h1, h2⟩ := Prog.Trace.bind_inv h
    obtain ⟨rfl, rfl⟩ := h2.done_inv
    exact ⟨_, _, rfl, by simpa using (ramWrite_trace h1).1, rfl, rfl⟩
  | R =>
    obtain ⟨l, m, x, rfl, h1, h2⟩ := Prog.Trace.bind_inv h
    obtain ⟨rfl, rfl⟩ := h2.done_inv
    exact ⟨_, _, rfl, by simpa using (ramRead_trace h1).1, rfl, (ramRead_trace (K := K) h1).2.1⟩
  | X =>
    obtain ⟨l, m, x, rfl, h1, h2⟩ := Prog.Trace.bind_inv h
    obtain ⟨rfl, rfl⟩ := h2.done_inv
    exact ⟨_, _, rfl, by simpa using (ramRead_trace h1).1, rfl, (ramRead_trace (K := K) h1).2.1⟩

/-- The fill and the hook of a RAM hit. -/
theorem ramHit_trace {o : Word} {x : Unit} (h : (ramHit v op vaddr paddr o n).Trace log x) :
    Trail v log (if op = .W then [.jitInvalidate v.hart vaddr paddr n] else []) (· = slotIndex v.params (vpnOf vaddr)) := by
  obtain ⟨y, l, rfl, h1⟩ := Prog.Trace.prog_inv h
  have f := Trail.fill v op (vpnOf vaddr) (o - vaddr) y
  cases op with
  | W =>
    obtain ⟨z, rfl⟩ := emit_trace h1
    exact f.append (.emit v _ z _)
  | R => obtain ⟨rfl, -⟩ := h1.done_inv; exact f
  | X => obtain ⟨rfl, -⟩ := h1.done_inv; exact f

/-- Translation select emits walk events only and fills no slot. -/
theorem translate_trace {t : Translation} (h : (translate v op vaddr).Trace log t) :
    ∃ es, Trail v log es K ∧ ∀ e ∈ es, isWalkEvent e = true := by
  unfold translate at h
  split at h
  · obtain ⟨rfl, rfl⟩ := h.done_inv
    exact ⟨[], .nil _ _, by simp⟩
  · split at h
    · obtain ⟨rfl, rfl⟩ := h.done_inv
      exact ⟨[], .nil _ _, by simp⟩
    · obtain ⟨rfl, rfl⟩ := h.done_inv
      exact ⟨[], .nil _ _, by simp⟩
    · obtain ⟨l, m, w, rfl, h1, h2⟩ := Prog.Trace.bind_inv h
      obtain ⟨es, t1, he, -⟩ := walk_trace (K := K) h1
      cases w <;> obtain ⟨rfl, rfl⟩ := h2.done_inv <;> exact ⟨es, by simpa using t1, he⟩

/-- A failing access raises its trap. -/
theorem trapOut_trace {c : TrapClass} (h : (trapOut v c op vaddr).Trace log r) :
    r = none ∧ Trail v log [.trap v.hart (trapCause c op) vaddr] K := by
  obtain ⟨l, m, x, rfl, h1, h2⟩ := Prog.Trace.bind_inv h
  obtain ⟨rfl, rfl⟩ := h2.done_inv
  obtain ⟨z, rfl⟩ := emit_trace h1
  exact ⟨rfl, .emit v _ z K⟩

/-- How a single-page access ends. -/
def Ends1 (v : View) (op : Op) (vaddr : Word) (n : Nat) (log : List (Atom × Reply)) (r : Option (List Byte)) (K : Nat → Prop) :
    Prop :=
  ∃ es, (∀ e ∈ es, isTrap e = false) ∧
    match r with
    | some data => Trail v log es K ∧ data.length = if op = .W then 0 else n
    | none => ∃ c, Trail v log (es ++ [.trap v.hart (trapCause c op) vaddr]) K

/-- What came before the end of an access, put in front of it. -/
theorem Ends1.after {l : List (Atom × Reply)} {es : List Event} (a : Trail v l es K) (hes : ∀ e ∈ es, isTrap e = false)
    (h : Ends1 v op vaddr n log r K) : Ends1 v op vaddr n (l ++ log) r K := by
  obtain ⟨fs, hfs, h⟩ := h
  refine ⟨es ++ fs, fun e hm => (List.mem_append.1 hm).elim (hes e) (hfs e), ?_⟩
  cases r with
  | some data => exact ⟨a.append h.1, h.2⟩
  | none =>
    obtain ⟨c, h⟩ := h
    exact ⟨c, by rw [List.append_assoc]; exact a.append h⟩

theorem Ends1.trap {c : TrapClass} (h : (trapOut v c op vaddr).Trace log r) : Ends1 v op vaddr n log r K := by
  obtain ⟨rfl, t⟩ := trapOut_trace (K := K) h
  exact ⟨[], by simp, c, t⟩

theorem mmioHit_trace {k : Nat} (hb : bufOk op n buf) (h : (mmioHit v op vaddr paddr k n buf).Trace log r) :
    Ends1 v op vaddr n log r K := by
  unfold mmioHit at h
  split at h
  · exact h.not_refused.elim
  · next d hd =>
    obtain ⟨l, m, r1, rfl, h1, h2⟩ := Prog.Trace.bind_inv h
    have hb' : DirBuf (opDir op) n buf := by
      intro hdir
      cases op <;> simp_all [opDir, bufOk]
    obtain ⟨es, w, he, hlen⟩ := mmio_trace (K := K) hb' h1
    refine .after w (fun e hm => isTrap_of_legalCall (he e hm)) ?_
    cases r1 with
    | some data =>
      obtain ⟨rfl, rfl⟩ := h2.done_inv
      refine ⟨[], by simp, .nil _ _, ?_⟩
      rw [hlen data rfl]
      cases op <;> simp [opDir]
    | none => exact .trap h2

theorem accessPhys_trace (hb : bufOk op n buf) (h : (accessPhys v op vaddr paddr n buf).Trace log r) :
    Ends1 v op vaddr n log r (· = slotIndex v.params (vpnOf vaddr)) := by
  unfold accessPhys at h
  split at h
  · obtain ⟨l, m, x, rfl, h1, h2⟩ := Prog.Trace.bind_inv h
    obtain ⟨data, e, rfl, w, ht, hl⟩ := copy_trace (K := (· = slotIndex v.params (vpnOf vaddr))) h2
    refine .after (ramHit_trace h1) (fun x hx => ?_) ⟨[e], by simpa using ht, w, hl⟩
    split at hx
    · simp at hx; subst hx; rfl
    · simp at hx
  · split at h
    · exact mmioHit_trace hb h
    · exact .trap h

/-- What a single-page access can do. -/
theorem access1_trace (hb : bufOk op n buf) (h : (access1 v op vaddr n buf).Trace log r) :
    Ends1 v op vaddr n log r (· = slotIndex v.params (vpnOf vaddr)) := by
  unfold access1 at h
  split at h
  · exact h.not_refused.elim
  · obtain ⟨y, l, rfl, h0⟩ := Prog.Trace.prog_inv h
    clear h
    refine Ends1.after (l := [_]) (Trail.plain v rfl y _) (by simp) ?_
    split at h0
    · obtain ⟨data, e, rfl, w, ht, hl⟩ := copy_trace (K := (· = slotIndex v.params (vpnOf vaddr))) h0
      exact ⟨[e], by simpa using ht, w, hl⟩
    · obtain ⟨l, m, t, rfl, h1, h2⟩ := Prog.Trace.bind_inv h0
      obtain ⟨es, w, he⟩ := translate_trace (K := (· = slotIndex v.params (vpnOf vaddr))) h1
      refine .after w (fun e hm => isTrap_of_walkEvent (he e hm)) ?_
      cases t with
      | trap c => exact .trap h2
      | phys paddr => exact accessPhys_trace hb h2

/-- The slots an access can change: those of its first page and, when it crosses, of its second (R181). -/
def accessSlots (p : Params) (vaddr : Word) (n : Nat) (i : Nat) : Prop :=
  i = slotIndex p (vpnOf vaddr) ∨ crosses vaddr n = true ∧ i = slotIndex p (vpnOf (secondAddr p vaddr))

/-- The first part of a crossing access is shorter than the access, and both parts have their buffers. -/
theorem parts_buf (hc : crosses vaddr n = true) (hb : bufOk op n buf) :
    bufOk op (firstPart vaddr) (buf.take (firstPart vaddr)) ∧
      bufOk op (n - firstPart vaddr) (buf.drop (firstPart vaddr)) ∧ firstPart vaddr < n := by
  have hcn : firstPart vaddr < n := by
    simp only [crosses, decide_eq_true_eq] at hc
    have := pageOffset_eq vaddr
    simp only [firstPart, pageSize] at hc ⊢
    omega
  have h : buf.length = _ := hb
  refine ⟨?_, ?_, hcn⟩
  · simp only [bufOk, List.length_take, h]
    split <;> omega
  · simp only [bufOk, List.length_drop, h]
    split <;> omega

/-- What an access can do: on success no trap and as many bytes as were asked for; on failure one trap, the last event, whose
tval is the vaddr of the part that failed (60_exceptions.md R306, R308). -/
theorem access_trace (hb : bufOk op n buf) (h : (access v op vaddr n buf).Trace log r) :
    ∃ es, (∀ e ∈ es, isTrap e = false) ∧
      match r with
      | some data => Trail v log es (accessSlots v.params vaddr n) ∧ data.length = if op = .W then 0 else n
      | none => ∃ c tval, (tval = vaddr ∨ crosses vaddr n = true ∧ tval = secondAddr v.params vaddr) ∧
          Trail v log (es ++ [.trap v.hart (trapCause c op) tval]) (accessSlots v.params vaddr n) := by
  have m1 : ∀ i, i = slotIndex v.params (vpnOf vaddr) → accessSlots v.params vaddr n i := fun i hi => .inl hi
  unfold access at h
  split at h
  · next hc =>
    obtain ⟨hb1, hb2, hcn⟩ := parts_buf hc hb
    have m2 : ∀ i, i = slotIndex v.params (vpnOf (secondAddr v.params vaddr)) → accessSlots v.params vaddr n i :=
      fun i hi => .inr ⟨hc, hi⟩
    obtain ⟨l, m, r1, rfl, h1, h2⟩ := Prog.Trace.bind_inv h
    obtain ⟨es, hes, e1⟩ := access1_trace hb1 h1
    cases r1 with
    | none =>
      obtain ⟨rfl, rfl⟩ := h2.done_inv
      obtain ⟨c, t1⟩ := e1
      exact ⟨es, hes, c, vaddr, .inl rfl, by simpa using t1.mono m1⟩
    | some lo =>
      obtain ⟨l2, l3, r2, rfl, h3, h4⟩ := Prog.Trace.bind_inv h2
      obtain ⟨fs, hfs, e2⟩ := access1_trace hb2 h3
      have hall : ∀ e ∈ es ++ fs, isTrap e = false := fun e hm => (List.mem_append.1 hm).elim (hes e) (hfs e)
      cases r2 with
      | none =>
        obtain ⟨rfl, rfl⟩ := h4.done_inv
        obtain ⟨c, t2⟩ := e2
        refine ⟨es ++ fs, hall, c, _, .inr ⟨hc, rfl⟩, ?_⟩
        rw [List.append_assoc, List.append_nil]
        exact (e1.1.mono m1).append (t2.mono m2)
      | some hi =>
        obtain ⟨rfl, rfl⟩ := h4.done_inv
        refine ⟨es ++ fs, hall, by simpa using (e1.1.mono m1).append (e2.1.mono m2), ?_⟩
        rw [List.length_append, e1.2, e2.2]
        split <;> omega
  · obtain ⟨es, hes, e1⟩ := access1_trace hb h
    refine ⟨es, hes, ?_⟩
    cases r with
    | none =>
      obtain ⟨c, t⟩ := e1
      exact ⟨c, vaddr, .inl rfl, t.mono m1⟩
    | some data => exact ⟨e1.1.mono m1, e1.2⟩

/-! ### Its accesses are legal, and it ends -/

/-- What of a legal state a command relies on: RAM's region (R29), the root's alignment (R23), the devices' sizes (R31). -/
structure ViewOk (v : View) : Prop where
  region  : RegionOk v.ram
  root    : v.ctx.root &&& 0xFFF = 0
  devices : ∀ d ∈ v.params.devices, opBytes d.minOp ≤ opBytes d.maxOp

theorem devicesOk_sizes {ds : List Device} (h : devicesOk ds = true) : ∀ d ∈ ds, opBytes d.minOp ≤ opBytes d.maxOp := by
  induction ds with
  | nil => simp
  | cons d ds ih =>
    simp only [devicesOk, Bool.and_eq_true, decide_eq_true_eq] at h
    simpa using ⟨h.1.1, ih h.2⟩

/-- A legal state's view is legal. -/
theorem viewOk_of_legal {s : State} (h : Legal s) : ViewOk s.view where
  region := regionOk_of_legal h.2.1
  root := by
    have := hart_legal h.1 h.2.2.1 s.cur
    simp only [hartLegal, Bool.and_eq_true, beq_iff_eq] at this
    exact this.1.1
  devices := by
    have := h.1
    simp only [paramsOk, Bool.and_eq_true] at this
    exact devicesOk_sizes this.1.2

variable {B C : Prop} {E : Refusal → Prop}

theorem copy_ok {o : Word} (hb : C → bufOk op n buf) (h : C → v.ram.holds o.toNat n = true) :
    (copy v op o n buf).Ok v B C E (fun _ => True) := by
  cases op with
  | W => exact (ramWrite_ok fun c => by have : buf.length = _ := hb c; rw [this]; exact h c).bind fun _ _ => trivial
  | R => exact (ramRead_ok h).bind fun _ _ => trivial
  | X => exact (ramRead_ok h).bind fun _ _ => trivial

theorem trapOut_ok {c : TrapClass} : (trapOut v c op vaddr).Ok v B C E (fun _ => True) :=
  (emit_ok (by exact ⟨rfl, ⟨c, op, rfl⟩, fun _ _ _ _ hd => by cases hd⟩)).bind fun _ _ => trivial

theorem findMmio_some {ds : List Device} {k : Nat} (h : findMmio ds paddr = some k) : ∃ d, ds[k]? = some d := by
  obtain ⟨hk, -⟩ := List.findIdx?_eq_some_iff_getElem.1 h
  exact ⟨_, List.getElem?_eq_getElem hk⟩

/-- A single-page access, its accesses legal; in a legal machine it ends, or is refused. -/
theorem access1_ok (hE : E .mmioWindow ∧ E .reservedPrivilege) (hC : C → ViewOk v ∧ vaddr.toNat % 4096 + n ≤ 4096 ∧ n ≤ 16)
    (hb : B → bufOk op n buf) (hCB : C → B) : (access1 v op vaddr n buf).Ok v B C E (fun _ => True) := by
  have hbc : C → bufOk op n buf := fun c => hb (hCB c)
  unfold access1
  split
  · exact hE.2
  · refine ⟨vpnOf_lt vaddr, fun y hy => ?_⟩
    simp only [Prog.done_bind]
    split
    · next hit =>
      refine copy_ok hbc fun c => ?_
      have : biasSound v.ram y.toLookup.2 (vpnOf vaddr) = true := by simpa [replySound, hit] using hy c
      exact holds_of_sound this (hC c).2.1
    · have ht : (translate v op vaddr).Ok v B C E (fun t => ∀ p, t = .phys p → p.toNat % 4096 = vaddr.toNat % 4096) := by
        unfold translate
        split
        · exact fun p hp => by injection hp with hp; rw [hp]
        · split
          · exact fun p hp => by injection hp with hp; rw [hp]
          · exact fun p hp => by cases hp
          · next wp hwp =>
            refine (walk_ok (modeParams_paged hwp) (fun c => (hC c).1.region) fun c => (hC c).1.root).bind fun w hw => ?_
            cases w with
            | ok paddr => exact fun p hp => by injection hp with hp; rw [← hp]; exact hw paddr rfl
            | fault why => exact fun p hp => by cases hp
      refine ht.bind fun t hp => ?_
      cases t with
      | trap c => exact trapOut_ok
      | phys paddr =>
        have hp := hp paddr rfl
        simp only [accessPhys]
        split
        · next o ho =>
          refine Prog.Sat.bind (R := fun _ => True) ⟨fun hr => biasSound_of_phys hr ho hp, fun _ _ => ?_⟩ fun _ _ =>
            copy_ok hbc fun c => part_holds ((hC c).1.region (physToHost_some ho).1) ho (by rw [hp]; exact (hC c).2.1)
          cases op with
          | W => exact emit_ok (by exact ⟨rfl, trivial, fun _ _ _ _ hd => by cases hd⟩)
          | R => trivial
          | X => trivial
        · split
          · next k hk =>
            obtain ⟨d, hd⟩ := findMmio_some hk
            simp only [mmioHit, hd]
            refine (mmio_ok hd hE.1 (fun b hdir => ?_) fun c =>
              mmioDepth_ok ((hC c).1.devices d (List.mem_of_getElem? hd)) _ (hC c).2.2).bind fun r _ => ?_
            · have := hb b
              cases op <;> simp_all [opDir, bufOk]
            · cases r with
              | some data => trivial
              | none => exact trapOut_ok
          · exact trapOut_ok

/-- An ACCESS command, its accesses legal; in a legal machine it ends, or is refused. -/
theorem accessCommand_ok (hE : E .mmioWindow ∧ E .reservedPrivilege ∧ E .vaddrWidth) (hC : C → ViewOk v ∧ n ≤ 16)
    (hb : B → bufOk op n buf) (hCB : C → B) : (accessCommand v op vaddr n buf).Ok v B C E (fun _ => True) := by
  unfold accessCommand
  split
  · refine Prog.Sat.bind (R := fun _ => True) ?_ fun _ _ => trivial
    unfold access
    split
    · next hc =>
      have hp := fun b => parts_buf hc (hb b)
      have ho := pageOffset_eq vaddr
      have h1 : firstPart vaddr = 4096 - vaddr.toNat % 4096 := by simp only [firstPart, ho, pageSize]
      have hcn : firstPart vaddr < n := by
        simp only [crosses, decide_eq_true_eq, ho, pageSize] at hc
        omega
      refine (access1_ok ⟨hE.1, hE.2.1⟩ (fun c => ⟨(hC c).1, by omega, by have := (hC c).2; omega⟩)
        (fun b => (hp b).1) hCB).bind fun r _ => ?_
      cases r with
      | none => trivial
      | some lo =>
        refine Prog.Sat.bind (R := fun _ => True) (access1_ok ⟨hE.1, hE.2.1⟩
          (fun c => ⟨(hC c).1, ?_, by have := (hC c).2; omega⟩) (fun b => (hp b).2.1) hCB) fun r _ => ?_
        · -- the second part begins at a page
          have h2 := (hC c).2
          have hz : (secondAddr v.params vaddr).toNat % 4096 = 0 := by
            have hv := vaddr.isLt
            unfold secondAddr wrapAddr
            rw [BitVec.toNat_and, BitVec.toNat_add, BitVec.toNat_ofNat, h1]
            cases v.params.xlen
            · rw [show (mask (xlenBits .x32)).toNat = 2 ^ 32 - 1 from rfl, Nat.and_two_pow_sub_one_eq_mod]
              omega
            · rw [show (mask (xlenBits .x64)).toNat = 2 ^ 64 - 1 from rfl, Nat.and_two_pow_sub_one_eq_mod]
              omega
          omega
        · cases r <;> trivial
    · next hc =>
      refine access1_ok ⟨hE.1, hE.2.1⟩ (fun c => ⟨(hC c).1, ?_, (hC c).2⟩) hb hCB
      simp only [crosses, decide_eq_true_eq, pageOffset_eq, pageSize] at hc
      omega
  · exact hE.2.2

/-! ### The commands -/

/-- A WALK's accesses are legal; from a legal RAM and a page-aligned root it ends, or is refused (R140). -/
theorem walkCommand_ok {acc : Word} (hE : E .walkUnpaged) (hC : C → ViewOk v) :
    (walkCommand v vaddr acc).Ok v B C E (fun _ => True) := by
  unfold walkCommand
  split
  · next wp hwp =>
    exact (walk_ok (modeParams_paged hwp) (fun c => (hC c).region) fun c => (hC c).root).bind fun _ _ => trivial
  · exact hE
  · exact hE

/-- An adapter call's accesses are legal; of at most 16 bytes on a legal device it ends, or is refused (44_mmio.md R256, R257). -/
theorem mmioCommand_ok {dir : Dir} {off dev : Word} (hE : E .mmioWindow ∧ E .noSuchDevice) (hC : C → ViewOk v ∧ n ≤ 16)
    (hb : B → DirBuf dir n buf) : (mmioCommand v dir off dev n buf).Ok v B C E (fun _ => True) := by
  refine Prog.Sat.bind (R := fun _ => True) ?_ fun _ _ => trivial
  unfold mmioCall
  split
  · next d hd =>
    exact (mmio_ok hd hE.1 hb fun c => mmioDepth_ok ((hC c).1.devices d (List.mem_of_getElem? hd)) _ (hC c).2).mono
      fun _ _ => trivial
  · exact hE.2

/-- The value of an ACCESS command is the response of its access (42_dispatcher.md R192). -/
theorem accessCommand_trace {x : Value} (h : (accessCommand v op vaddr n buf).Trace log x) :
    ∃ r, x = response r ∧ (access v op vaddr n buf).Trace log r := by
  unfold accessCommand at h
  split at h
  · obtain ⟨l, m, r, rfl, h1, h2⟩ := Prog.Trace.bind_inv h
    obtain ⟨rfl, rfl⟩ := h2.done_inv
    exact ⟨r, rfl, by simpa using h1⟩
  · exact h.not_refused.elim

/-- The value of a WALK is its walk's result. -/
theorem walkCommand_trace {acc : Word} {x : Value} (h : (walkCommand v vaddr acc).Trace log x) :
    ∃ wp r, modeParams v.ctx.mode = .paged wp ∧ x = .walk r ∧ (walk v wp vaddr acc).Trace log r := by
  unfold walkCommand at h
  split at h
  · next wp hwp =>
    obtain ⟨l, m, r, rfl, h1, h2⟩ := Prog.Trace.bind_inv h
    obtain ⟨rfl, rfl⟩ := h2.done_inv
    exact ⟨wp, r, hwp, rfl, by simpa using h1⟩
  · exact h.not_refused.elim
  · exact h.not_refused.elim

/-- The value of an adapter call is the response of the adapter. -/
theorem mmioCommand_trace {dir : Dir} {off dev : Word} {x : Value} (h : (mmioCommand v dir off dev n buf).Trace log x) :
    ∃ r d, x = response r ∧ v.params.devices[dev.toNat]? = some d ∧
      (mmio v dev.toNat d mmioDepth dir off n buf).Trace log r := by
  obtain ⟨l, m, r, rfl, h1, h2⟩ := Prog.Trace.bind_inv h
  obtain ⟨rfl, rfl⟩ := h2.done_inv
  unfold mmioCall at h1
  split at h1
  · next d hd => exact ⟨r, d, rfl, hd, by simpa using h1⟩
  · exact h1.not_refused.elim

end Sys2Proof.Machine
end

