-- ==== Sys2Proof/Laws/Run.lean ====
section
/-! SUPPORT. What the accesses of a command can change, and how a program is cut at its shared accesses. `Among s t log H W`: t is s after the
running hart made the accesses of log, while the harts H went on and agents outside the harts wrote RAM offsets W. -/

namespace Sys2Proof.Machine

open Sys2Proof.Config

/-- `t` is `s` after the running hart made the accesses of `log`, while the harts H went on with their own commands and other
agents wrote RAM offsets W. -/
structure Among (s t : State) (log : List (Atom × Reply)) (H W : Nat → Prop) : Prop where
  params   : t.params = s.params
  failed   : t.failed = s.failed
  freed    : t.freed = s.freed
  cur      : t.cur = s.cur
  present  : t.ram.present = s.ram.present
  begin    : t.ram.begin = s.ram.begin
  size     : t.ram.size = s.ram.size
  hart     : (∀ op vpn bias r, (Atom.fill op vpn bias, r) ∉ log) → t.hart s.cur = s.hart s.cur
  ctx      : (t.hart s.cur).ctx = (s.hart s.cur).ctx
  slots    : ∀ i, (∀ op vpn bias r, (Atom.fill op vpn bias, r) ∈ log → i ≠ slotIndex s.params vpn) →
               t.slot s.cur i = s.slot s.cur i
  harts    : ∀ h, h ≠ s.cur → ¬ H h → t.hart h = s.hart h
  history  : ∃ es, t.history = s.history ++ es ∧ (∀ e ∈ es, e ∈ eventsOf log ∨ H (eventHart e) ∧ EventOk s.ram e) ∧
               ((∀ e ∈ eventsOf log, eventHart e = s.cur) → es.filter (fun e => eventHart e == s.cur) = eventsOf log)
  returned : ∃ rs, t.returned = s.returned ++ rs ∧ ∀ r ∈ rs, H r.hart
  pending  : ∀ h, ¬ H h → t.pending.filter (fun r => r.hart == h) = s.pending.filter (fun r => r.hart == h)
  running  : ∀ h, ¬ H h → t.runningOf h = s.runningOf h
  bytes    : ∀ o, t.ramByte o ≠ s.ramByte o → W o ∨ (∃ c ∈ log, Stores o c) ∨ ∃ h, H h
  data     : (∀ o, ∀ c ∈ log, Stores o c → o < s.ram.size.toNat) → DataOk s.ram → DataOk t.ram

variable {s t u : State} {log l m : List (Atom × Reply)} {H W : Nat → Prop}

theorem Among.region (a : Among s t log H W) : (⟨t.ram.present, t.ram.begin, t.ram.size, []⟩ : Ram) =
    ⟨s.ram.present, s.ram.begin, s.ram.size, []⟩ := by rw [a.present, a.begin, a.size]

/-- A command sees the same machine before and after. -/
theorem Among.view (a : Among s t log H W) : t.view = s.view := by
  simp only [State.view, State.ctx, a.cur, a.params, a.ctx]
  congr 1
  exact a.region

theorem Among.refl (s : State) (H W : Nat → Prop) : Among s s [] H W where
  params := rfl
  failed := rfl
  freed := rfl
  cur := rfl
  present := rfl
  begin := rfl
  size := rfl
  hart _ := rfl
  ctx := rfl
  slots _ _ := rfl
  harts _ _ _ := rfl
  history := ⟨[], by simp⟩
  returned := ⟨[], by simp⟩
  pending _ _ := rfl
  running _ _ := rfl
  bytes _ h := absurd rfl h
  data _ h := h

theorem Among.trans (a : Among s t l H W) (b : Among t u m H W) : Among s u (l ++ m) H W where
  params := b.params.trans a.params
  failed := b.failed.trans a.failed
  freed := b.freed.trans a.freed
  cur := b.cur.trans a.cur
  present := b.present.trans a.present
  begin := b.begin.trans a.begin
  size := b.size.trans a.size
  hart h := by
    rw [← a.hart fun op vpn bias r hm => h op vpn bias r (by simp [hm]), ← a.cur]
    exact b.hart fun op vpn bias r hm => h op vpn bias r (by simp [hm])
  ctx := by rw [← a.ctx, ← a.cur]; exact b.ctx
  slots i h := by
    rw [← a.slots i fun op vpn bias r hm => h op vpn bias r (by simp [hm]), ← a.cur]
    exact b.slots i fun op vpn bias r hm => by rw [a.params]; exact h op vpn bias r (by simp [hm])
  harts h hh hn := (b.harts h (a.cur ▸ hh) hn).trans (a.harts h hh hn)
  history := by
    obtain ⟨es, h1, h2, h3⟩ := a.history
    obtain ⟨fs, k1, k2, k3⟩ := b.history
    refine ⟨es ++ fs, by rw [k1, h1, List.append_assoc], fun e he => ?_, fun h => ?_⟩
    · rw [eventsOf_append, List.mem_append]
      rcases List.mem_append.1 he with he | he
      · exact (h2 e he).imp_left .inl
      · exact (k2 e he).imp .inr fun k => ⟨k.1, (EventOk.congr a.present a.begin a.size e).1 k.2⟩
    · rw [a.cur] at k3
      rw [eventsOf_append] at h ⊢
      rw [List.filter_append, h3 fun e he => h e (List.mem_append_left _ he), k3 fun e he => h e (List.mem_append_right _ he)]
  returned := by
    obtain ⟨es, h1, h2⟩ := a.returned
    obtain ⟨fs, k1, k2⟩ := b.returned
    exact ⟨es ++ fs, by rw [k1, h1, List.append_assoc], fun r hr => (List.mem_append.1 hr).elim (h2 r) (k2 r)⟩
  pending h hh := (b.pending h hh).trans (a.pending h hh)
  running h hh := (b.running h hh).trans (a.running h hh)
  bytes o h := by
    by_cases e : u.ramByte o = t.ramByte o
    · rcases a.bytes o (e ▸ h) with w | ⟨c, hc, hs⟩ | w
      · exact .inl w
      · exact .inr (.inl ⟨c, by simp [hc], hs⟩)
      · exact .inr (.inr w)
    · rcases b.bytes o e with w | ⟨c, hc, hs⟩ | w
      · exact .inl w
      · exact .inr (.inl ⟨c, by simp [hc], hs⟩)
      · exact .inr (.inr w)
  data h hd := b.data (fun o c hc hs => by rw [a.size]; exact h o c (by simp [hc]) hs)
    (a.data (fun o c hc hs => h o c (by simp [hc]) hs) hd)

theorem Among.mono {H' W' : Nat → Prop} (a : Among s t log H W) (hH : ∀ h, H h → H' h) (hW : ∀ o, W o → W' o) :
    Among s t log H' W' :=
  { a with
    harts := fun h hh hn => a.harts h hh fun k => hn (hH h k)
    history := by
      obtain ⟨es, h1, h2, h3⟩ := a.history
      exact ⟨es, h1, fun e he => (h2 e he).imp_right fun k => ⟨hH _ k.1, k.2⟩, h3⟩
    returned := by
      obtain ⟨rs, h1, h2⟩ := a.returned
      exact ⟨rs, h1, fun r hr => hH _ (h2 r hr)⟩
    pending := fun h hh => a.pending h fun k => hh (hH h k)
    running := fun h hh => a.running h fun k => hh (hH h k)
    bytes := fun o ho => (a.bytes o ho).imp (hW o) (.imp_right fun ⟨h, k⟩ => ⟨h, hH h k⟩) }

/-- An operation that changes nothing of a hart and RAM bytes of P only. -/
theorem Among.of_stored {P : Nat → Prop} {log : List (Atom × Reply)} (a : Stored s t P)
    (hev : eventsOf log = []) (hP : ∀ o, P o → W o ∧ o < s.ram.size.toNat ∨ ∃ c ∈ log, Stores o c) : Among s t log H W := by
  have e := a.same
  have hh : t.hart = s.hart := by rw [e]; rfl
  have hs : t.slot = s.slot := by rw [e]; rfl
  refine ⟨by rw [e], by rw [e], by rw [e], by rw [e], by rw [e], by rw [e], by rw [e], fun _ => by rw [hh], by rw [hh],
    fun _ _ => by rw [hs], fun _ _ _ => by rw [hh], ⟨[], by rw [e]; simp [hev]⟩, ⟨[], by rw [e]; simp⟩, fun _ _ => by rw [e],
    fun _ _ => by rw [e]; rfl, fun o h => ?_, fun hlog hd => a.data (fun o ho => ?_) hd⟩
  · exact (hP o (a.bytes o h)).elim (fun w => .inl w.1) fun w => .inr (.inl w)
  · exact (hP o ho).elim (fun w => w.2) fun ⟨c, hc, hs⟩ => hlog o c hc hs

/-- One access of the running hart. -/
theorem perform_among (x : Atom) (s : State) (H W : Nat → Prop) :
    Among s (perform x s).2 [(x, (perform x s).1)] H W := by
  cases x with
  | lookup op vpn => exact { Among.refl s H W with
      slots := fun _ _ => rfl, history := ⟨[], by simp [perform, eventsOf]⟩, hart := fun _ => rfl,
      bytes := fun _ h => absurd rfl h, data := fun _ h => h }
  | emit e =>
    refine { Among.refl s H W with
      slots := fun _ _ => rfl, hart := fun _ => rfl, history := ⟨[e], rfl, by simp [eventsOf], fun h => ?_⟩,
      bytes := fun _ h => absurd rfl h, data := fun _ h => h }
    simpa [eventsOf] using h
  | fill op vpn bias =>
    refine { Among.refl s H W with
      hart := fun h => absurd (List.mem_singleton.2 rfl) (h op vpn bias _)
      ctx := tlbFill_hart_ctx s op vpn bias s.cur
      slots := fun i h => ?_
      harts := fun h hh _ => (setSlot_hart s _ _ h).trans (if_neg hh)
      history := ⟨[], by simp [perform, eventsOf]⟩
      bytes := fun _ h => absurd rfl h, data := fun _ h => h }
    refine (tlbFill_slot s op vpn bias s.cur i).trans (if_neg fun k => ?_)
    exact h op vpn bias _ (List.mem_singleton.2 rfl) k.2
  | readByte o => exact .of_stored (Stored.refl s (fun _ => False)) rfl (by simp)
  | readWord o n => exact .of_stored (Stored.refl s (fun _ => False)) rfl (by simp)
  | pteOrder => exact .of_stored (Stored.refl s (fun _ => False)) rfl (by simp)
  | writeByte o b => exact .of_stored (setRamByte_stored s o b) rfl fun j hj => .inr ⟨_, List.mem_singleton.2 rfl, hj⟩
  | cas o n e d => exact .of_stored (casWord_stored o n e d s) rfl fun j hj => .inr ⟨_, List.mem_singleton.2 rfl, hj⟩
  | device call =>
    have h := (deviceDraw_same call s).1
    have e : (perform (.device call) s).2 = { s with env := (deviceDraw call s).2.env } := h
    rw [e]
    exact { Among.refl s H W with
      slots := fun _ _ => rfl, hart := fun _ => rfl, history := ⟨[], by simp [eventsOf]⟩
      bytes := fun _ h => absurd rfl h, data := fun _ h => h }

theorem perform_others (x : Atom) (s : State) : (perform x s).2.env.others = s.env.others := by
  cases x with
  | cas o n e d => show (casWord o n e d s).2.env.others = _; rw [(casWord_stored o n e d s).same]
  | device call => exact (deviceDraw_same call s).2
  | _ => rfl

/-- A lookup of a legal state answers soundly. -/
theorem perform_sound {x : Atom} {B : Prop} (hp : paramsOk s.params = true) (h : hartsLegal s = true) (hf : s.freed = false)
    (hx : AtomOk s.view B x) : replySound s.ram x (perform x s).1 = true := by
  cases x with
  | lookup op vpn =>
    cases hit : tlbHit s op vpn with
    | false => simp [replySound, perform, Reply.toLookup, hit]
    | true => simp [replySound, perform, Reply.toLookup, hit, hit_sound hp h hf hx hit]
  | _ => rfl

/-! ### A whole run -/

/-- Undisturbed, nobody else acts. -/
theorem interfere_quiet (h : Quiet s) : s.interfere = s := by
  unfold State.interfere
  rw [show s.env.others = [] from h]

theorem Quiet.perform (h : Quiet s) (x : Atom) : Quiet (perform x s).2 := (perform_others x s).trans h

/-- Undisturbed, a command is its accesses one after another. -/
theorem run_quiet {α : Type} (p : Prog α) (h : Quiet s) : p.run s = p.runOn perform s := by
  induction p generalizing s with
  | op x k ih =>
    show (k _).runOn performAmong _ = (k _).runOn Machine.perform _
    have e : performAmong x s = Machine.perform x s := by rw [performAmong, interfere_quiet h]; simp
    rw [e]
    exact ih _ (h.perform x)
  | _ => rfl

theorem run_bind {α β : Type} (p : Prog α) (f : α → Prog β) (s : State) :
    (p.bind f).run s = (p.run s).bind fun a t => (f a).run t := Prog.runOn_bind _ p f s

@[simp] theorem run_done {α : Type} (a : α) (s : State) : (Prog.done a).run s = .done a s := rfl
@[simp] theorem run_fault {α : Type} (e : Fault) (s : State) : (Prog.fault e : Prog α).run s = .fault e := rfl
@[simp] theorem run_refused {α : Type} (e : Refusal) (s : State) : (Prog.refused e : Prog α).run s = .refused e := rfl
theorem run_op {α : Type} (x : Atom) (k : Reply → Prog α) (s : State) :
    (Prog.op x k).run s = (k (performAmong x s).1).run (performAmong x s).2 := rfl

/-! ### A PTE load that may tear -/

theorem readEach_undisturbed (s : State) (o : Nat) (is : List Nat) :
    (readEach o is).runOn perform s = .done (is.map fun i => (i, s.ramByte (o + i))) s := by
  induction is with
  | nil => rfl
  | cons i is ih =>
    show ((readEach o is).bind _).runOn perform s = _
    rw [Prog.runOn_bind, ih]
    rfl

theorem lookup_map_pair (f : Nat → Byte) {is : List Nat} {i : Nat} (h : i ∈ is) :
    (is.map fun j => (j, f j)).lookup i = some (f i) := by
  induction is with
  | nil => cases h
  | cons j is ih =>
    by_cases e : i = j
    · subst e; simp
    · have h : i ∈ is := by simpa [e] using h
      simp [List.lookup, beq_eq_false_iff_ne.2 e, ih h]

theorem bytesAt_eq_map (s : State) (o n : Nat) : s.bytesAt o n = (List.range n).map fun i => s.ramByte (o + i) := by
  induction n generalizing o with
  | zero => rfl
  | succ n ih =>
    rw [State.bytesAt, ih, List.range_succ_eq_map, List.map_cons, List.map_map]
    simp [Function.comp_def, Nat.add_comm, Nat.add_left_comm]

/-- Undisturbed, the order of the reads does not matter: the load gives the word that stands there (20_memory.md R58). -/
theorem readTorn_undisturbed (s : State) (o n : Nat) : (readTorn o n).runOn perform s = .done (s.wordAt o n) s := by
  show ((readEach o (byteOrder n s.pteOrder)).bind _).runOn perform s = _
  rw [Prog.runOn_bind, readEach_undisturbed]
  show RunOf.done (leWord (gathered n _)) s = _
  congr 1
  rw [State.wordAt, bytesAt_eq_map, gathered]
  congr 1
  refine List.map_congr_left fun i hi => ?_
  rw [lookup_map_pair (fun i => s.ramByte (o + i)) ((byteOrder_perm n s.pteOrder).mem_iff.2 hi)]
  rfl

/-- The accesses up to the next shared one, then the rest. -/
theorem runOn_settle {α : Type} (p : Prog α) (s : State) :
    (p.settle s).prog.runOn perform (p.settle s).state = p.runOn perform s := by
  induction p generalizing s with
  | op x k ih =>
    by_cases h : x.shared = true
    · simp [Prog.settle, h]
    · simp only [Prog.settle, h]
      exact ih _ _
  | _ => rfl

/-- The replies of those accesses lead to the rest of the program. -/
theorem after_settle {α : Type} (p : Prog α) (s : State) : p.after (p.settle s).seen = (p.settle s).prog := by
  induction p generalizing s with
  | op x k ih =>
    by_cases h : x.shared = true
    · simp [Prog.settle, h, Prog.after]
    · simp only [Prog.settle, h]
      exact ih _ _
  | _ => rfl

/-- Settling is own accesses only, and they meet what the program meets. -/
theorem settle_among {α : Type} {G : Atom → Reply → Prop} {Q : Atom → Prop} {F : Fault → Prop} {E : Refusal → Prop}
    {R : α → Prop} {p : Prog α} (hp : p.Sat G Q F E R) (hG : ∀ x r, G x r) (s : State) (H W : Nat → Prop) :
    ∃ l, Among s (p.settle s).state l H W ∧ l.map Prod.snd = (p.settle s).seen ∧
      (p.settle s).state.env.others = s.env.others ∧ (∀ c ∈ l, Q c.1) ∧ (p.settle s).prog.Sat G Q F E R := by
  induction p generalizing s with
  | op x k ih =>
    by_cases h : x.shared = true
    · have e : (Prog.op x k).settle s = ⟨.op x k, [], s⟩ := by simp only [Prog.settle, h, if_true]
      rw [e]
      exact ⟨[], .refl s H W, rfl, rfl, by simp, hp⟩
    · simp only [Prog.settle, h, Bool.false_eq_true, if_false]
      obtain ⟨l, b, hs, ho, hq, hr⟩ := ih (perform x s).1 (hp.2 _ (hG _ _)) (perform x s).2
      exact ⟨_, (perform_among x s H W).trans b, by simpa using hs, ho.trans (perform_others x s),
        by simpa using ⟨hp.1, fun a b => hq (a, b)⟩, hr⟩
  | _ => exact ⟨[], .refl s H W, rfl, rfl, by simp, hp⟩

end Sys2Proof.Machine
end

