-- ==== Sys2Proof/Laws/Interleave.lean ====
section
/-! SUPPORT. What the moves of other harts change, and what a whole run can change: `moveHart_among` says what one move can do,
`interfere_among` what happens between two accesses, `run_among` what a command that ends has done. -/

namespace Sys2Proof.Machine

open Sys2Proof.Config

variable {s t u : State} {log : List (Atom × Reply)}

theorem answered_of_all {α : Type} {G : Atom → Reply → Prop} (hG : ∀ x r, G x r) (l : List Reply) (p : Prog α) :
    p.Answered G l := by
  induction l generalizing p with
  | nil => trivial
  | cons r l ih =>
    cases p with
    | op x k => exact ⟨hG x r, ih _⟩
    | _ => trivial

/-- The accesses of an ACCESS command in progress are its hart's own, and in RAM. -/
theorem program_ok (v : View) (c : Running) : (c.program v).Ok v False False (fun _ => True) (fun _ => True) := by
  have h : (accessCommand v c.op c.vaddr c.size c.buf).Ok v False False (fun _ => True) (fun _ => True) :=
    accessCommand_ok ⟨trivial, trivial, trivial⟩ (fun h => h.elim) (fun h => h.elim) (fun h => h)
  exact h.after (answered_of_all (fun _ _ h => h.elim) _ _)

/-- An access of AtomOk stores inside RAM. -/
theorem stores_lt {v : View} {B : Prop} {o : Nat} {c : Atom × Reply} (h : AtomOk v B c.1) (hs : Stores o c) :
    o < v.ram.size.toNat := by
  obtain ⟨x, r⟩ := c
  cases x with
  | writeByte o' b =>
    have := (holds_iff _ _ _).1 h
    have e : o = o' := hs
    omega
  | cas o' n e d =>
    have := (holds_iff _ _ _).1 h
    have hs := hs.2
    omega
  | _ => exact hs.elim

/-! ### The moves of another hart -/

/-- `t` is `s` after the running hart went on: no other hart is changed, nor what it emitted, was returned, asked for or has in
progress. -/
structure Moved (s t : State) : Prop where
  params   : t.params = s.params
  failed   : t.failed = s.failed
  freed    : t.freed = s.freed
  cur      : t.cur = s.cur
  present  : t.ram.present = s.ram.present
  begin    : t.ram.begin = s.ram.begin
  size     : t.ram.size = s.ram.size
  others   : t.env.others = s.env.others
  harts    : ∀ h, h ≠ s.cur → t.hart h = s.hart h
  history  : ∃ es, t.history = s.history ++ es ∧ ∀ e ∈ es, eventHart e = s.cur ∧ EventOk s.ram e
  returned : ∃ rs, t.returned = s.returned ++ rs ∧ ∀ r ∈ rs, r.hart = s.cur
  pending  : ∀ h, h ≠ s.cur → t.pending.filter (fun r => r.hart == h) = s.pending.filter (fun r => r.hart == h)
  running  : ∀ h, h ≠ s.cur → t.runningOf h = s.runningOf h
  data     : DataOk s.ram → DataOk t.ram

theorem Moved.trans (a : Moved s t) (b : Moved t u) : Moved s u where
  params := b.params.trans a.params
  failed := b.failed.trans a.failed
  freed := b.freed.trans a.freed
  cur := b.cur.trans a.cur
  present := b.present.trans a.present
  begin := b.begin.trans a.begin
  size := b.size.trans a.size
  others := b.others.trans a.others
  harts h hh := (b.harts h (a.cur ▸ hh)).trans (a.harts h hh)
  history := by
    obtain ⟨es, h1, h2⟩ := a.history
    obtain ⟨fs, k1, k2⟩ := b.history
    exact ⟨es ++ fs, by rw [k1, h1, List.append_assoc],
      fun e he => (List.mem_append.1 he).elim (h2 e) fun he =>
        ⟨(k2 e he).1.trans a.cur, (EventOk.congr a.present a.begin a.size e).1 (k2 e he).2⟩⟩
  returned := by
    obtain ⟨es, h1, h2⟩ := a.returned
    obtain ⟨fs, k1, k2⟩ := b.returned
    exact ⟨es ++ fs, by rw [k1, h1, List.append_assoc],
      fun e he => (List.mem_append.1 he).elim (h2 e) fun he => (k2 e he).trans a.cur⟩
  pending h hh := (b.pending h (a.cur ▸ hh)).trans (a.pending h hh)
  running h hh := (b.running h (a.cur ▸ hh)).trans (a.running h hh)
  data h := b.data (a.data h)

/-- Accesses of the hart's own are a move of it. -/
theorem Among.moved (a : Among s t log (fun _ => False) (fun _ => False)) (ho : t.env.others = s.env.others)
    (h : ∀ c ∈ log, AtomOk s.view False c.1) : Moved s t where
  params := a.params
  failed := a.failed
  freed := a.freed
  cur := a.cur
  present := a.present
  begin := a.begin
  size := a.size
  others := ho
  harts h hh := a.harts h hh fun k => k
  history := by
    obtain ⟨es, h1, h2, -⟩ := a.history
    refine ⟨es, h1, fun e he => ?_⟩
    have hm := (h2 e he).resolve_right fun k => k.1
    obtain ⟨⟨x, r⟩, hc, hx⟩ := List.mem_filterMap.1 hm
    have hok := h _ hc
    cases x <;> cases hx
    exact ⟨hok.1, hok.2.1⟩
  returned := by
    obtain ⟨rs, h1, h2⟩ := a.returned
    exact ⟨rs, h1, fun r hr => (h2 r hr).elim⟩
  pending h _ := a.pending h fun k => k
  running h _ := a.running h fun k => k
  data hd := a.data (fun o c hc hs => stores_lt (h c hc) hs) hd

/-- A write of the running hart is a move of it. -/
theorem setHart_moved (s : State) (v : Hart) : Moved s (s.setHart s.cur v) where
  params := rfl
  failed := rfl
  freed := rfl
  cur := rfl
  present := rfl
  begin := rfl
  size := rfl
  others := rfl
  harts _ hk := setHart_hart_other s hk v
  history := ⟨[], by simp⟩
  returned := ⟨[], by simp⟩
  pending _ _ := rfl
  running _ _ := rfl
  data h := h

theorem Moved.refl (s : State) : Moved s s :=
  { setHart_moved s (s.hart s.cur) with harts := fun _ _ => rfl, history := ⟨[], by simp⟩, returned := ⟨[], by simp⟩ }

theorem give_moved (s : State) (v : Value) : Moved s (s.give v) :=
  { Moved.refl s with harts := fun _ _ => rfl, returned := ⟨_, rfl, by simp⟩ }

theorem find_filter_other (cs : List Running) {g h : Nat} (hg : g ≠ h) :
    (cs.filter (fun c => c.hart != h)).find? (fun c => c.hart == g) = cs.find? (fun c => c.hart == g) := by
  induction cs with
  | nil => rfl
  | cons c cs ih =>
    by_cases e : c.hart = g
    · simp [e, hg]
    · by_cases e' : c.hart = h
      · simp [e', Ne.symm hg, ih]
      · simp [e', e, ih]

theorem dropRunning_moved (s : State) : Moved s (s.dropRunning s.cur) :=
  { Moved.refl s with harts := fun _ _ => rfl, running := fun _ hh => find_filter_other _ hh }

theorem putRunning_moved (s : State) (c : Running) (hc : c.hart = s.cur) : Moved s (s.putRunning c) :=
  { Moved.refl s with
    harts := fun _ _ => rfl
    running := fun h hh => by
      have e : ¬ s.cur = h := fun e => hh e.symm
      simp [State.runningOf, List.find?_append, hc, find_filter_other _ hh, e] }

/-- A command in progress that goes on by one shared access is a move of its hart. -/
theorem advance_moved {c : Running} (hc : c.hart = s.cur) (h : advance c s = some t) : Moved s t := by
  obtain ⟨l, a, -, ho, hq, hr⟩ := settle_among (program_ok s.view c) (fun _ _ h => h.elim) s (fun _ => False) (fun _ => False)
  have m := a.moved ho hq
  unfold advance at h
  simp only at h
  split at h
  · next x k hx =>
    rw [hx] at hr
    have b := perform_among x ((c.program s.view).settle s).state (fun _ => False) (fun _ => False)
    have bm := b.moved (perform_others x _) (by
      intro c hc
      rw [List.mem_singleton] at hc
      subst hc
      rw [a.view]; exact hr.1)
    obtain ⟨l', a', -, ho', hq', -⟩ := settle_among (hr.2 _ fun h => h.elim) (fun _ _ h => h.elim)
      (perform x ((c.program s.view).settle s).state).2 (fun _ => False) (fun _ => False)
    have am := a'.moved ho' (by rw [b.view, a.view]; exact hq')
    have all := (m.trans bm).trans am
    split at h
    · injection h with h
      rw [← h, hc, ← all.cur]
      exact all.trans ((dropRunning_moved _).trans (give_moved _ _))
    all_goals
      injection h with h
      rw [← h]
      exact all.trans (putRunning_moved _ _ (hc.trans all.cur.symm))
  · injection h with h
    rw [← h, hc, ← m.cur]
    exact m.trans ((dropRunning_moved _).trans (give_moved _ _))
  · cases h
  · cases h

theorem accessOf_hart {g : Nat} {i : Instr} {c : Running} (h : accessOf g i = some c) : c.hart = g := by
  cases i <;> cases h <;> rfl

/-- Beginning a command inside another hart's is a move. -/
theorem beginCommand_moved {i : Instr} (h : beginCommand i s = some t) : Moved s t := by
  have key : ∀ c, accessOf s.cur i = some c → advance c s = some t → Moved s t :=
    fun c h1 h2 => advance_moved (accessOf_hart h1) h2
  cases i with
  | accessR v n => exact key _ rfl h
  | accessW v bs => exact key _ rfl h
  | accessX v n => exact key _ rfl h
  | tlbFlush => injection h with h; rw [← h]; exact (setHart_moved s _).trans (give_moved _ _)
  | tlbFlushPage v => injection h with h; rw [← h]; exact (setHart_moved s _).trans (give_moved _ _)
  | ctxSet a b w =>
    simp only [beginCommand, execCtxSet] at h
    split at h
    · cases h
    · split at h
      · cases h
      · injection h with h
        rw [← h]
        refine Moved.trans ?_ (give_moved _ _)
        split
        · exact (setHart_moved s _).trans (setHart_moved _ _)
        · exact setHart_moved s _
  | _ => cases h

theorem takeFirst_other {g h : Nat} (hg : g ≠ h) {rs : List Request} {q : Request × List Request}
    (hq : takeFirst h rs = some q) : q.2.filter (fun r => r.hart == g) = rs.filter (fun r => r.hart == g) := by
  induction rs generalizing q with
  | nil => cases hq
  | cons r rs ih =>
    simp only [takeFirst] at hq
    split at hq
    · next e =>
      injection hq with hq
      rw [← hq]
      simp [e, Ne.symm hg]
    · obtain ⟨q', h1, rfl⟩ := Option.map_eq_some_iff.1 hq
      simp only [List.filter_cons, ih h1]

/-- The running hart going on is a move. -/
theorem goOn_moved (h : goOn s = some t) : Moved s t := by
  unfold goOn at h
  split at h
  · next c hc =>
    have := List.find?_some hc
    exact advance_moved (by simpa using this) h
  · obtain ⟨q, hq, h⟩ := Option.bind_eq_some_iff.1 h
    split at h
    · have m := beginCommand_moved h
      exact { m with pending := fun g hg => (m.pending g hg).trans (takeFirst_other hg hq) }
    · cases h

/-- A move of hart h changes nothing of another hart, and what it emits and is returned is its own. -/
theorem moveHart_among (s : State) (h : Nat) :
    Among s (s.moveHart h) [] (fun g => g = h ∧ g ≠ s.cur) (fun _ => False) ∧ (s.moveHart h).env.others = s.env.others := by
  unfold State.moveHart
  split
  · next hh =>
    split
    · next t ht =>
      have m := goOn_moved ht
      have hne : ∀ g, ¬ (g = h ∧ g ≠ s.cur) → g ≠ h := fun g k e => k ⟨e, e ▸ hh.2⟩
      refine ⟨{
        params := m.params, failed := m.failed, freed := m.freed, cur := rfl, present := m.present, begin := m.begin
        size := m.size
        hart := fun _ => m.harts s.cur hh.2.symm
        ctx := congrArg Hart.ctx (m.harts s.cur hh.2.symm)
        slots := fun i _ => ?_
        harts := fun g _ k => m.harts g (hne g k)
        history := ?_
        returned := ?_
        pending := fun g k => m.pending g (hne g k)
        running := fun g k => m.running g (hne g k)
        bytes := fun _ _ => .inr (.inr ⟨h, rfl, hh.2⟩)
        data := fun _ hd => m.data hd }, m.others⟩
      · have e : t.hart s.cur = s.hart s.cur := m.harts s.cur hh.2.symm
        simp only [State.slot, as_hart, as_params, e, m.params]
      · obtain ⟨es, h1, h2⟩ := m.history
        refine ⟨es, h1, fun e he => .inr ⟨⟨(h2 e he).1, by rw [(h2 e he).1]; exact hh.2⟩, (h2 e he).2⟩, fun _ => ?_⟩
        rw [eventsOf_nil, List.filter_eq_nil_iff]
        intro e he
        simpa [(h2 e he).1] using hh.2
      · obtain ⟨rs, h1, h2⟩ := m.returned
        exact ⟨rs, h1, fun r hr => ⟨h2 r hr, by rw [h2 r hr]; exact hh.2⟩⟩
    · exact ⟨.refl _ _ _, rfl⟩
  · exact ⟨.refl _ _ _, rfl⟩

/-! ### What other agents do between two accesses -/

/-- The harts that may go on inside the command of the running one. -/
abbrev Movers (s : State) (h : Nat) : Prop := h ≠ s.cur ∧ movesIn s h

theorem act_among (x : Action) (s : State) :
    Among s (s.act x) [] (fun h => x = .move h ∧ h ≠ s.cur) (fun o => ∃ b, x = .write o b) ∧
      (s.act x).env.others = s.env.others := by
  cases x with
  | write o b =>
    have a := foreignWrite_stored s o b
    refine ⟨.of_stored a rfl fun j hj => .inl ⟨⟨b, by rw [hj.1]⟩, hj.2⟩, ?_⟩
    show (s.foreignWrite o b).env.others = _
    rw [a.same]
  | move h =>
    exact ⟨(moveHart_among s h).1.mono (fun g hg => ⟨by rw [hg.1], hg.2⟩) (fun _ h => h.elim), (moveHart_among s h).2⟩

theorem foldl_act_among (batch : List Action) (s : State) :
    Among s (batch.foldl State.act s) [] (fun h => h ≠ s.cur ∧ .move h ∈ batch) (fun o => ∃ b, .write o b ∈ batch) ∧
      (batch.foldl State.act s).env.others = s.env.others := by
  induction batch generalizing s with
  | nil => exact ⟨.refl _ _ _, rfl⟩
  | cons x batch ih =>
    obtain ⟨a, ha⟩ := act_among x s
    obtain ⟨b, hb⟩ := ih (s.act x)
    exact ⟨(a.mono (fun h hh => ⟨hh.2, by rw [hh.1]; simp⟩) fun o ⟨b, hb⟩ => ⟨b, by rw [hb]; simp⟩).trans
      (b.mono (fun h hh => ⟨a.cur ▸ hh.1, by simp [hh.2]⟩) fun o ⟨b, hb⟩ => ⟨b, by simp [hb]⟩), hb.trans ha⟩

/-- Between two accesses: the harts of the next batch go on, its writes are done, nothing else changes. -/
theorem interfere_among (s : State) : Among s s.interfere [] (Movers s) (foreignTo s) ∧
    ∀ batch ∈ s.interfere.env.others, batch ∈ s.env.others := by
  unfold State.interfere
  split
  · exact ⟨.refl _ _ _, fun _ h => h⟩
  · next batch rest hb =>
    obtain ⟨a, ho⟩ := foldl_act_among batch { s with env := { s.env with others := rest } }
    have c : Among s (batch.foldl State.act { s with env := { s.env with others := rest } }) []
        (fun h => h ≠ s.cur ∧ .move h ∈ batch) (fun o => ∃ b, .write o b ∈ batch) := { a with }
    refine ⟨c.mono (fun h hh => ⟨hh.1, batch, by simp [hb], hh.2⟩) fun o ⟨b, hm⟩ => ⟨batch, by simp [hb], b, hm⟩, fun x hx => ?_⟩
    rw [ho] at hx
    simp [hb, show x ∈ rest from hx]

theorem performAmong_among (x : Atom) (s : State) :
    Among s (performAmong x s).2 [(x, (performAmong x s).1)] (Movers s) (foreignTo s) ∧
      ∀ batch ∈ (performAmong x s).2.env.others, batch ∈ s.env.others := by
  unfold performAmong
  split
  · obtain ⟨a, ho⟩ := interfere_among s
    have b := perform_among x s.interfere (Movers s) (foreignTo s)
    exact ⟨a.trans b, fun batch hb => ho batch (by rwa [perform_others] at hb)⟩
  · exact ⟨perform_among x s _ _, fun batch hb => by rwa [perform_others] at hb⟩

/-- A run that ends: its accesses, answered as they were, lead the program to its value; and what it can have changed. -/
theorem run_among {α : Type} {p : Prog α} {a : α} (h : p.run s = .done a t) :
    ∃ log, p.Trace log a ∧ Among s t log (Movers s) (foreignTo s) ∧ ∀ batch ∈ t.env.others, batch ∈ s.env.others := by
  induction p generalizing s with
  | done b =>
    injection h with h1 h2
    subst h1 h2
    exact ⟨[], .done _, .refl _ _ _, fun _ h => h⟩
  | fault e => cases h
  | refused e => cases h
  | op x k ih =>
    obtain ⟨c, ho⟩ := performAmong_among x s
    obtain ⟨log, ht, d, hd⟩ := ih _ (by rwa [run_op] at h)
    refine ⟨_, .op ht, c.trans (d.mono (fun g hg => ⟨c.cur ▸ hg.1, ?_⟩) fun o ⟨batch, hb, hm⟩ => ⟨batch, ho batch hb, hm⟩),
      fun batch hb => ho batch (hd batch hb)⟩
    obtain ⟨batch, hb, hm⟩ := hg.2
    exact ⟨batch, ho batch hb, hm⟩

end Sys2Proof.Machine
end

