-- ==== Sys2Proof/Laws/PerInstr.lean ====
section
/-! SUPPORT. The family `Encoding`: the header that the encoder writes for each instruction reads back as that instruction's
code, size and SATPW bit (30_encoding.md R80, R82, R83). -/

namespace Sys2Proof.Laws.Encoding

/-- A request header's fields after `header`. -/
theorem header_fields (c : Code) {n : Nat} (hn : n ≤ 16) (b : Bool) :
    cmdField (header c n b) = c.toByte ∧ (sizeField (header c n b)).toNat = n ∧ satpwBit (header c n b) = b ∧
      flagField (header c n b) = BitVec.ofNat 8 b.toNat := by
  have h : (header c n b).toNat = (b.toNat * 65536 + n) * 256 + c.toByte.toNat := by
    have hb : b.toNat ≤ 1 := Bool.toNat_le b
    have hc := c.toByte.isLt
    rw [header, BitVec.toNat_append, BitVec.toNat_append, BitVec.toNat_ofNat, BitVec.toNat_ofNat,
      Nat.mod_eq_of_lt (show b.toNat < 2 ^ 8 by omega), Nat.mod_eq_of_lt (show n < 2 ^ 16 by omega),
      ← Nat.shiftLeft_add_eq_or_of_lt (show n < 2 ^ 16 by omega), ← Nat.shiftLeft_add_eq_or_of_lt hc, Nat.shiftLeft_eq,
      Nat.shiftLeft_eq]
  have hc := c.toByte.isLt
  refine ⟨BitVec.eq_of_toNat_eq ?_, ?_, ?_, BitVec.eq_of_toNat_eq ?_⟩
  · simp only [cmdField, BitVec.extractLsb'_toNat, h, Nat.shiftRight_zero]; omega
  · simp only [sizeField, BitVec.extractLsb'_toNat, h, Nat.shiftRight_eq_div_pow]
    cases b <;> simp <;> omega
  · rw [satpwBit, BitVec.getLsbD, h, Nat.testBit_eq_decide_div_mod_eq]
    cases b <;> simp <;> omega
  · simp only [flagField, BitVec.extractLsb'_toNat, h, Nat.shiftRight_eq_div_pow, BitVec.toNat_ofNat]
    cases b <;> simp <;> omega

/-- Every code is found by its own command byte. -/
theorem codeOfByte_toByte (c : Code) : codeOfByte c.toByte = some c := by cases c <;> decide

/-- The header of a well-formed instruction names its code, its size and its SATPW bit. -/
def Statement (i : Instr) : Prop :=
  ∀ hart m, m ≤ 16 → i.wellFormed m = true →
    codeOfByte (cmdField (encode hart i).hdr) = some i.code ∧ (sizeField (encode hart i).hdr).toNat = i.size ∧
      satpwBit (encode hart i).hdr = i.satpw

theorem of_size {i : Instr} (h : ∀ m, m ≤ 16 → i.wellFormed m = true → i.size ≤ 16) : Statement i := by
  intro hart m hm hi
  obtain ⟨h1, h2, h3, -⟩ := header_fields i.code (h m hm hi) i.satpw
  exact ⟨by rw [encode, h1, codeOfByte_toByte], h2, h3⟩

theorem access_size {m n : Nat} (hm : m ≤ 16) (h : accessSizeOk m n = true) : n ≤ 16 := by
  simp only [accessSizeOk, Bool.and_eq_true, decide_eq_true_eq] at h; omega

theorem mmio_size {n : Nat} (h : mmioSizeOk n = true) : n ≤ 16 := by
  simp only [mmioSizeOk, Bool.and_eq_true, decide_eq_true_eq] at h; omega

theorem accessR (vaddr : Word) (size : Nat) : Statement (.accessR vaddr size) := of_size fun _ => access_size
theorem accessW (vaddr : Word) (payload : List Byte) : Statement (.accessW vaddr payload) := of_size fun _ => access_size
theorem accessX (vaddr : Word) (size : Nat) : Statement (.accessX vaddr size) := of_size fun _ => access_size
theorem tlbFlush : Statement .tlbFlush := of_size fun _ _ _ => Nat.zero_le 16
theorem tlbFlushPage (vaddr : Word) : Statement (.tlbFlushPage vaddr) := of_size fun _ _ _ => Nat.zero_le 16
theorem ramInit (start size : Word) : Statement (.ramInit start size) := of_size fun _ _ _ => Nat.zero_le 16
theorem ramFree : Statement .ramFree := of_size fun _ _ _ => Nat.zero_le 16
theorem ctxSet (root ctxWord : Word) (satpw : Bool) : Statement (.ctxSet root ctxWord satpw) :=
  of_size fun _ _ _ => Nat.zero_le 16
theorem walk (vaddr acc : Word) : Statement (.walk vaddr acc) := of_size fun _ _ _ => Nat.zero_le 16
theorem tlbLookup (vaddr : Word) (op : Op) : Statement (.tlbLookup vaddr op) := of_size fun _ _ _ => Nat.zero_le 16
theorem tlbFill (vaddr : Word) (op : Op) (bias : Word) : Statement (.tlbFill vaddr op bias) :=
  of_size fun _ _ _ => Nat.zero_le 16
theorem physToHost (paddr : Word) : Statement (.physToHost paddr) := of_size fun _ _ _ => Nat.zero_le 16
theorem findMmio (paddr : Word) : Statement (.findMmio paddr) := of_size fun _ _ _ => Nat.zero_le 16
theorem mmioRead (off dev : Word) (size : Nat) : Statement (.mmioRead off dev size) := of_size fun _ _ => mmio_size
theorem mmioWrite (off dev : Word) (payload : List Byte) : Statement (.mmioWrite off dev payload) :=
  of_size fun _ _ => mmio_size

end Sys2Proof.Laws.Encoding
end

