-- ==== Sys2Proof/Tests/Slice0.lean ====
section
/-! SUPPORT. The model's own tests: ill-formed terms refused, words written out from 30_encoding.md, single steps with the results
of 95_test_vectors.md, and for each statement with hypotheses a state that meets them. -/

namespace Sys2Proof.Tests

open Sys2Proof.Machine Sys2Proof.Config

/-! ### Helpers -/

/-- The outcome is a next state of which f holds. -/
def holds (o : Host.Outcome State Fault Refusal) (f : State → Bool) : Bool :=
  match o with
  | .next t => f t
  | .fault _ => false
  | .refused _ => false

/-- The outcome is this refusal. -/
def refuses (o : Host.Outcome State Fault Refusal) (r : Refusal) : Bool :=
  match o with
  | .next _ => false
  | .fault _ => false
  | .refused e => e == r

/-- The decoder refuses a request from outside for this reason. -/
def turnsAway (hdr : BitVec 32) (a b : Word) (payload : List Byte) (why : DecodeError) : Bool :=
  match decode 16 ⟨.external, 0, hdr, a, b, payload⟩ with
  | .ok _ => false
  | .error e => e == why

/-- The value returned last. -/
def value (t : State) : Option Value := (t.returned.getLast?).map Returned.value

/-- Place bytes at RAM offsets. -/
def place (cells : List (Nat × List Byte)) (s : State) : State := cells.foldl (fun s c => s.setBytes c.1 c.2) s

/-- The default RAM of 95_test_vectors.md with bytes placed, and hart 0's context from a root and a context word. -/
def st (x : XLen) (root w : Word) (cells : List (Nat × List Byte)) : State :=
  (place cells { State.launch { defaultParams with xlen := x } with ram := ⟨true, 0x80000000, 0x100000, []⟩ }).setCtx
    (ctxOfWord root w)

/-- One device at [0x10000000, 0x10001000) with the given sizes, and the answers its next callbacks give. -/
def withDevice (m M : OpSize) (answers : List DevAnswer) (s : State) : State :=
  { s with params := { s.params with devices := [⟨0x10000000, 0x10001000, m, M, 0⟩] }
           env := { s.env with devAnswers := answers } }

/-- A device answer ok with these bytes. -/
def ok (bs : List Byte) : DevAnswer := ⟨true, BitVec.ofNat 128 (leNat bs)⟩

/-- A device answer that is not ok. -/
def bad : DevAnswer := ⟨false, 0⟩

/-- Scenario 2's page table: root word 0x20004401, and the leaf for va 0x1000. -/
def sv32Leaf (leaf : Word) : State := st .x32 0x80010000 0x101 [(0x10000, leBytes 4 0x20004401), (0x11004, leBytes 4 leaf)]

/-- The Sv39 page table of R194. -/
def sv39State (leaf : Word) : State :=
  st .x64 0x80030000 0x801
    [(0x30008, leBytes 8 0x2000C401), (0x31008, leBytes 8 0x2000C801), (0x32008, leBytes 8 leaf)]

/-- Machine mode, Bare, with RAM. -/
def bare : State := st .x64 0 0x003 []

/-! ### Well-formedness -/

theorem test_access_size_zero : (Instr.accessR 0x1000 0).wellFormed 16 = false := by decide
theorem test_access_size_17 : (Instr.accessX 0x1000 17).wellFormed 16 = false := by decide
theorem test_store_without_bytes : (Instr.accessW 0x1000 []).wellFormed 16 = false := by decide
theorem test_walk_empty_mask : (Instr.walk 0x1000 0).wellFormed 16 = false := by decide
theorem test_walk_foreign_mask : (Instr.walk 0x1000 0x12).wellFormed 16 = false := by decide
theorem test_mmio_read_size : (Instr.mmioRead 0 0 17).wellFormed 16 = false := by decide
theorem test_mmio_write_size : (Instr.mmioWrite 0 0 []).wellFormed 16 = false := by decide

/-! ### Words written out bit by bit from 30_encoding.md: FLG, SIZE, CMD, then operands (log entry 30) -/

theorem test_decode_accessR : decodeTableWord 160 (0x80001234 * 2 ^ 32 + 0x00000402) = some (.accessR 0x80001234 4) := by decide
theorem test_decode_accessW :
    decodeTableWord 176 (0xBBAA * 2 ^ 160 + 0x10000001 * 2 ^ 32 + 0b00000000000000000000001000000100) =
      some (.accessW 0x10000001 [0xAA, 0xBB]) := by decide
theorem test_decode_accessX : decodeTableWord 160 (0x40212344 * 2 ^ 32 + 0x00001008) = some (.accessX 0x40212344 16) := by decide
theorem test_decode_tlbFlush : decodeTableWord 32 0b00000000000000000000000000010000 = some .tlbFlush := by decide
theorem test_decode_tlbFlushPage : decodeTableWord 96 (0x2000 * 2 ^ 32 + 0x11) = some (.tlbFlushPage 0x2000) := by decide
theorem test_decode_ramInit :
    decodeTableWord 160 (0x100000 * 2 ^ 96 + 0x80000000 * 2 ^ 32 + 0x20) = some (.ramInit 0x80000000 0x100000) := by decide
theorem test_decode_ramFree : decodeTableWord 32 0x21 = some .ramFree := by decide
theorem test_decode_ctxSet :
    decodeTableWord 160 (0x101 * 2 ^ 96 + 0x80010000 * 2 ^ 32 + 0b00000001000000000000000000110000) =
      some (.ctxSet 0x80010000 0x101 true) := by decide
theorem test_decode_walk : decodeTableWord 160 (0xA * 2 ^ 96 + 0x1000 * 2 ^ 32 + 0x40) = some (.walk 0x1000 0xA) := by decide
theorem test_decode_tlbLookup : decodeTableWord 160 (0x4 * 2 ^ 96 + 0x1000 * 2 ^ 32 + 0x41) = some (.tlbLookup 0x1000 .W) := by
  decide
theorem test_decode_tlbFill :
    decodeTableWord 352 (0x1F000 <<< 288 + 0x8 * 2 ^ 96 + 0x1000 * 2 ^ 32 + 0x42) = some (.tlbFill 0x1000 .X 0x1F000) := by decide
theorem test_decode_physToHost : decodeTableWord 96 (0x80001234 * 2 ^ 32 + 0x43) = some (.physToHost 0x80001234) := by decide
theorem test_decode_findMmio : decodeTableWord 96 (0x10000FFF * 2 ^ 32 + 0x44) = some (.findMmio 0x10000FFF) := by decide
theorem test_decode_mmioRead : decodeTableWord 160 (0x1 * 2 ^ 96 + 0x6 * 2 ^ 32 + 0x00000445) = some (.mmioRead 0x6 1 4) := by
  decide
theorem test_decode_mmioWrite :
    decodeTableWord 176 (0xBBAA * 2 ^ 160 + 0x1 * 2 ^ 32 + 0x00000246) = some (.mmioWrite 0x1 0 [0xAA, 0xBB]) := by decide

/-- The refusals of 95_test_vectors.md 2.1, and an internal code with a bad flag: "internal" comes first (R84). -/
theorem test_refused_requests :
    turnsAway 0x00000003 0 0 [] .reservedCode ∧ turnsAway 0x00000040 0 0 [] .internal ∧
      turnsAway 0xFF000445 0 0 [] .internal ∧ turnsAway 0x01000402 0x1000 0 [] .reservedFlag ∧
      turnsAway 0x02000030 0 0 [] .reservedFlag ∧ turnsAway 0x00000002 0 0 [] .size ∧ turnsAway 0x00001102 0 0 [] .size ∧
      turnsAway 0x00000110 0 0 [] .size ∧ turnsAway 0x00000010 0x1000 0 [] .operand ∧
      turnsAway 0x00000402 0x1000 1 [] .operand ∧ turnsAway 0x00000204 0 0 [0xAA] .payload := by decide

theorem test_fetch_word_runs :
    holds (step (State.reset.withFetchWord 96 (0x80000000 * 2 ^ 32 + 0x402))) (fun t =>
      t.pending.isEmpty && t.history == [.trap 0 5 0x80000000] && value t == some (.command false [])) := by decide

/-! ### Single steps, with the results of 95_test_vectors.md -/

/-- Scenario 2. -/
theorem test_accessR_walks : holds (exec (.accessR 0x1000 4) (sv32Leaf 0x2000800F)) (fun t =>
    value t == some (.command true [0, 0, 0, 0]) && t.slot 0 1 == ⟨1, 0, 0, 0x1F000⟩ && t.wordAt 0x11004 4 == 0x2000804F &&
      t.history == [.ramRead 0 0x80010000 4, .ramRead 0 0x80011004 4, .ramCas 0 0x80011004 4 0x2000800F 0x2000804F true,
        .ramRead 0 0x80020000 4]) := by decide

/-- Scenario 4. -/
theorem test_accessR_crosses : holds (exec (.accessR 0xFFE 4) (st .x32 0x80010000 0x101
    [(0x10000, leBytes 4 0x20004401), (0x11000, leBytes 4 0x2000C003), (0x11004, leBytes 4 0x2000C403),
      (0x30FFE, [0xAA, 0xBB, 0xCC, 0xDD])])) (fun t =>
    value t == some (.command true [0xAA, 0xBB, 0xCC, 0xDD]) && t.slot 0 0 == ⟨0, -1, -1, 0x30000⟩ &&
      (t.slot 0 1).tagR == 1 && t.wordAt 0x11004 4 == 0x2000C443) := by decide

/-- The example of R194. -/
theorem test_accessW_sets_dirty : holds (exec (.accessW 0x40201234 [0x5A]) (sv39State 0x20014007)) (fun t =>
    value t == some (.command true []) && t.ramByte 0x50234 == 0x5A && t.wordAt 0x32008 8 == 0x200140C7 &&
      t.history.contains (.jitInvalidate 0 0x40201234 0x80050234 1)) := by decide

/-- 95_test_vectors.md 2.4.4: the second page faults, the first page's bytes stay written. -/
theorem test_accessW_second_page_faults : holds (exec (.accessW 0xFFE [0x11, 0x22, 0x33, 0x44]) (st .x32 0x80010000 0x101
    [(0x10000, leBytes 4 0x20004401), (0x11000, leBytes 4 0x2000C007)])) (fun t =>
    value t == some (.command false []) && t.bytesAt 0x30FFE 3 == [0x11, 0x22, 0] &&
      t.history.getLast? == some (.trap 0 15 0x1000) && t.slot 0 0 == ⟨0, 0, -1, 0x30000⟩ && t.slot 0 1 == ⟨0, 0, 0, 0⟩) := by
  decide

/-- 95_test_vectors.md 2.4.1, step 2: a fetch ignores MPRV. -/
theorem test_accessX_ignores_mprv : holds (exec (.accessX 0x80001000 1) (st .x32 0x80010000 0x117 [(0x1000, [0x77])])) (fun t =>
    value t == some (.command true [0x77]) &&
      t.slot 0 1 == ⟨0x80000, 0x80000, 0x80001, 0xFFFFFFFF80000000⟩) := by decide

/-- The example of R195: a 1 GiB leaf with A and D set, no compare-and-swap. -/
theorem test_accessX_gigapage : holds (exec (.accessX 0x40012344 2) (st .x64 0x80030000 0x801
    [(0x30008, leBytes 8 0x200000CF), (0x12344, [0x13, 0x05])])) (fun t =>
    value t == some (.command true [0x13, 0x05]) && t.history == [.ramRead 0 0x80030008 8, .ramRead 0 0x80012344 2]) := by decide

theorem test_tlbFlush : holds (exec .tlbFlush (tlbFill .W 0x105 0x1000 bare)) (fun t =>
    t.slot 0 5 == ⟨0, 0, 0, 0⟩ && t.slot 0 0 == ⟨-1, -1, -1, 0⟩ && value t == some (.command true [])) := by decide

/-- 95_test_vectors.md 2.5, the last row, and P4. -/
theorem test_tlbFlushPage : holds (exec (.tlbFlushPage 0x105000) (tlbFill .R 0x106 0x7 (tlbFill .W 0x105 0x1000 bare))) (fun t =>
    t.slot 0 5 == ⟨0x104, 0x104, 0x104, 0x1000⟩ && t.slot 0 6 == ⟨0x106, 0x105, 0x105, 7⟩) := by decide

/-- 95_test_vectors.md 2.2: RAM that ends exactly at 2^64, and the draw taken as failure. -/
theorem test_ramInit : holds (exec (.ramInit 0xFFFFFFFFFFF00000 0x100000)
      { State.reset with env := { State.reset.env with allocDraws := [false] } }) (fun t =>
      t.ram == ⟨true, 0xFFFFFFFFFFF00000, 0x100000, []⟩ && value t == some (.command true [])) ∧
    holds (exec (.ramInit 0x80000000 0x1000) { State.reset with env := { State.reset.env with allocDraws := [true] } })
      (fun t => !t.ram.present && t.failed && value t == some (.command false [])) := by decide

/-- 95_test_vectors.md 2.2: misaligned begin, misaligned size, size 0, past 2^64, twice. -/
theorem test_ramInit_false :
    [((0x80000800 : Word), (0x100000 : Word)), (0x80000000, 0x100800), (0x80000000, 0), (0xFFFFFFFFFFFFF000, 0x2000)].all
      (fun r => holds (exec (.ramInit r.1 r.2) State.reset) (fun t => !t.ram.present && t.failed && value t == some (.command false []))) ∧
    refuses (exec (.ramInit 0 0x1000) bare) .ramInitTwice := by decide

theorem test_ramFree : holds (exec .ramFree bare) (fun t => t.ram == Ram.absent && t.freed) ∧
    refuses (exec .ramFree State.reset) .freeWithoutRam := by decide

/-- 95_test_vectors.md 2.7: no flush for the same values, a flush with SATPW or another mode code. -/
theorem test_ctxSet :
    holds (exec (.ctxSet 0 0x001 false) (tlbFill .R 1 9 (st .x64 0 0x001 []))) (fun t => (t.slot 0 1).tagR == 1) ∧
    holds (exec (.ctxSet 0 0x001 true) (tlbFill .R 1 9 (st .x64 0 0x001 []))) (fun t => t.slot 0 1 == ⟨0, 0, 0, 0⟩) ∧
    holds (exec (.ctxSet 0 0x501 false) (tlbFill .R 1 9 (st .x64 0 0x001 []))) (fun t =>
      t.slot 0 1 == ⟨0, 0, 0, 0⟩ && t.ctx.mode == 5 && t.ctx.priv == .supervisor) := by decide

/-- 95_test_vectors.md 2.1: the refusals of CTX.SET; and every field of the word. -/
theorem test_ctxSet_fields :
    refuses (exec (.ctxSet 0x80010800 0x101 false) bare) .misalignedRoot ∧
    refuses (exec (.ctxSet 0x80010000 0x141 false) bare) .reservedContextBits ∧
    refuses (exec (.ctxSet 0x80010000 0x1101 false) bare) .reservedContextBits ∧
    holds (exec (.ctxSet 0x80010000 0x937 false) bare) (fun t =>
      t.ctx == { priv := .machine, mode := 9, root := 0x80010000, mprv := true, mpp := .supervisor, mxr := true }) := by decide

/-- Scenario 3. -/
theorem test_walk_misaligned : holds (exec (.walk 0 0x2) (st .x32 0x80010000 0x101 [(0x10000, leBytes 4 0x2000040F)])) (fun t =>
    value t == some (.walk (.fault .misalignedSuperpage)) && t.history == [.ramRead 0 0x80010000 4] &&
      t.wordAt 0x10000 4 == 0x2000040F) := by decide

/-- R151, R163: another agent sets D between the load of the leaf and the compare-and-swap, which then fails and writes
nothing; the translation stands. Bits 63:54 and a bit of RSW are ignored (R162). -/
theorem test_walk_loses_race : holds (exec (.walk 0x40201234 0x2)
    { sv39State 0xFFC0000020014103 with
      env := { (bare).env with others := List.replicate 24 [] ++ [[.write 0x32008 0x83]] } }) (fun t =>
    value t == some (.walk (.ok 0x80050234)) && t.wordAt 0x32008 8 == 0xFFC0000020014183 &&
      t.history.getLast? == some (.ramCas 0 0x80032008 8 0xFFC0000020014103 0xFFC0000020014143 false)) := by decide

/-- 95_test_vectors.md 2.5: flushed slots miss for VPN 0 and 1. -/
theorem test_tlbLookup :
    holds (exec (.tlbLookup 0 .R) State.reset) (fun t => value t == some (.lookup false 0)) ∧
    holds (exec (.tlbLookup 0x1000 .X) State.reset) (fun t => value t == some (.lookup false 0)) ∧
    holds (exec (.tlbLookup 0x105FFF .R) (tlbFill .W 0x105 0x1000 bare)) (fun t => value t == some (.lookup true 0x1000)) := by
  decide

/-- 95_test_vectors.md 2.5: an X fill; then an R fill of the alias 0x205 evicts. -/
theorem test_tlbFill :
    holds (exec (.tlbFill 0x105000 .X 0x1000) bare) (fun t => t.slot 0 5 == ⟨0x104, 0x104, 0x105, 0x1000⟩) ∧
    holds (exec (.tlbFill 0x205000 .R 0x2000) (tlbFill .R 0x105 0x1000 bare)) (fun t =>
      t.slot 0 5 == ⟨0x205, 0x204, 0x204, 0x2000⟩) := by decide

/-- 95_test_vectors.md 2.5: R, X, W fills of one page keep its tags. -/
theorem test_tlbFill_keeps :
    holds (exec (.tlbFill 0x105000 .W 0x1000) (tlbFill .X 0x105 0x1000 (tlbFill .R 0x105 0x1000 bare))) (fun t =>
      t.slot 0 5 == ⟨0x105, 0x105, 0x105, 0x1000⟩) := by decide

/-- 95_test_vectors.md 2.2. -/
theorem test_physToHost :
    [((0x80000000 : Word), some 0), (0x80001234, some 0x1234), (0x800FFFFF, some 0xFFFFF), (0x80100000, none),
      (0x7FFFFFFF, none), (0, none)].all (fun r =>
      holds (exec (.physToHost r.1) bare) (fun t => value t == some (.hostOffset r.2))) := by decide

/-- 95_test_vectors.md 2.2: `end` is exclusive. -/
theorem test_findMmio :
    [((0x10000000 : Word), some 0), (0x10000FFF, some 0), (0x10001000, some 1), (0x10002000, none), (0x0FFFFFFF, none)].all
      (fun r => holds (exec (.findMmio r.1)
        { bare with params := { bare.params with devices :=
          [⟨0x10000000, 0x10001000, .b1, .b4, 0⟩, ⟨0x10001000, 0x10002000, .b1, .b4, 0⟩] } })
        (fun t => value t == some (.device r.2))) := by decide

/-- Scenario 5. -/
theorem test_mmioRead_widens : holds (exec (.mmioRead 2 0 1) (withDevice .b4 .b4 [ok [0x10, 0x11, 0x12, 0x13]] bare)) (fun t =>
    value t == some (.command true [0x12]) && t.history == [.devRead 0 0 0 4]) := by decide

/-- 95_test_vectors.md 2.6: RD 0/3 with sizes 1 and 2 splits into 1 and 2 bytes; RD 4/16 with size 8 is refused. -/
theorem test_mmioRead_splits :
    holds (exec (.mmioRead 0 0 3) (withDevice .b1 .b2 [ok [0x10], ok [0x11, 0x12]] bare)) (fun t =>
      value t == some (.command true [0x10, 0x11, 0x12]) && t.history == [.devRead 0 0 0 1, .devRead 0 0 1 2]) ∧
    refuses (exec (.mmioRead 4 0 16) (withDevice .b8 .b8 [] bare)) .mmioWindow := by decide

/-- 95_test_vectors.md 2.6: WR 1/2 with size 4 reads and writes the window back. -/
theorem test_mmioWrite_rmw :
    holds (exec (.mmioWrite 1 0 [0xAA, 0xBB]) (withDevice .b4 .b4 [ok [0x10, 0x11, 0x12, 0x13], ok []] bare)) (fun t =>
      value t == some (.command true []) &&
        t.history == [.devRead 0 0 0 4, .devWrite 0 0 0 4 [0x10, 0xAA, 0xBB, 0x13]]) := by decide

/-- 95_test_vectors.md 2.6: the upper half fails, the lower half stays performed. -/
theorem test_mmioWrite_upper_fails :
    holds (exec (.mmioWrite 0 0 [1, 2, 3, 4, 5, 6, 7, 8]) (withDevice .b4 .b4 [ok [], bad] bare)) (fun t =>
      value t == some (.command false []) &&
        t.history == [.devWrite 0 0 0 4 [1, 2, 3, 4], .devWrite 0 0 4 4 [5, 6, 7, 8]]) := by decide

/-! ### Harts interleaved -/

/-- The next step from a state, then the next. -/
def twoSteps (s : State) : Host.Outcome State Fault Refusal :=
  match step s with
  | .next t => step t
  | .fault f => .fault f
  | .refused e => .refused e

/-- 70_reset_and_hazards.md R351: hart 0 widens a write; between its window read and its window write hart 1 writes the device. -/
theorem test_mmio_harts_interleave : holds (step { withDevice .b4 .b4 [ok [0x10, 0x11, 0x12, 0x13], ok [], ok []] bare with
      pending := [⟨.external, 0, 0x104, 0x10000001, 0, [0xAA]⟩, ⟨.external, 1, 0x404, 0x10000000, 0, [1, 2, 3, 4]⟩]
      env := { bare.env with others := [[], [.move 1]], devAnswers := [ok [0x10, 0x11, 0x12, 0x13], ok [], ok []] } })
    (fun t => t.history == [.devRead 0 0 0 4, .devWrite 1 0 0 4 [1, 2, 3, 4], .devWrite 0 0 0 4 [0x10, 0xAA, 0x12, 0x13]] &&
      t.returned == [⟨1, .command true []⟩, ⟨0, .command true []⟩] && t.pending.isEmpty && t.running.isEmpty) := by decide

/-- 20_memory.md R57: hart 0 reads two bytes while hart 1 writes them; it reads the old first byte and the new second. -/
theorem test_bytes_mix : holds (twoSteps { bare with
      pending := [⟨.external, 0, 0x202, 0x80000010, 0, []⟩, ⟨.external, 1, 0x304, 0x80000010, 0, [7, 8, 9]⟩]
      env := { bare.env with others := [[], [.move 1, .move 1]] } })
    (fun t => t.returned == [⟨0, .command true [0, 8]⟩, ⟨1, .command true []⟩] && t.bytesAt 0x10 3 == [7, 8, 9] &&
      t.running.isEmpty) := by decide

/-- 20_memory.md R58: of two writes that land inside a PTE load, byte 1 and then byte 0, the load that reads byte 1 first takes byte
0 from the second and byte 1 from before the first, and finds an aligned superpage; the load upwards finds a misaligned one. -/
theorem test_pte_load_tears :
    let s : State := { st .x32 0x80010000 0x101 [(0x10000, leBytes 4 0x20000000)] with
      env := { bare.env with others := [[], [.write 0x10001 4, .write 0x10000 0xCF]] } }
    holds (exec (.walk 0x234 0x2) { s with env := { s.env with pteOrders := [⟨0, 0, [1, 0, 2, 3]⟩] } }) (fun t =>
      value t == some (.walk (.ok 0x80000234)) && t.wordAt 0x10000 4 == 0x200004CF) ∧
    holds (exec (.walk 0x234 0x2) { s with env := { s.env with others := [[.write 0x10001 4, .write 0x10000 0xCF]] } }) (fun t =>
      value t == some (.walk (.fault .misalignedSuperpage))) := by decide

/-- 40_pam.md R123: after a false RAM.INIT the machine does not start. -/
theorem test_not_started : refuses (twoSteps { State.reset with
      pending := [⟨.external, 0, 0x20, 0x80000800, 0x1000, []⟩, ⟨.external, 0, 0x20, 0x80000000, 0x1000, []⟩] }) .notStarted := by
  decide

/-! ### Witnesses: for each statement with hypotheses, states and operands that meet them together -/

/-- The outcome is some next state. -/
def answers (o : Host.Outcome State Fault Refusal) : Bool := holds o (fun _ => true)

/-- Reset with one external request placed. -/
def placed : State := State.reset.withFetchWord 96 (0x80000000 * 2 ^ 32 + 0x402)

/-- Writes by agents outside the harts, and a move of a hart with nothing to do. -/
def disturbed (s : State) : State :=
  { s with env := { s.env with others := [[.write 0x10 1, .move 2], [.write 0x11 2, .write 0x200000 3]] } }

theorem witness_DecodeEncode :
    (Instr.accessR 0xFFFFFFFFFFFFFFFF 16).wellFormed 16 ∧ (Instr.accessW 0 [1]).wellFormed 1 ∧
      (Instr.ctxSet 0xFFF 0xFFFFFFFFFFFFFFFF true).wellFormed 16 ∧ (Instr.walk 0 0xE).wellFormed 16 ∧
      (Instr.tlbFill 0x1000 .X 0xFFFFFFFFFFFFFFFF).wellFormed 16 ∧ (Instr.mmioRead 0 0 16).wellFormed 0 := by decide

theorem witness_DecodedRequestIsEncoded :
    decode 16 ⟨.internal 0x1F000, 3, 0x00000042, 0x1000, 0x2, []⟩ = .ok (.tlbFill 0x1000 .R 0x1F000) ∧
      Origin.internal 0x1F000 = (Instr.tlbFill 0x1000 .R 0x1F000).origin := ⟨rfl, rfl⟩

/-- One request for each clause, at the boundary: the last checked value of each field. -/
theorem witness_DecodeChecksInOrder :
    turnsAway 0x00000047 0 0 [] .reservedCode ∧ turnsAway 0x00000046 0 0 [] .internal ∧
      turnsAway 0x01000008 0 0 [] .reservedFlag ∧ turnsAway 0x03000030 0 0 [] .reservedFlag ∧
      turnsAway 0x00001108 0 0 [] .size ∧ turnsAway 0x00000130 0 0 [] .size ∧ turnsAway 0x00000011 0 1 [] .operand ∧
      turnsAway 0x00000021 1 0 [] .operand ∧ turnsAway 0x00000104 0 0 [] .payload := by decide

theorem witness_ContextWordRoundTrip : (0xF3F : Word) &&& ctxReservedMask = 0 := by decide

/-- A request of a free hart, a request of a hart inside a command, and a command in progress with nothing pending. -/
theorem witness_StepRunsDecoded : paramsOk placed.params = true ∧
    placed.pending = [⟨.external, 0, 0x402, 0x80000000, 0, []⟩] ∧ placed.failed = false ∧ placed.freed = false ∧
    0 < placed.params.harts ∧ placed.runningOf 0 = none ∧
    decode placed.params.maxAccess ⟨.external, 0, 0x402, 0x80000000, 0, []⟩ = .ok (.accessR 0x80000000 4) ∧
    (placed.putRunning ⟨0, .R, 0, 1, [], []⟩).runningOf 0 = some ⟨0, .R, 0, 1, [], []⟩ ∧
    (bare.putRunning ⟨3, .R, 0, 1, [], []⟩).pending = [] ∧
    (bare.putRunning ⟨3, .R, 0, 1, [], []⟩).running = [⟨3, .R, 0, 1, [], []⟩] :=
  ⟨by decide, by decide, rfl, rfl, by decide, by decide, rfl, by decide, rfl, rfl⟩

theorem witness_StepTurnsAway :
    paramsOk { defaultParams with tlbEntries := 3 } = false ∧
      (paramsOk State.reset.params = true ∧ State.reset.pending = [] ∧ State.reset.running = []) ∧
      refuses (step { placed with failed := true }) .notStarted ∧
      refuses (step { placed with freed := true }) .afterRamFree ∧
      refuses (step { placed with pending := [⟨.external, 4, 0x402, 0, 0, []⟩] }) .noSuchHart ∧
      refuses (step { placed with pending := [⟨.external, 3, 0x2, 0, 0, []⟩] }) (.undecodable .size) := by decide

theorem witness_ResetTlb : paramsOk { defaultParams with tlbEntries := 2, flushSlot0Tag := 0x10000000000001 } = true := by decide

theorem witness_LaunchState : paramsOk (withDevice .b4 .b16 [] bare).params = true := by decide

theorem witness_StepKeepsLegal : Legal placed ∧ answers (step placed) = true := by decide

theorem witness_LegalStepNeverFaults : Legal (disturbed bare) ∧ Legal (sv32Leaf 0x2000800F) := by decide

theorem witness_HartsFrame :
    (answers (exec .tlbFlush bare) = true ∧ Instr.tlbFlush.code ≠ .ctxSet) ∧ (1 ≠ bare.cur ∧ bare.env.others = []) ∧
      (answers (exec (.walk 0x1000 2) (sv32Leaf 0x2000800F)) = true ∧ (Instr.walk 0x1000 2).code ∈ [Code.ramInit, .walk]) ∧
      (bare.putRunning ⟨3, .R, 0x80000000, 1, [], []⟩).moveHart 3 ≠ bare.putRunning ⟨3, .R, 0x80000000, 1, [], []⟩ := by
  decide

theorem witness_ConfigurationFixed : answers (exec (.accessW 0x80000FFF [1, 2]) bare) = true ∧
    (Instr.accessW 0x80000FFF [1, 2]).code ≠ .ramInit ∧ (Instr.accessW 0x80000FFF [1, 2]).code ≠ .ramFree ∧
    bare.env.others = [] := by decide

theorem witness_OutputsOnlyGrow : answers (exec (.accessX 0x80000FFF 2) bare) = true := by decide

theorem witness_RamChangesAreEvents : holds (exec (.accessW 0x80000010 [7, 7]) (disturbed bare)) (fun t =>
    t.ramByte 0x10 != bare.ramByte 0x10) = true := by decide

theorem witness_RamEventsStayInRam : holds (exec (.accessR 0x800FFFFF 1) bare) (fun t =>
    newEvents bare t == [.ramRead 0 0x800FFFFF 1]) = true := by decide

theorem witness_ClassesDisjoint : Legal (withDevice .b4 .b4 [] bare) ∧ bare.ram.contains 0x80000000 = true ∧
    deviceContains ⟨0x10000000, 0x10001000, .b4, .b4, 0⟩ 0x10000FFF = true := by decide

theorem witness_RamInitResult :
    bare.ram.present = true ∧ (State.reset.ram.present = false ∧ State.reset.failed = false ∧ State.reset.running = []) ∧
      refuses (exec (.ramInit 0 0x1000) (State.reset.putRunning ⟨3, .R, 0, 1, [], []⟩)) .hartsRunning ∧
      ((0xFFFFFFFFFFFFF000 : Word).toNat % 4096 = 0 ∧ (0x1000 : Word).toNat % 4096 = 0 ∧ (0x1000 : Word).toNat ≠ 0 ∧
        (0xFFFFFFFFFFFFF000 : Word).toNat + (0x1000 : Word).toNat ≤ 2 ^ 64) ∧
      refuses (exec (.ramInit 0x10000000 0x1000) { (withDevice .b4 .b4 [] bare) with ram := Ram.absent }) .ramOverlapsDevice ∧
      State.reset.env.allocDraws = [] := by decide

theorem witness_RamFreeResult : (bare.ram.present = true ∧ bare.running = []) ∧
    (bare.putRunning ⟨3, .R, 0, 1, [], []⟩).running ≠ [] ∧ State.reset.ram.present = false := by decide

theorem witness_TlbLookupResult : paramsOk { defaultParams with tlbEntries := 2 } = true := by decide

theorem witness_TlbFillResult : paramsOk (sv32Leaf 0).params = true := by decide

theorem witness_FillHitsItsPage : answers (exec (.tlbFill 0x105000 .W (0x20000 - 0x105000)) bare) = true ∧
    (0x105FFF : Word) >>> 12 = (0x105000 : Word) >>> 12 ∧ paramsOk bare.params = true ∧
    (0x205000 : Word).toNat / 4096 % bare.params.tlbEntries = (0x105000 : Word).toNat / 4096 % bare.params.tlbEntries ∧
    (0x205000 : Word) >>> 12 ≠ (0x105000 : Word) >>> 12 := by decide

theorem witness_TlbFlushResult : paramsOk bare.params = true := by decide

theorem witness_TlbFlushPageResult : paramsOk bare.params = true ∧
    (0x200000 : Word).toNat / 4096 % bare.params.tlbEntries = (0x0 : Word).toNat / 4096 % bare.params.tlbEntries := by decide

theorem witness_CtxSetResult :
    (0x80010800 : Word).extractLsb' 0 12 ≠ 0 ∧
      ((0x80010000 : Word).extractLsb' 0 12 = 0 ∧ (0x141 : Word).extractLsb' 6 2 ≠ 0) ∧
      ((0x1101 : Word).extractLsb' 12 52 ≠ 0 ∧ (0x101 : Word).extractLsb' 6 2 = 0 ∧ (0x101 : Word).extractLsb' 12 52 = 0) := by
  decide

theorem witness_PseudoCommands : bare.ctx.root.extractLsb' 0 12 = 0 ∧ (0x80010000 : Word).extractLsb' 0 12 = 0 := by decide

theorem witness_ModeDecoder : (11 : BitVec 4).toNat ∉ [0, 1, 8, 9, 10] ∧
    answers (exec (.walk 0x1000 2) (sv32Leaf 0)) = true := by decide

/-- 95_test_vectors.md 2.3.3, Sv39: the first address that is not canonical, the last that is, and Sv32. -/
theorem witness_CanonicalCheck : Legal (sv39State 0) ∧
    ((sv39State 0).ctx.mode.toNat, 38) ∈ [(8, 38), (9, 47), (10, 56)] ∧
    (¬ ((0x4000000000 : Word).toNat / 2 ^ 38 = 0 ∨ (0x4000000000 : Word).toNat / 2 ^ 38 = 2 ^ (64 - 38) - 1)) ∧
    ((0x3FFFFFFFFF : Word).toNat / 2 ^ 38 = 0 ∧ (0xFFFFFFC000000000 : Word).toNat / 2 ^ 38 = 2 ^ (64 - 38) - 1) ∧
    Legal (sv32Leaf 0) ∧ (sv32Leaf 0).ctx.mode.toNat = 1 := by decide

theorem witness_WalkFields : sv57 ∈ [sv32, sv39, sv48, sv57] ∧ 4 < sv57.levels ∧ sv32 ∈ [sv32, sv39, sv48, sv57] ∧
    0 < sv32.levels := by decide

theorem witness_PteDecision : sv32 ∈ [sv32, sv39, sv48, sv57] ∧ 1 < sv32.levels ∧ isAccessMask 0xE = true := by decide

theorem witness_IgnoredPteFields : sv39 ∈ [sv32, sv39, sv48, sv57] ∧ 0 < sv39.levels ∧ isAccessMask 0x2 = true ∧
    (0xFFC0000020014003 : Word).extractLsb' 0 4 = (0x200143F3 : Word).extractLsb' 0 4 ∧
    (0xFFC0000020014003 : Word).extractLsb' 10 44 = (0x200143F3 : Word).extractLsb' 10 44 := by decide

theorem witness_WalkUndisturbed : Legal (sv39State 0x20014007) ∧ Quiet (sv39State 0x20014007) ∧
    modeParams (sv39State 0x20014007).ctx.mode = .paged sv39 ∧ isAccessMask 0x4 = true := by decide

theorem witness_WalkLoadCount : modeParams (sv32Leaf 0x2000800F).ctx.mode = .paged sv32 ∧
    holds (exec (.walk 0x1000 2) (sv32Leaf 0x2000800F)) (fun t =>
      t.returned == [⟨0, .walk (.ok 0x80020000)⟩]) = true := by decide

theorem witness_WalkAnswersAligned : Legal (disturbed (sv32Leaf 0x2000800F)) ∧
    modeParams (disturbed (sv32Leaf 0x2000800F)).ctx.mode = .paged sv32 ∧ bare.ctx.mode.toNat ∉ [1, 8, 9, 10] := by decide

theorem witness_FailedWalkChangesNothing : Quiet (sv32Leaf 0) ∧
    holds (exec (.walk 0x1000 2) (sv32Leaf 0)) (fun t => t.returned == [⟨0, .walk (.fault .invalid)⟩]) = true := by decide

/-- A swap that succeeds; one that fails is in `test_walk_loses_race`. -/
theorem witness_CasResultIgnored : modeParams (sv32Leaf 0x2000800F).ctx.mode = .paged sv32 ∧
    holds (exec (.walk 0x1000 2) (sv32Leaf 0x2000800F)) (fun t =>
      (ownEvents (sv32Leaf 0x2000800F) t).contains (.ramCas 0 0x80011004 4 0x2000800F 0x2000804F true)) = true := by decide

theorem witness_WalkSetsAccessedDirty : Legal (sv39State 0x20014007) ∧ Quiet (sv39State 0x20014007) ∧
    modeParams (sv39State 0x20014007).ctx.mode = .paged sv39 ∧
    holds (exec (.walk 0x40201234 4) (sv39State 0x20014007)) (fun t =>
      t.returned == [⟨0, .walk (.ok 0x80050234)⟩]) = true := by decide

theorem witness_AccessRefusals :
    2 ^ xlenBits (sv32Leaf 0).params.xlen ≤ (0x100000000 : Word).toNat ∧
      ((0xFFFFFFFF : Word).toNat < 2 ^ xlenBits (sv32Leaf 0).params.xlen ∧
        (if (st .x64 0 0x01B []).ctx.mprv = true ∧ Op.R ≠ .X then (st .x64 0 0x01B []).ctx.mpp
          else (st .x64 0 0x01B []).ctx.priv) = .reserved) := by decide

theorem witness_MxrAccessMask : (ctxOfWord 0 0x121).mxr = true ∧ (ctxOfWord 0 0x101).mxr = false := by decide

/-- A hit at the end of its page. -/
theorem witness_AccessHit : Legal (tlbFill .R 0x80001 (-0x80000000) bare) ∧ Quiet (tlbFill .R 0x80001 (-0x80000000) bare) ∧
    (tlbFill .R 0x80001 (-0x80000000) bare).freed = false ∧
    OnePage .R 0x80001FF0 16 [] (tlbFill .R 0x80001 (-0x80000000) bare) ∧
    tlbHit (tlbFill .R 0x80001 (-0x80000000) bare) .R ((0x80001FF0 : Word) >>> 12) = true := by decide

/-- A store through Bare, and a load through Sv32. -/
theorem witness_AccessRam :
    (Legal bare ∧ Quiet bare ∧ OnePage .W 0x800FFFFE 2 [1, 2] bare ∧ tlbHit bare .W ((0x800FFFFE : Word) >>> 12) = false ∧
      (quietTranslate .W 0x800FFFFE bare).1 = .phys 0x800FFFFE ∧
      physToHost (quietTranslate .W 0x800FFFFE bare).2.ram 0x800FFFFE = some 0xFFFFE) ∧
    (Legal (sv32Leaf 0x2000800F) ∧ Quiet (sv32Leaf 0x2000800F) ∧ OnePage .R 0x1000 4 [] (sv32Leaf 0x2000800F) ∧
      tlbHit (sv32Leaf 0x2000800F) .R ((0x1000 : Word) >>> 12) = false ∧
      (quietTranslate .R 0x1000 (sv32Leaf 0x2000800F)).1 = .phys 0x80020000 ∧
      physToHost (quietTranslate .R 0x1000 (sv32Leaf 0x2000800F)).2.ram 0x80020000 = some 0x20000) := by decide

/-- The device's last byte; the adapter answers, and answers with a failure. -/
theorem witness_AccessMmio :
    Legal (withDevice .b4 .b4 [bad] bare) ∧ Quiet (withDevice .b4 .b4 [bad] bare) ∧
      OnePage .R 0x10000FFF 1 [] (withDevice .b4 .b4 [bad] bare) ∧
      tlbHit (withDevice .b4 .b4 [bad] bare) .R ((0x10000FFF : Word) >>> 12) = false ∧
      (quietTranslate .R 0x10000FFF (withDevice .b4 .b4 [bad] bare)).1 = .phys 0x10000FFF ∧
      physToHost (quietTranslate .R 0x10000FFF (withDevice .b4 .b4 [bad] bare)).2.ram 0x10000FFF = none ∧
      findMmio (withDevice .b4 .b4 [bad] bare).params.devices 0x10000FFF = some 0 ∧
      (withDevice .b4 .b4 [bad] bare).params.devices[0]? = some ⟨0x10000000, 0x10001000, .b4, .b4, 0⟩ ∧
      holds (exec (.accessR 0x10000FFF 1) (withDevice .b4 .b4 [bad] bare)) (fun t =>
        t.history == [.devRead 0 0 0xFFC 4, .trap 0 5 0x10000FFF]) = true ∧
      holds (exec (.accessX 0x10000FFF 1) (withDevice .b4 .b4 [ok [1, 2, 3, 4]] bare)) (fun t =>
        value t == some (.command true [4])) = true := by decide

theorem witness_AccessVoid : Legal bare ∧ Quiet bare ∧ OnePage .X 0x80100000 4 [] bare ∧
    tlbHit bare .X ((0x80100000 : Word) >>> 12) = false ∧ (quietTranslate .X 0x80100000 bare).1 = .phys 0x80100000 ∧
    physToHost (quietTranslate .X 0x80100000 bare).2.ram 0x80100000 = none ∧
    findMmio bare.params.devices 0x80100000 = none := by decide

/-- A PERMISSION fault, and PTE_NOT_RAM with a root outside RAM. -/
theorem witness_AccessWalkFault :
    (Legal (sv32Leaf 0x20008003) ∧ Quiet (sv32Leaf 0x20008003) ∧ OnePage .W 0x1FFF 1 [9] (sv32Leaf 0x20008003) ∧
      tlbHit (sv32Leaf 0x20008003) .W ((0x1FFF : Word) >>> 12) = false ∧ effPriv (sv32Leaf 0x20008003).ctx .W ≠ .machine ∧
      modeParams (sv32Leaf 0x20008003).ctx.mode = .paged sv32 ∧
      (quietWalk sv32 0x1FFF (accessMask .union (sv32Leaf 0x20008003).ctx .W) (sv32Leaf 0x20008003)).1 = .fault .permission) ∧
    Legal (st .x32 0x10000000 0x101 []) ∧
    (quietWalk sv32 0x1000 0x4 (st .x32 0x10000000 0x101 [])).1 = .fault .pteNotRam := by decide

theorem witness_AccessUnknownMode : OnePage .R 0x80001000 1 [] (st .x64 0x80010000 0x501 []) ∧
    tlbHit (st .x64 0x80010000 0x501 []) .R ((0x80001000 : Word) >>> 12) = false ∧
    effPriv (st .x64 0x80010000 0x501 []).ctx .R ≠ .machine ∧
    (st .x64 0x80010000 0x501 []).ctx.mode.toNat ∉ [0, 1, 8, 9, 10] := by decide

/-- Both clauses: a first part that fails, and two parts of which the second fails or succeeds. -/
theorem witness_PageCrossing :
    (bufOk .R 4 [] ∧ 4096 < (0xFFE : Word).toNat % 4096 + 4 ∧ (0xFFE : Word).toNat < 2 ^ xlenBits bare.params.xlen ∧
      holds (exec (.accessR 0xFFE 2) bare) (fun t => value t == some (.command false [])) = true) ∧
    holds (exec (.accessR 0x800FFFFE 2) bare) (fun t => value t == some (.command true [0, 0])) = true ∧
    holds (exec (.accessR 0x80100000 2) bare) (fun t => value t == some (.command false [])) = true ∧
    holds (exec (.accessR 0x80001000 2) bare) (fun t => value t == some (.command true [0, 0])) = true := by decide

theorem witness_OneTrapPerFailure : bufOk .W 16 (List.replicate 16 7) ∧
    answers (exec (.accessW 0x800FFFF1 (List.replicate 16 7)) bare) = true ∧
    answers (exec (.accessW 0x80000FF1 (List.replicate 16 7)) bare) = true := by decide

theorem witness_TrapCauses : holds (exec (.accessW 0x1000 [1]) bare) (fun t =>
    (newEvents bare t).contains (.trap 0 7 0x1000)) = true := by decide

theorem witness_AccessFrame : bufOk .X 16 [] ∧ paramsOk bare.params = true ∧
    answers (exec (.accessX 0x80000FF1 16) bare) = true := by decide

theorem witness_FetchAndStoreContext :
    (ctxOfWord 0x80010000 0x129).mode = (sv32Leaf 0).ctx.mode ∧ (ctxOfWord 0x80010000 0x129).root = (sv32Leaf 0).ctx.root ∧
      (ctxOfWord 0x80010000 0x129).priv = (sv32Leaf 0).ctx.priv ∧
      (ctxOfWord 0x80010000 0x121).mprv = (sv32Leaf 0).ctx.mprv ∧ (ctxOfWord 0x80010000 0x121).mpp = (sv32Leaf 0).ctx.mpp := by
  decide

theorem witness_UserSupervisorAlike :
    (ctxOfWord 0x80010000 0x104).mode = (sv32Leaf 0).ctx.mode ∧ (ctxOfWord 0x80010000 0x104).root = (sv32Leaf 0).ctx.root ∧
      (ctxOfWord 0x80010000 0x104).mprv = (sv32Leaf 0).ctx.mprv ∧ (ctxOfWord 0x80010000 0x104).mxr = (sv32Leaf 0).ctx.mxr ∧
      ((ctxOfWord 0x80010000 0x104).priv ∈ [Priv.user, .supervisor] ∧ (sv32Leaf 0).ctx.priv ∈ [Priv.user, .supervisor]) ∧
      ((ctxOfWord 0x80010000 0x104).mpp ∈ [Priv.user, .supervisor] ∧ (sv32Leaf 0).ctx.mpp ∈ [Priv.user, .supervisor]) := by
  decide

theorem witness_DeviceCallsLegal : holds (exec (.accessW 0x10000001 [0xAA, 0xBB]) (withDevice .b4 .b4 [ok [], ok []] bare)) (fun t =>
    (newEvents bare t).map deviceCallOf == [some (0, 0, 4), some (0, 0, 4)]) = true := by decide

/-- The window clause at its boundary: size 8, offset 4: 12 bytes fit, 13 do not. -/
theorem witness_MmioEnds : paramsOk (withDevice .b8 .b8 [] bare).params = true ∧
    (withDevice .b8 .b8 [] bare).params.devices[(1 : Word).toNat]? = none ∧
    (withDevice .b8 .b8 [] bare).params.devices[(0 : Word).toNat]? = some ⟨0x10000000, 0x10001000, .b8, .b8, 0⟩ ∧
    (((13 : Nat) < opBytes .b8 ∨ (4 : Word).toNat % opBytes .b8 ≠ 0) ∧ 16 < (4 : Word).toNat % opBytes .b8 + 13) ∧
    ¬ 16 < (4 : Word).toNat % opBytes .b8 + 12 := by decide

theorem witness_MmioDirect :
    Quiet (withDevice .b2 .b4 [bad] bare) ∧
      (withDevice .b2 .b4 [bad] bare).params.devices[(0 : Word).toNat]? = some ⟨0x10000000, 0x10001000, .b2, .b4, 0⟩ ∧
      (6 : Word).toNat % opBytes .b2 = 0 ∧ opBytes .b2 ≤ 3 ∧ 3 ≤ opBytes .b4 ∧
      (withDevice .b2 .b4 [bad] bare).env.devAnswers = [bad] ∧ (withDevice .b2 .b4 [] bare).env.devAnswers = [] := by decide

theorem witness_MmioWiden :
    Quiet (withDevice .b4 .b8 [ok [], bad] bare) ∧
      (withDevice .b4 .b8 [ok [], bad] bare).params.devices[(0 : Word).toNat]? = some ⟨0x10000000, 0x10001000, .b4, .b8, 0⟩ ∧
      (withDevice .b4 .b8 [ok [], bad] bare).env.devAnswers = [ok [], bad] ∧ (ok []).ok = true ∧ bad.ok = false ∧
      (1 ≤ 5 ∧ (6 : Word).toNat % opBytes .b4 ≠ 0 ∧
        max (opBytes .b4) (pow2ceil ((6 : Word).toNat % opBytes .b4 + 5)) ≤ opBytes .b8) := by decide

theorem witness_MmioSplit :
    Quiet (withDevice .b2 .b4 [ok [], bad] bare) ∧
      (withDevice .b2 .b4 [ok [], bad] bare).params.devices[(0 : Word).toNat]? = some ⟨0x10000000, 0x10001000, .b2, .b4, 0⟩ ∧
      (withDevice .b2 .b4 [ok [], bad] bare).env.devAnswers = [ok [], bad] ∧ (0 : Word).toNat % opBytes .b2 = 0 ∧
      (opBytes .b4 < 5 ∧ 5 - 5 / 2 ≤ opBytes .b4 ∧ 5 / 2 % opBytes .b2 = 0 ∧ opBytes .b2 ≤ 5 / 2) := by decide

/-- A move that ends the command, and one that does not. -/
theorem witness_MovesAddUp :
    (bare.putRunning ⟨3, .R, 0x80000000, 1, [], []⟩).running = [⟨3, .R, 0x80000000, 1, [], []⟩] ∧
      Quiet (bare.putRunning ⟨3, .R, 0x80000000, 1, [], []⟩) ∧ paramsOk bare.params = true ∧
      3 ≠ bare.cur ∧ 3 < bare.params.harts ∧
      ((bare.putRunning ⟨3, .R, 0x80000000, 1, [], []⟩).moveHart 3).running = [] ∧
      ((bare.putRunning ⟨3, .R, 0x80000000, 2, [], []⟩).moveHart 3).running ≠ [] := by decide

theorem witness_AdapterIsByteGranular : opBytes .b2 ≤ opBytes .b4 ∧
    ¬ ((15 < opBytes .b2 ∨ (0xFFFFFFFFFFFFFFF9 : Word).toNat % opBytes .b2 ≠ 0) ∧
      16 < (0xFFFFFFFFFFFFFFF9 : Word).toNat % opBytes .b2 + 15) := by decide

end Sys2Proof.Tests
end

/-! ### Scope (00_scope.md): what a step runs, and the invariant of legal states

`Live` is a legal state of a run that has started and not ended: the states in which commands run. Every access, every move of
another hart and every write of another agent keeps it, and a program whose accesses are legal for the state's view (`Prog.Ok`)
therefore never reaches a fault and ends in a live state again (`run_live`). -/

namespace Sys2Proof.Machine

open Sys2Proof.Config

/-! #### One step -/

section Step

variable {s : State} {r : Request} {rest : List Request}

/-- A step whose request's hart is inside no command runs what the request decodes to. -/
theorem step_eq_exec {i : Instr} (hp : paramsOk s.params = true) (hq : s.pending = r :: rest) (hf : s.failed = false)
    (hr : s.freed = false) (hh : r.hart < s.params.harts) (hc : s.runningOf r.hart = none)
    (hd : decode s.params.maxAccess r = .ok i) : step s = exec i (s.take r rest) := by
  simp [step, hp, hq, hf, hr, hh, hc, hd]

/-- A step whose request's hart is inside a command performs what is left of that command. -/
theorem step_eq_resume {c : Running} (hp : paramsOk s.params = true) (hq : s.pending = r :: rest) (hf : s.failed = false)
    (hr : s.freed = false) (hh : r.hart < s.params.harts) (hc : s.runningOf r.hart = some c) : step s = resume c s := by
  simp [step, hp, hq, hf, hr, hh, hc]

/-- A step with no request pending performs what is left of the first command in progress. -/
theorem step_eq_resume_head {c : Running} {cs : List Running} (hp : paramsOk s.params = true) (hq : s.pending = [])
    (hc : s.running = c :: cs) : step s = resume c s := by
  simp [step, hp, hq, hc]

/-- A request after a false RAM.INIT, after RAM.FREE or of no hart is refused. -/
theorem step_turns_away (hp : paramsOk s.params = true) (hq : s.pending = r :: rest)
    (h : ¬ (s.failed = false ∧ s.freed = false ∧ r.hart < s.params.harts)) : ∃ why, step s = .refused why := by
  simp only [step, hp, hq, if_true]
  split_ifs with hf hr hh
  · exact ⟨_, rfl⟩
  · exact ⟨_, rfl⟩
  · exact absurd ⟨by simpa using hf, by simpa using hr, hh⟩ h
  · exact ⟨_, rfl⟩

end Step

/-- Settles O6: `step` unfolded along its three ways to run a command. -/
theorem stepRunsDecoded : Obligations.StepRunsDecoded := by
  intro s hp
  refine ⟨fun r rest hq hf hr hh => ⟨fun i hc hd => ?_, fun c hc => ?_⟩, fun c cs hq hc => ?_⟩
  · exact step_eq_exec hp hq hf hr hh hc hd
  · exact step_eq_resume hp hq hf hr hh hc
  · exact step_eq_resume_head hp hq hc

/-! #### What decodes -/

/-- What the decoder has checked of a request it accepts (30_encoding.md R84). -/
theorem decode_ok {m : Nat} {r : Request} {i : Instr} (h : decode m r = .ok i) :
    ∃ c, i = buildInstr c r ∧ (c.isInternal = true → r.origin.isExternal = false) ∧
      sizeOk m c (sizeField r.hdr).toNat = true ∧ operandsOk c r.a r.b = true ∧
      r.payload.length = payloadLength c (sizeField r.hdr).toNat := by
  unfold decode at h
  split at h
  · cases h
  · next c _ =>
    split_ifs at h with hinternal hflags hsize hoperands hpayload
    injection h with h
    exact ⟨c, h.symm, by simpa using hinternal, by simpa using hsize, by simpa using hoperands, by simpa using hpayload⟩

/-- What decodes is well formed (R83, R85). -/
theorem decode_wellFormed {m : Nat} {r : Request} {i : Instr} (h : decode m r = .ok i) : i.wellFormed m = true := by
  obtain ⟨c, rfl, -, hs, ho, hp⟩ := decode_ok h
  cases c with
  | accessR | accessX | mmioRead => exact hs
  | accessW | mmioWrite =>
    have hp : r.payload.length = _ := hp
    simpa [buildInstr, Instr.wellFormed, hp, payloadLength, sizeOk] using hs
  | walk => exact ho
  | _ => rfl

theorem buildInstr_code (c : Code) (r : Request) : (buildInstr c r).code = c := by cases c <;> rfl

/-- A request from outside decodes to no micro-operation (R84). -/
theorem decode_external {m : Nat} {r : Request} {i : Instr} (h : decode m r = .ok i) (hr : r.origin.isExternal = true) :
    i.code.isInternal = false := by
  obtain ⟨c, rfl, hc, -⟩ := decode_ok h
  rw [buildInstr_code]
  by_contra hi
  simp [hc (by simpa using hi)] at hr

/-! #### The commands that make no shared access -/

section Local

variable {s t : State}

/-- A CTX.SET that is not refused: its root is page-aligned, and it writes the context, with or without a flush (42_dispatcher.md
R196). -/
theorem execCtxSet_next {root w : Word} {satpw : Bool} (h : execCtxSet root w satpw s = .next t) :
    root &&& 0xFFF = 0 ∧ ∃ u, t = u.give (.command true []) ∧
      (u = s.setCtx (ctxOfWord root w) ∨ u = tlbFlush (s.setCtx (ctxOfWord root w))) := by
  unfold execCtxSet at h
  split_ifs at h with hroot hw
  injection h with h
  refine ⟨not_not.1 hroot, _, h.symm, ?_⟩
  split
  · exact .inr rfl
  · exact .inl rfl

/-- A RAM.INIT that is not refused: it fails, or it makes a region that no device overlaps; the draw changes the draws to come
(40_pam.md R123). -/
theorem execRamInit_next {start size : Word} (h : execRamInit start size s = .next t) :
    s.ram.present = false ∧ s.running = [] ∧ ∃ env ok, t = State.give
      (if ok then { s with env := env, ram := ⟨true, start, size, []⟩ } else { s with env := env, failed := true })
      (.command ok []) ∧
      (ok = true → ramRegionOk start size = true ∧ s.params.devices.any (deviceOverlapsRam start size) = false) := by
  have hdraw : (allocDraw start size s).2 = { s with env := (allocDraw start size s).2.env } := by
    unfold allocDraw; split <;> rfl
  simp only [execRamInit] at h
  split_ifs at h with hp hr hreg hdev
  all_goals
    simp only [Bool.or_eq_true, not_or, Bool.not_eq_true, Bool.not_eq_true', Bool.not_eq_false, List.isEmpty_iff] at hp hr
  · exact ⟨hp.1, hr, s.env, false, by simpa [initFails] using h.symm, by simp⟩
  · refine ⟨hp.1, hr, (allocDraw start size s).2.env, false, ?_, by simp⟩
    rw [hdraw] at h
    simpa [initFails] using h.symm
  · refine ⟨hp.1, hr, (allocDraw start size s).2.env, true, ?_, fun _ => ⟨by simpa using hreg, by simpa using hdev⟩⟩
    rw [hdraw] at h
    simpa using h.symm

/-- A RAM.FREE that is not refused (R124). -/
theorem execRamFree_next (h : execRamFree s = .next t) :
    s.running = [] ∧ t = State.give { s with ram := Ram.absent, freed := true } (.command true []) := by
  unfold execRamFree at h
  split_ifs at h with hp hr
  exact ⟨by simpa using hr, by simpa using h.symm⟩

end Local

/-! #### RAM events -/

section Events

variable {s t : State}

theorem newEvents_of_append {es : List Event} (h : t.history = s.history ++ es) : newEvents s t = es := by
  simp [newEvents, h]

/-- The new events of a command that runs a program of legal accesses, its movers' with them, lie in the RAM region. -/
theorem run_eventOk {p : Prog Value} {E : Refusal → Prop} {R : Value → Prop} (hp : p.Ok s.view False False E R)
    (h : finish (p.run s) = .next t) : ∀ e ∈ newEvents s t, EventOk s.ram e := by
  obtain ⟨v, u, hrun, rfl⟩ := finish_eq_next h
  obtain ⟨log, htr, ham, -⟩ := run_among hrun
  obtain ⟨es, hes, hall, -⟩ := ham.history
  rw [newEvents_of_append (t := u.give v) hes]
  intro e he
  rcases hall e he with hown | ⟨-, hmove⟩
  · obtain ⟨⟨x, r⟩, hc, hx⟩ := List.mem_filterMap.1 hown
    have hok : AtomOk s.view False x := (htr.sat hp fun _ _ c => c.elim).1 _ hc
    cases x <;> cases hx
    exact (EventOk.congr rfl rfl rfl e).1 hok.2.1
  · exact hmove

/-- A command that makes no access to RAM or a device emits nothing. -/
theorem eventOk_of_history_eq (h : t.history = s.history) : ∀ e ∈ newEvents s t, EventOk s.ram e := by
  simp [newEvents, h]

/-- The new events of every command lie in the RAM region (00_scope.md R11, R15, 40_pam.md R125). -/
theorem exec_eventOk {i : Instr} (h : exec i s = .next t) : ∀ e ∈ newEvents s t, EventOk s.ram e := by
  have access : ∀ op vaddr n buf, finish ((accessCommand s.view op vaddr n buf).run s) = .next t →
      ∀ e ∈ newEvents s t, EventOk s.ram e := fun op vaddr n buf =>
    run_eventOk (E := fun _ => True) (accessCommand_ok ⟨trivial, trivial, trivial⟩ False.elim False.elim id)
  have adapter : ∀ dir off dev n buf, finish ((mmioCommand s.view dir off dev n buf).run s) = .next t →
      ∀ e ∈ newEvents s t, EventOk s.ram e := fun dir off dev n buf =>
    run_eventOk (E := fun _ => True) (mmioCommand_ok ⟨trivial, trivial⟩ False.elim False.elim)
  cases i with
  | accessR v n => exact access _ _ _ _ h
  | accessW v bs => exact access _ _ _ _ h
  | accessX v n => exact access _ _ _ _ h
  | mmioRead off dev n => exact adapter _ _ _ _ _ h
  | mmioWrite off dev bs => exact adapter _ _ _ _ _ h
  | walk v acc => exact run_eventOk (E := fun _ => True) (walkCommand_ok trivial False.elim) h
  | ctxSet root w satpw =>
    obtain ⟨-, u, rfl, rfl | rfl⟩ := execCtxSet_next h <;> exact eventOk_of_history_eq rfl
  | ramInit start size =>
    obtain ⟨-, -, env, ok, rfl, -⟩ := execRamInit_next h
    cases ok <;> exact eventOk_of_history_eq rfl
  | ramFree =>
    obtain ⟨-, rfl⟩ := execRamFree_next h
    exact eventOk_of_history_eq rfl
  | tlbFlush | tlbFlushPage | tlbLookup | tlbFill | physToHost | findMmio =>
    injection h with h
    subst h
    exact eventOk_of_history_eq rfl

end Events

/-- Settles O16: a RAM event that `EventOk` holds of lies whole in the region that stood before. -/
theorem ramEventsStayInRam : Obligations.RamEventsStayInRam := by
  intro i s t h e he
  have hok := exec_eventOk h e he
  cases e with
  | ramRead | ramWrite | ramCas => exact hok
  | _ => trivial

/-! #### Live states -/

section Invariant

/-- A legal state of a run that has started and not ended: the states in which commands run. -/
structure Live (s : State) : Prop where
  params  : paramsOk s.params = true
  ram     : ramLegal s = true
  harts   : hartsLegal s = true
  running : runningLegal s = true
  cur     : s.cur < s.params.harts
  freed   : s.freed = false
  failed  : s.failed = false
  pending : ∀ r ∈ s.pending, r.origin.isExternal = true

variable {s t u : State} {α : Type} {x : Atom} {p : Prog α} {B : Prop} {E : Refusal → Prop} {R : α → Prop}

theorem Live.legal (h : Live s) : Legal s :=
  ⟨h.params, h.ram, h.harts, h.running, h.cur, by simp [h.freed, h.failed], by simpa using h.pending⟩

theorem live_of_legal (h : Legal s) (hr : s.freed = false) (hf : s.failed = false) : Live s := by
  obtain ⟨hparams, hram, hharts, hrunning, hcur, -, hpending⟩ := h
  exact ⟨hparams, hram, hharts, hrunning, hcur, hr, hf, by simpa using hpending⟩

/-- A legal state in which something is in progress is live. -/
theorem live_of_running (h : Legal s) {c : Running} (hc : c ∈ s.running) : Live s := by
  obtain ⟨-, -, -, -, -, hend, -⟩ := id h
  have hne : ¬ (s.freed = true ∨ s.failed = true) := fun k => by simp [(hend k).2] at hc
  simp only [not_or, Bool.not_eq_true] at hne
  exact live_of_legal h hne.1 hne.2

theorem Live.maxAccess_le (h : Live s) : s.params.maxAccess ≤ 16 := by
  have hp := h.params
  simp only [paramsOk, Bool.and_eq_true, decide_eq_true_eq] at hp
  obtain ⟨⟨⟨⟨-, hmax⟩, -⟩, -⟩, -⟩ := hp
  exact hmax

theorem Live.size_le (h : Live s) {n : Nat} (hn : accessSizeOk s.params.maxAccess n = true) : n ≤ 16 :=
  Laws.Encoding.access_size h.maxAccess_le hn

/-! #### Updates that keep a state live -/

theorem Live.outputs (h : Live s) (es : List Event) (rs : List Returned) (env : Env) :
    Live { s with history := es, returned := rs, env := env } :=
  ⟨h.params, h.ram, h.harts, h.running, h.cur, h.freed, h.failed, h.pending⟩

theorem Live.give (h : Live s) (v : Value) : Live (s.give v) := h.outputs s.history _ s.env

theorem Live.as (h : Live s) {k : Nat} (hk : k < s.params.harts) : Live (s.as k) :=
  ⟨h.params, h.ram, h.harts, h.running, hk, h.freed, h.failed, h.pending⟩

theorem Live.setPending (h : Live s) {rs : List Request} (hr : ∀ r ∈ rs, r ∈ s.pending) : Live { s with pending := rs } :=
  ⟨h.params, h.ram, h.harts, h.running, h.cur, h.freed, h.failed, fun r hm => h.pending r (hr r hm)⟩

/-- RAM's bytes may change inside the region. -/
theorem ramLegal_of_stored {P : Nat → Prop} (h : ramLegal s = true) (a : Stored s t P)
    (hP : ∀ o, P o → o < s.ram.size.toNat) : ramLegal t = true := by
  obtain ⟨hwf, hin⟩ := a.data hP (dataOk_of_legal h)
  have e := a.same
  have hsize : t.ram.size = s.ram.size := by rw [e]
  simp only [ramLegal, Bool.and_eq_true, List.all_eq_true, decide_eq_true_eq]
  refine ⟨⟨?_, hwf⟩, hin⟩
  simp only [ramLegal, Bool.and_eq_true] at h
  obtain ⟨⟨hregion, -⟩, -⟩ := h
  cases hp : s.ram.present with
  | true => rw [e]; simpa [hp] using hregion
  | false =>
    -- absent RAM lists no byte, before and after
    have habs : s.ram = Ram.absent := by simpa [hp] using hregion
    have hnil : t.ram.data = [] := List.eq_nil_iff_forall_not_mem.2 fun c hc => by
      have := hin c hc
      simp [hsize, habs, Ram.absent] at this
    rw [e, hnil, habs]
    rfl

/-! #### Commands in progress -/

theorem runningLegal_iff : runningLegal s = true ↔ (s.running.map Running.hart).Nodup ∧ ∀ c ∈ s.running, runningOk s c = true := by
  simp [runningLegal]

theorem replySound_view (s : State) (x : Atom) (y : Reply) : replySound s.view.ram x y = replySound s.ram x y := by
  cases x <;> rfl

/-- The replies a program can have had depend on RAM's region alone. -/
theorem seenSound_view {α : Type} (s : State) (l : List Reply) (p : Prog α) :
    seenSound s.view.ram l p = seenSound s.ram l p := by
  induction l generalizing p with
  | nil => rfl
  | cons y l ih =>
    cases p with
    | op x k => simp only [seenSound, ih, replySound_view]
    | _ => rfl

/-- Whether a command in progress is legal depends on what its hart sees of the machine. -/
theorem runningOk_congr {c : Running} (h : (t.as c.hart).view = (s.as c.hart).view) : runningOk t c = runningOk s c := by
  have hp : t.params = s.params := congrArg View.params h
  have hr : t.view.ram = s.view.ram := (congrArg View.ram h :)
  simp only [runningOk, hp, h]
  rw [← seenSound_view t, hr, seenSound_view s]

/-- The commands in progress stay legal while their harts see the same machine. -/
theorem runningLegal_congr (hr : t.running = s.running) (hv : ∀ c ∈ s.running, (t.as c.hart).view = (s.as c.hart).view)
    (h : runningLegal s = true) : runningLegal t = true := by
  rw [runningLegal_iff] at h ⊢
  rw [hr]
  exact ⟨h.1, fun c hc => (runningOk_congr (hv c hc)).trans (h.2 c hc)⟩

theorem Live.stored {P : Nat → Prop} (h : Live s) (a : Stored s t P) (hP : ∀ o, P o → o < s.ram.size.toNat) : Live t := by
  have hram := ramLegal_of_stored h.ram a hP
  rw [a.same] at hram ⊢
  exact ⟨h.params, hram, h.harts, runningLegal_congr (s := s) rfl (fun _ _ => rfl) h.running, h.cur, h.freed, h.failed, h.pending⟩

theorem Live.runningOk (h : Live s) {c : Running} (hc : c ∈ s.running) : runningOk s c = true :=
  (runningLegal_iff.1 h.running).2 c hc

/-- The command in progress of a hart stands in the list, under its hart. -/
theorem mem_of_runningOf {k : Nat} {c : Running} (h : s.runningOf k = some c) : c ∈ s.running ∧ c.hart = k :=
  ⟨List.mem_of_find?_eq_some h, by simpa using List.find?_some h⟩

theorem Live.dropRunning (h : Live s) (k : Nat) : Live (s.dropRunning k) := by
  refine ⟨h.params, h.ram, h.harts, runningLegal_iff.2 ⟨?_, fun c hc => ?_⟩, h.cur, h.freed, h.failed, h.pending⟩
  · exact (runningLegal_iff.1 h.running).1.sublist (List.filter_sublist.map _)
  · exact h.runningOk (List.mem_filter.1 hc).1

theorem Live.putRunning (h : Live s) {c : Running} (hc : Machine.runningOk s c = true) : Live (s.putRunning c) := by
  have hdrop := runningLegal_iff.1 (h.dropRunning c.hart).running
  refine ⟨h.params, h.ram, h.harts, runningLegal_iff.2 ⟨?_, fun d hd => ?_⟩, h.cur, h.freed, h.failed, h.pending⟩
  · rw [putRunning_running, List.map_append, List.nodup_append]
    refine ⟨hdrop.1, by simp, fun a ha b hb hab => ?_⟩
    obtain ⟨d, hd, rfl⟩ := List.mem_map.1 ha
    simp only [List.map_cons, List.map_nil, List.mem_singleton] at hb
    simpa [hab, hb] using (List.mem_filter.1 hd).2
  · rcases List.mem_append.1 hd with hd | hd
    · exact hdrop.2 d hd
    · rw [List.mem_singleton.1 hd]; exact hc

/-- The running hart may be written, if the commands in progress see the machine they saw. -/
theorem Live.setHart (h : Live s) {v : Hart} (hv : hartsLegal (s.setHart s.cur v) = true)
    (hsee : v.ctx = s.ctx ∨ s.runningOf s.cur = none) : Live (s.setHart s.cur v) := by
  refine ⟨h.params, h.ram, hv, runningLegal_congr (s := s) rfl (fun c hc => ?_) h.running, h.cur, h.freed, h.failed, h.pending⟩
  have hctx : ((s.setHart s.cur v).hart c.hart).ctx = (s.hart c.hart).ctx := by
    rw [setHart_hart]
    split
    · next e =>
      rcases hsee with hsee | hnone
      · rw [hsee, e]; rfl
      · exact absurd (by simp [e]) (List.find?_eq_none.1 hnone c hc)
    · rfl
  simp only [State.view, as_ctx, hctx]
  rfl

/-- The parts of a legal hart. -/
theorem hartLegal_iff {v : Hart} : hartLegal s v = true ↔ v.ctx.root &&& 0xFFF = 0 ∧
    Sparse.wf (flushedSlot s.params) v.tlb = true ∧
    ∀ c ∈ v.tlb, c.1 < s.params.tlbEntries ∧ (s.freed = true ∨ slotSound s.params s.ram c.1 c.2 = true) := by
  simp [hartLegal, and_assoc]

theorem Live.setSlot (h : Live s) {vpn : Word} {e : Slot}
    (he : slotSound s.params s.ram (slotIndex s.params vpn) e = true) : Live (s.setSlot (slotIndex s.params vpn) e) :=
  h.setHart (setSlot_legal h.params h.harts h.cur (slotIndex_lt h.params vpn) he) (.inl rfl)

theorem Live.tlbFlush (h : Live s) : Live (Machine.tlbFlush s) := by
  obtain ⟨hroot, -, -⟩ := hartLegal_iff.1 (hart_legal h.params h.harts s.cur)
  exact h.setHart (setHart_legal h.harts h.cur (hartLegal_iff.2 ⟨hroot, rfl, by simp⟩)) (.inl rfl)

theorem Live.setCtx (h : Live s) {c : Ctx} (hroot : c.root &&& 0xFFF = 0) (hnone : s.runningOf s.cur = none) :
    Live (s.setCtx c) := by
  obtain ⟨-, htlb⟩ := hartLegal_iff.1 (hart_legal h.params h.harts s.cur)
  exact h.setHart (setHart_legal h.harts h.cur (hartLegal_iff.2 ⟨hroot, htlb⟩)) (.inr hnone)

/-! #### Accesses -/

/-- A legal access of the running hart keeps a live state live. -/
theorem perform_live (h : Live s) (hx : AtomOk s.view B x) : Live (perform x s).2 := by
  cases x with
  | lookup | readByte | readWord | pteOrder => exact h
  | emit e => exact h.outputs _ s.returned s.env
  | fill op vpn bias => exact h.setSlot (filledSlot_sound h.params (hx (regionOk_of_legal h.ram)) op _)
  | writeByte o b =>
    obtain ⟨-, hlt⟩ := (holds_iff _ _ _).1 hx
    exact h.stored (setRamByte_stored s o b) fun j hj => by subst hj; exact hlt
  | cas o n expected desired =>
    obtain ⟨-, hle⟩ := (holds_iff _ _ _).1 hx
    exact h.stored (casWord_stored o n expected desired s) fun j hj => lt_of_lt_of_le hj.2.2 hle
  | device call =>
    have hdraw := (deviceDraw_same call s).1
    show Live (deviceDraw call s).2
    rw [hdraw]
    exact h.outputs s.history s.returned _

/-- Sound replies are answers that a program's safety allows for. -/
theorem answered_of_seenSound {C : Prop} {r : Ram} {l : List Reply} (h : seenSound r l p = true) :
    p.Answered (fun x y => C → replySound r x y = true) l := by
  induction l generalizing p with
  | nil => trivial
  | cons y l ih =>
    cases p with
    | op x k =>
      simp only [seenSound, Bool.and_eq_true] at h
      exact ⟨fun _ => h.1, ih h.2⟩
    | _ => trivial

theorem seenSound_append (r : Ram) (l m : List Reply) (p : Prog α) :
    seenSound r (l ++ m) p = (seenSound r l p && seenSound r m (p.after l)) := by
  induction l generalizing p with
  | nil => rfl
  | cons y l ih =>
    cases p with
    | op x k => simp [seenSound, Prog.after, ih, Bool.and_assoc]
    | _ => rfl

/-- What holds when accesses of p, answered with l, have led from a live state s to t: t is live, the running hart sees the machine
it saw, and the answers are sound, so that they can stand as the replies of a command in progress. -/
structure Goes (s : State) (p : Prog α) (l : List Reply) (t : State) : Prop where
  live : Live t
  view : t.view = s.view
  seen : seenSound s.view.ram l p = true

/-- What is left of the program is as legal as the program. -/
theorem Goes.rest {l : List Reply} (g : Goes s p l t) (hp : p.Ok s.view B True E R) : (p.after l).Ok t.view B True E R := by
  rw [g.view]
  exact Prog.Sat.after hp (answered_of_seenSound g.seen)

theorem Goes.trans {l m : List Reply} (g : Goes s p l t) (g' : Goes t (p.after l) m u) : Goes s p (l ++ m) u where
  live := g'.live
  view := g'.view.trans g.view
  seen := by
    have hm := g'.seen
    rw [g.view] at hm
    rw [seenSound_append, g.seen, hm, Bool.true_and]

/-- One access. -/
theorem goes_perform (h : Live s) {k : Reply → Prog α} (hx : AtomOk s.view B x) :
    Goes s (.op x k) [(perform x s).1] (perform x s).2 where
  live := perform_live h hx
  view := (perform_among x s (fun _ => False) (fun _ => False)).view
  seen := by
    have hsound := perform_sound h.params h.harts h.freed hx
    simp only [seenSound, replySound_view, hsound, Bool.and_self]

/-- The accesses up to the next shared one. -/
theorem goes_settle (h : Live s) (hp : p.Ok s.view B True E R) : Goes s p (p.settle s).seen (p.settle s).state := by
  induction p generalizing s with
  | op x k ih =>
    by_cases hshared : x.shared = true
    · simp only [Prog.settle, hshared, if_true]
      exact ⟨h, rfl, rfl⟩
    · simp only [Prog.settle, hshared, Bool.false_eq_true, if_false]
      have g : Goes s (.op x k) [(perform x s).1] (perform x s).2 := goes_perform h hp.1
      exact g.trans (ih _ g.live (g.rest hp))
  | _ => exact ⟨h, rfl, rfl⟩

/-! #### A command in progress goes on -/

/-- A legal command in progress makes legal accesses for its hart's view, and ends or is refused. -/
theorem runningOk_program (h : Live s) {c : Running} (hc : c.hart = s.cur) (hok : runningOk s c = true) :
    (c.program s.view).Ok s.view True True (fun _ => True) (fun _ => True) := by
  simp only [runningOk, Bool.and_eq_true, beq_iff_eq, hc, as_cur_self] at hok
  obtain ⟨⟨⟨-, hsize⟩, hbuf⟩, hseen⟩ := hok
  refine Prog.Sat.after (accessCommand_ok ⟨trivial, trivial, trivial⟩ (fun _ => ⟨viewOk_of_legal h.legal, h.size_le hsize⟩)
    (fun _ => hbuf) id) (answered_of_seenSound ?_)
  rwa [seenSound_view]

/-- A command in progress stays legal with more sound replies. -/
theorem runningOk_append {c : Running} (hc : c.hart = s.cur) (hok : runningOk s c = true) {l : List Reply}
    (g : Goes s (c.program s.view) l t) : runningOk t { c with seen := c.seen ++ l } = true := by
  have hview : (t.as c.hart).view = (s.as c.hart).view := by
    have hcur : t.cur = s.cur := congrArg View.hart g.view
    rw [hc, as_cur_self, ← g.view, ← hcur, as_cur_self]
  refine (runningOk_congr (c := { c with seen := c.seen ++ l }) hview).trans ?_
  have hseen := g.seen
  rw [seenSound_view] at hseen
  simp only [runningOk, Bool.and_eq_true, hc, as_cur_self, seenSound_append] at hok ⊢
  exact ⟨hok.1, hok.2, hseen⟩

/-- A command in progress that goes on by one shared access keeps a live state live. -/
theorem advance_live (h : Live s) {c : Running} (hc : c.hart = s.cur) (hok : runningOk s c = true)
    (ht : advance c s = some t) : Live t := by
  have hp := runningOk_program h hc hok
  have g := goes_settle h hp
  have hrest := g.rest hp
  rw [after_settle] at hrest
  unfold advance at ht
  simp only at ht
  split at ht
  · next x k hx =>
    rw [hx] at hrest
    have gx : Goes _ (.op x k) _ _ := goes_perform g.live hrest.1
    have gk := goes_settle gx.live (gx.rest hrest)
    have gxk := g.trans (by rw [after_settle, hx]; exact gx.trans gk)
    split at ht
    · injection ht with ht
      rw [← ht]
      exact (gxk.live.dropRunning _).give _
    all_goals
      injection ht with ht
      rw [← ht]
      refine gxk.live.putRunning ?_
      rw [List.append_assoc]
      exact runningOk_append hc hok gxk
  · injection ht with ht
    rw [← ht]
    exact (g.live.dropRunning _).give _
  · cases ht
  · cases ht

/-! #### Outcomes -/

/-- An outcome is no fault, and its next state meets P. -/
def Safely (P : State → Prop) (o : Host.Outcome State Fault Refusal) : Prop :=
  match o with
  | .next t => P t
  | .fault _ => False
  | .refused _ => True

theorem safely_iff {P : State → Prop} {o : Host.Outcome State Fault Refusal} :
    Safely P o ↔ (∀ f, o ≠ .fault f) ∧ ∀ t, o = .next t → P t := by
  cases o <;> simp [Safely]

theorem Safely.mono {P Q : State → Prop} {o : Host.Outcome State Fault Refusal} (h : Safely P o) (hPQ : ∀ t, P t → Q t) :
    Safely Q o := by
  cases o with
  | next t => exact hPQ t h
  | _ => exact h

/-- The next state of an outcome, if any. -/
theorem Safely.of_nextOf {P : State → Prop} {o : Host.Outcome State Fault Refusal} (h : Safely P o)
    (ht : nextOf o = some t) : P t := by
  cases o <;> cases ht
  exact h

/-! #### Commands that touch only their hart -/

theorem execTlbFlush_live (h : Live s) : Safely Live (execTlbFlush s) := h.tlbFlush.give _

theorem execTlbFlushPage_live (h : Live s) (v : Word) : Safely Live (execTlbFlushPage v s) :=
  (h.setSlot (flushedPageSlot_sound h.params (vpnOf v) _)).give _

theorem execCtxSet_live (h : Live s) (hnone : s.runningOf s.cur = none) (root w : Word) (satpw : Bool) :
    Safely Live (execCtxSet root w satpw s) := by
  refine safely_iff.2 ⟨fun f hf => ?_, fun t ht => ?_⟩
  · unfold execCtxSet at hf
    split_ifs at hf
    cases hf
  · obtain ⟨hroot, u, rfl, hu⟩ := execCtxSet_next ht
    have hset : Live (s.setCtx (ctxOfWord root w)) := h.setCtx hroot hnone
    rcases hu with rfl | rfl
    · exact hset.give _
    · exact hset.tlbFlush.give _

/-! #### ACCESS commands as commands in progress -/

/-- A well-formed ACCESS begins as a legal command in progress. -/
theorem runningOk_accessOf {k : Nat} {i : Instr} {c : Running} (hk : k < s.params.harts)
    (hi : i.wellFormed s.params.maxAccess = true) (hc : accessOf k i = some c) : runningOk s c = true := by
  cases i <;> cases hc <;> simpa [runningOk, hk, seenSound, Instr.wellFormed] using hi

/-- An ACCESS command is what a command in progress with no answer yet has left to do. -/
theorem exec_eq_complete {i : Instr} {c : Running} (hc : accessOf s.cur i = some c) : exec i s = complete c s := by
  cases i <;> cases hc <;> rfl

/-! #### The moves of other harts -/

theorem beginCommand_live (h : Live s) (hnone : s.runningOf s.cur = none) {i : Instr}
    (hi : i.wellFormed s.params.maxAccess = true) (ht : beginCommand i s = some t) : Live t := by
  have access : ∀ c, accessOf s.cur i = some c → advance c s = some t → Live t := fun c hc hadv =>
    advance_live h (accessOf_hart hc) (runningOk_accessOf h.cur hi hc) hadv
  cases i with
  | accessR | accessW | accessX => exact access _ rfl ht
  | tlbFlush => exact (execTlbFlush_live h).of_nextOf ht
  | tlbFlushPage v => exact (execTlbFlushPage_live h v).of_nextOf ht
  | ctxSet root w satpw => exact (execCtxSet_live h hnone root w satpw).of_nextOf ht
  | _ => cases ht

/-- The requests left in the queue stood in it. -/
theorem mem_of_mem_takeFirst {k : Nat} {rs : List Request} {q : Request × List Request} (h : takeFirst k rs = some q)
    {r : Request} (hr : r ∈ q.2) : r ∈ rs := by
  induction rs generalizing q with
  | nil => cases h
  | cons r' rs ih =>
    simp only [takeFirst] at h
    split at h
    · injection h with h
      subst h
      exact List.mem_cons_of_mem _ hr
    · obtain ⟨q', h', rfl⟩ := Option.map_eq_some_iff.1 h
      rcases List.mem_cons.1 hr with rfl | hr
      · exact List.mem_cons_self
      · exact List.mem_cons_of_mem _ (ih h' hr)

/-- The running hart going on keeps a live state live. -/
theorem goOn_live (h : Live s) (ht : goOn s = some t) : Live t := by
  unfold goOn at ht
  split at ht
  · next c hc =>
    obtain ⟨hmem, hhart⟩ := mem_of_runningOf hc
    exact advance_live h hhart (h.runningOk hmem) ht
  · next hnone =>
    obtain ⟨q, hq, ht⟩ := Option.bind_eq_some_iff.1 ht
    split at ht
    · next i hd => exact beginCommand_live (h.setPending fun _ => mem_of_mem_takeFirst hq) hnone (decode_wellFormed hd) ht
    · cases ht

theorem act_live (h : Live s) (a : Action) : Live (s.act a) := by
  cases a with
  | write o b => exact h.stored (foreignWrite_stored s o b) fun j hj => hj.2
  | move k =>
    show Live (s.moveHart k)
    unfold State.moveHart
    split
    · next hk =>
      split
      · next t ht =>
        have hparams : t.params = s.params := (goOn_moved ht).params
        exact (goOn_live (h.as hk.1) ht).as (by rw [hparams]; exact h.cur)
      · exact h
    · exact h

theorem foldl_act_live (h : Live s) (batch : List Action) : Live (batch.foldl State.act s) := by
  induction batch generalizing s with
  | nil => exact h
  | cons a batch ih => exact ih (act_live h a)

/-- What other agents do between two accesses keeps a live state live. -/
theorem interfere_live (h : Live s) : Live s.interfere := by
  unfold State.interfere
  split
  · exact h
  · exact foldl_act_live (h.outputs s.history s.returned _) _

/-! #### Whole commands -/

/-- A run among other agents that ends has ended in a value of R and a live state; it reaches no fault, and its refusals meet E. -/
def EndsLive (E : Refusal → Prop) (R : α → Prop) : Run α → Prop
  | .done a t => R a ∧ Live t
  | .fault _ => False
  | .refused e => E e

/-- An access among other agents: the state stays live, the hart sees the machine it saw, and the answer is sound. -/
theorem goes_performAmong (h : Live s) {x : Atom} {k : Reply → Prog α} (hx : AtomOk s.view B x) :
    Goes s (.op x k) [(performAmong x s).1] (performAmong x s).2 := by
  unfold performAmong
  split
  · have hview := (interfere_among s).1.view
    have g : Goes s.interfere (.op x k) _ _ := goes_perform (interfere_live h) (by rw [hview]; exact hx)
    exact ⟨g.live, g.view.trans hview, by rw [← hview]; exact g.seen⟩
  · exact goes_perform h hx

/-- From a live state a program of legal accesses never reaches a fault, whatever other agents do inside it. -/
theorem run_live (h : Live s) (hp : p.Ok s.view B True E R) : EndsLive E R (p.run s) := by
  induction p generalizing s with
  | done a => exact ⟨hp, h⟩
  | fault e => exact hp trivial
  | refused e => exact hp
  | op x k ih =>
    have g : Goes s (.op x k) _ _ := goes_performAmong h hp.1
    rw [run_op]
    exact ih _ g.live (g.rest hp)

theorem finish_live {E : Refusal → Prop} {R : Value → Prop} {r : Run Value} (h : EndsLive E R r) : Safely Live (finish r) := by
  cases r with
  | done v t => exact h.2.give v
  | fault e => exact h
  | refused e => trivial

theorem complete_live (h : Live s) {c : Running} (hc : c.hart = s.cur) (hok : runningOk s c = true) :
    Safely Live (complete c s) :=
  finish_live (run_live h (runningOk_program h hc hok))

theorem resume_live (h : Live s) {c : Running} (hc : c ∈ s.running) : Safely Live (resume c s) := by
  have hok := h.runningOk hc
  have hhart : c.hart < s.params.harts := by
    simp only [runningOk, Bool.and_eq_true, decide_eq_true_eq] at hok
    obtain ⟨⟨⟨hlt, -⟩, -⟩, -⟩ := hok
    exact hlt
  exact complete_live ((h.dropRunning c.hart).as hhart) rfl ((runningOk_congr (s := s) rfl).trans hok)

/-! #### RAM.INIT and RAM.FREE -/

/-- The harts stay legal when RAM is replaced, if slots that were sound, or need not be, stay so. -/
theorem hartsLegal_of_slots (h : hartsLegal s = true) (hp : t.params = s.params) (hh : t.harts = s.harts)
    (hslot : ∀ i e, s.freed = true ∨ slotSound s.params s.ram i e = true →
      t.freed = true ∨ slotSound s.params t.ram i e = true) : hartsLegal t = true := by
  simp only [hartsLegal, Bool.and_eq_true, List.all_eq_true, decide_eq_true_eq, hartLegal_iff, hp, hh] at h ⊢
  refine ⟨h.1, fun c hc => ?_⟩
  obtain ⟨hlt, hroot, hwf, htlb⟩ := h.2 c hc
  exact ⟨hlt, hroot, hwf, fun d hd => ⟨(htlb d hd).1, hslot _ _ (htlb d hd).2⟩⟩

/-- A slot that is sound without RAM has no live tag, and is sound with any RAM. -/
theorem slotSound_of_absent {q : Params} {r : Ram} (hr : r.present = false) {i : Nat} {e : Slot}
    (h : slotSound q r i e = true) (r' : Ram) : slotSound q r' i e = true := by
  simp only [slotSound, tagSound, biasSound, hr, Bool.false_and, Bool.or_false, Bool.and_eq_true] at h ⊢
  obtain ⟨⟨hR, hW⟩, hX⟩ := h
  simp only [hR, hW, hX, Bool.true_or, and_self]

/-- RAM.INIT makes a region that a legal state may have, or the machine is not started (40_pam.md R123). -/
theorem execRamInit_legal (h : Live s) (start size : Word) : Safely Legal (execRamInit start size s) := by
  refine safely_iff.2 ⟨fun f hf => ?_, fun t ht => ?_⟩
  · simp only [execRamInit] at hf
    split_ifs at hf <;> cases hf
  · obtain ⟨habs, hnone, env, ok, rfl, hok⟩ := execRamInit_next ht
    obtain ⟨-, -, -, -, -, -, hpending⟩ := h.legal
    cases ok with
    | false => exact ⟨h.params, h.ram, h.harts, h.running, h.cur, fun _ => ⟨habs, hnone⟩, hpending⟩
    | true =>
      obtain ⟨hregion, hdevices⟩ := hok rfl
      refine ⟨h.params, ?_, ?_, runningLegal_iff.2 (by simp [hnone]), h.cur, ?_, hpending⟩
      · simp only [List.any_eq_false] at hdevices
        simpa [ramLegal, hregion, Memory.wf] using hdevices
      · exact hartsLegal_of_slots h.harts rfl rfl fun i e hs => hs.imp_right fun hs => slotSound_of_absent habs hs _
      · simp [h.freed, h.failed]

/-- RAM.FREE ends the run (R124). -/
theorem execRamFree_legal (h : Live s) : Safely Legal (execRamFree s) := by
  refine safely_iff.2 ⟨fun f hf => ?_, fun t ht => ?_⟩
  · unfold execRamFree at hf
    split_ifs at hf
    cases hf
  · obtain ⟨hnone, rfl⟩ := execRamFree_next ht
    obtain ⟨-, -, -, -, -, -, hpending⟩ := h.legal
    exact ⟨h.params, rfl, hartsLegal_of_slots h.harts rfl rfl fun _ _ _ => .inl rfl, runningLegal_iff.2 (by simp [hnone]),
      h.cur, fun _ => ⟨rfl, hnone⟩, hpending⟩

/-! #### The step -/

/-- A command from outside, of a hart that is inside no other, runs safely from a live state. -/
theorem exec_legal (h : Live s) (hnone : s.runningOf s.cur = none) {i : Instr}
    (hi : i.wellFormed s.params.maxAccess = true) (hx : i.code.isInternal = false) : Safely Legal (exec i s) := by
  have access : ∀ c, accessOf s.cur i = some c → Safely Legal (exec i s) := fun c hc => by
    rw [exec_eq_complete hc]
    exact (complete_live h (accessOf_hart hc) (runningOk_accessOf h.cur hi hc)).mono fun _ => Live.legal
  cases i with
  | accessR | accessW | accessX => exact access _ rfl
  | tlbFlush => exact (execTlbFlush_live h).mono fun _ => Live.legal
  | tlbFlushPage v => exact (execTlbFlushPage_live h v).mono fun _ => Live.legal
  | ctxSet root w satpw => exact (execCtxSet_live h hnone root w satpw).mono fun _ => Live.legal
  | ramInit start size => exact execRamInit_legal h start size
  | ramFree => exact execRamFree_legal h
  | _ => cases hx

/-- The state in which a request's command runs is live. -/
theorem Live.take (h : Live s) {r : Request} {rest : List Request} (hq : s.pending = r :: rest)
    (hr : r.hart < s.params.harts) : Live (s.take r rest) :=
  (h.setPending (rs := rest) fun x hx => by simp [hq, hx]).as hr

/-- A step from a legal state reaches no fault, and its next state is legal. -/
theorem step_legal (h : Legal s) : Safely Legal (step s) := by
  obtain ⟨hparams, -⟩ := id h
  have resumed : ∀ c ∈ s.running, Safely Legal (resume c s) := fun c hc =>
    (resume_live (live_of_running h hc) hc).mono fun _ => Live.legal
  cases hq : s.pending with
  | nil =>
    cases hc : s.running with
    | nil => simpa [step, hparams, hq, hc, Safely] using h
    | cons c cs =>
      rw [step_eq_resume_head hparams hq hc]
      exact resumed c (by simp [hc])
  | cons r rest =>
    by_cases hrun : s.failed = false ∧ s.freed = false ∧ r.hart < s.params.harts
    · obtain ⟨hf, hr, hh⟩ := hrun
      have hlive := live_of_legal h hr hf
      cases hc : s.runningOf r.hart with
      | some c =>
        rw [step_eq_resume hparams hq hf hr hh hc]
        exact resumed c (mem_of_runningOf hc).1
      | none =>
        cases hd : decode s.params.maxAccess r with
        | error why => simp [step, hparams, hq, hf, hr, hh, hc, hd, Safely]
        | ok i =>
          rw [step_eq_exec hparams hq hf hr hh hc hd]
          exact exec_legal (hlive.take hq hh) hc (decode_wellFormed hd)
            (decode_external hd (hlive.pending r (by simp [hq])))
    · obtain ⟨why, he⟩ := step_turns_away hparams hq hrun
      rw [he]
      trivial

end Invariant

/-- Settles O10: every command, and every move of another hart inside it, keeps a legal state legal (`step_legal`). -/
theorem stepKeepsLegal : Obligations.StepKeepsLegal :=
  fun _ t h ht => (safely_iff.1 (step_legal h)).2 t ht

/-- Settles O11: the accesses of every program a legal state runs lie in RAM, and the adapter has the depth it needs
(`step_legal`). -/
theorem legalStepNeverFaults : Obligations.LegalStepNeverFaults :=
  fun _ f h => (safely_iff.1 (step_legal h)).1 f

end Sys2Proof.Machine

/-! ### State (10_state.md): what no command changes, and the launch

`Effect s i u` says once what a command that answers a next state can have done before it returns its value: it ran a program
(`Ran`), it changed its own hart alone, or it was RAM.INIT or RAM.FREE. The frame statements are read off it. -/

namespace Sys2Proof.Machine

open Sys2Proof.Config

/-! #### A program that ran to its end -/

section Ran

variable {s t u : State} {log : List (Atom × Reply)} {K : Nat → Prop}

/-- `u` is `s` after the running hart made the accesses of `log`, other agents acting in between: its events are its own and tell
of what it stored, and it filled slots of K only. -/
structure Ran (s u : State) (log : List (Atom × Reply)) (K : Nat → Prop) : Prop where
  among : Among s u log (Movers s) (foreignTo s)
  own   : ∀ e ∈ eventsOf log, eventHart e = s.cur
  trail : Trail s.view log (eventsOf log) K

/-- A program of legal accesses that ends has run. -/
theorem ran_of_run {p : Prog Value} {v : Value} {E : Refusal → Prop} {R : Value → Prop} (hp : p.Ok s.view False False E R)
    (ht : ∀ log, p.Trace log v → ∃ es, Trail s.view log es K) (h : p.run s = .done v u) :
    ∃ log, p.Trace log v ∧ Ran s u log K := by
  obtain ⟨log, htr, ham, -⟩ := run_among h
  obtain ⟨es, trail⟩ := ht log htr
  refine ⟨log, htr, ham, fun e he => ?_, by rwa [trail.events]⟩
  obtain ⟨⟨x, r⟩, hc, hx⟩ := List.mem_filterMap.1 he
  have hok : AtomOk s.view False x := (htr.sat hp fun _ _ c => c.elim).1 _ hc
  cases x <;> cases hx
  exact hok.1

/-- Nothing done is a run of no access. -/
theorem Ran.refl (s : State) (K : Nat → Prop) : Ran s s [] K := ⟨.refl _ _ _, by simp, .nil _ _⟩

/-- A TLB fill is a run of one access. -/
theorem ran_fill (s : State) (op : Op) (vpn bias : Word) :
    Ran s (tlbFill op vpn bias s) [(.fill op vpn bias, .unit)] (· = slotIndex s.params vpn) :=
  ⟨perform_among (.fill op vpn bias) s _ _, by simp [eventsOf], Trail.fill s.view op vpn bias .unit⟩

/-- The events that a run leaves in its hart's name are those of its accesses. -/
theorem Ran.ownEvents (r : Ran s u log K) (v : Value) : ownEvents s (u.give v) = eventsOf log := by
  obtain ⟨es, hes, -, hown⟩ := r.among.history
  rw [Machine.ownEvents, newEvents_of_append (t := u.give v) hes, hown r.own]

/-- A run that fills no slot leaves its hart. -/
theorem Ran.hart_eq (r : Ran s u log K) (hK : ∀ i, ¬ K i) : u.hart s.cur = s.hart s.cur :=
  r.among.hart fun op vpn bias y hm => hK _ (r.trail.fills op vpn bias y hm)

/-- A run leaves every slot of its hart that it does not fill. -/
theorem Ran.slot_eq (r : Ran s u log K) {i : Nat} (hi : ¬ K i) : u.slot s.cur i = s.slot s.cur i :=
  r.among.slots i fun op vpn bias y hm e => hi (e ▸ r.trail.fills op vpn bias y hm)

/-- A RAM byte that a run leaves otherwise was written by another agent, by another hart, or is told of by an event of the run. -/
theorem Ran.byte_told (r : Ran s u log K) {o : Nat} (h : u.ramByte o ≠ s.ramByte o) :
    foreignTo s o ∨ (∃ e ∈ eventsOf log, storesTo s.ram o e) ∨ ∃ k, k ≠ s.cur ∧ movesIn s k := by
  refine (r.among.bytes o h).imp_right (.imp_left fun ⟨c, hc, hs⟩ => ?_)
  obtain ⟨e, he, hto⟩ := r.trail.stores o c hc hs
  exact ⟨e, he, (view_storesTo s o e ▸ hto :)⟩

end Ran

/-! #### What a command can do -/

section Effect

variable {s t u : State} {i : Instr}

/-- The commands that leave their hart as it is. -/
abbrev KeepsHart (c : Code) : Prop :=
  c ∈ [.ramInit, .ramFree, .walk, .tlbLookup, .physToHost, .findMmio, .mmioRead, .mmioWrite]

/-- What a command can have done to `s` before it returns its value. -/
inductive Effect (s : State) : Instr → State → Prop
  /-- It ran a program; one that keeps its hart (`KeepsHart`) filled no slot. -/
  | ran {i : Instr} {u : State} {log : List (Atom × Reply)} {K : Nat → Prop} (run : Ran s u log K)
      (fills : KeepsHart i.code → ∀ j, ¬ K j) : Effect s i u
  /-- TLB.FLUSH, TLB.FLUSHPAGE, CTX.SET: it changed its own hart, and only CTX.SET the context. -/
  | ownHart {i : Instr} {u : State} (same : u = { s with harts := u.harts }) (others : ∀ h, h ≠ s.cur → u.hart h = s.hart h)
      (ctx : i.code ≠ .ctxSet → (u.hart s.cur).ctx = (s.hart s.cur).ctx) (code : ¬ KeepsHart i.code) : Effect s i u
  /-- RAM.INIT: the region, or the mark that the machine does not start; and the draws to come. -/
  | ramInit {start size : Word} (env : Env) (ram : Ram) (failed : Bool) :
      Effect s (.ramInit start size) { s with env := env, ram := ram, failed := failed }
  /-- RAM.FREE: no RAM, and the run ends. -/
  | ramFree : Effect s .ramFree { s with ram := Ram.absent, freed := true }

/-- An ACCESS that ends has run, and filled slots of the pages it touches only. -/
theorem accessCommand_ran {op : Op} {vaddr : Word} {n : Nat} {buf : List Byte} {v : Value} (hb : bufOk op n buf)
    (h : (accessCommand s.view op vaddr n buf).run s = .done v u) :
    ∃ log, (accessCommand s.view op vaddr n buf).Trace log v ∧ Ran s u log (accessSlots s.params vaddr n) := by
  refine ran_of_run (E := fun _ => True) (accessCommand_ok ⟨trivial, trivial, trivial⟩ False.elim False.elim id)
    (fun log htr => ?_) h
  obtain ⟨r, -, htr⟩ := accessCommand_trace htr
  obtain ⟨es, -, hr⟩ := access_trace hb htr
  cases r with
  | some data => exact ⟨es, hr.1⟩
  | none =>
    obtain ⟨c, tval, -, trail⟩ := hr
    exact ⟨_, trail⟩

/-- An adapter call that ends has run, and filled no slot. -/
theorem mmioCommand_ran {dir : Dir} {off dev : Word} {n : Nat} {buf : List Byte} {v : Value} (hb : DirBuf dir n buf)
    (h : (mmioCommand s.view dir off dev n buf).run s = .done v u) : ∃ log, Ran s u log (fun _ => False) := by
  refine (ran_of_run (E := fun _ => True) (mmioCommand_ok ⟨trivial, trivial⟩ False.elim False.elim) (fun log htr => ?_) h).imp
    fun _ hran => hran.2
  obtain ⟨r, d, -, -, htr⟩ := mmioCommand_trace htr
  obtain ⟨es, trail, -⟩ := mmio_trace hb htr
  exact ⟨es, trail⟩

/-- A WALK that ends has run, and filled no slot. -/
theorem walkCommand_ran {vaddr acc : Word} {v : Value} (h : (walkCommand s.view vaddr acc).run s = .done v u) :
    ∃ log, Ran s u log (fun _ => False) := by
  refine (ran_of_run (E := fun _ => True) (walkCommand_ok trivial False.elim) (fun log htr => ?_) h).imp fun _ hran => hran.2
  obtain ⟨wp, r, -, -, htr⟩ := walkCommand_trace htr
  obtain ⟨es, trail, -⟩ := walk_trace htr
  exact ⟨es, trail⟩

/-- Every command that answers a next state has one of these effects and returns a value. -/
theorem exec_effect (h : exec i s = .next t) : ∃ u v, t = u.give v ∧ Effect s i u := by
  have access : ∀ op vaddr n buf, bufOk op n buf → ¬ KeepsHart i.code →
      finish ((accessCommand s.view op vaddr n buf).run s) = .next t → ∃ u v, t = u.give v ∧ Effect s i u := by
    intro op vaddr n buf hb hcode h
    obtain ⟨v, u, hrun, rfl⟩ := finish_eq_next h
    obtain ⟨log, -, hran⟩ := accessCommand_ran hb hrun
    exact ⟨u, v, rfl, .ran hran fun hk => absurd hk hcode⟩
  have adapter : ∀ dir off dev n buf, DirBuf dir n buf →
      finish ((mmioCommand s.view dir off dev n buf).run s) = .next t → ∃ u v, t = u.give v ∧ Effect s i u := by
    intro dir off dev n buf hb h
    obtain ⟨v, u, hrun, rfl⟩ := finish_eq_next h
    obtain ⟨log, hran⟩ := mmioCommand_ran hb hrun
    exact ⟨u, v, rfl, .ran hran fun _ _ => id⟩
  cases i with
  | accessR v n => exact access _ _ _ _ rfl (by simp [Instr.code]) h
  | accessW v bs => exact access _ _ _ _ rfl (by simp [Instr.code]) h
  | accessX v n => exact access _ _ _ _ rfl (by simp [Instr.code]) h
  | mmioRead off dev n => exact adapter _ _ _ _ _ (by simp [DirBuf]) h
  | mmioWrite off dev bs => exact adapter _ _ _ _ _ (fun _ => rfl) h
  | walk v acc =>
    obtain ⟨x, u, hrun, rfl⟩ := finish_eq_next h
    obtain ⟨log, hran⟩ := walkCommand_ran hrun
    exact ⟨u, x, rfl, .ran hran fun _ _ => id⟩
  | tlbLookup | physToHost | findMmio =>
    injection h with h
    exact ⟨s, _, h.symm, .ran (.refl s fun _ => False) fun _ _ => id⟩
  | tlbFill v op bias =>
    injection h with h
    exact ⟨_, _, h.symm, .ran (ran_fill s op (vpnOf v) bias) fun hk => absurd hk (by simp [Instr.code])⟩
  | tlbFlush =>
    injection h with h
    exact ⟨_, _, h.symm, .ownHart rfl (fun k hk => setHart_hart_other s hk _) (fun _ => tlbFlush_hart_ctx s s.cur)
      (by simp [Instr.code])⟩
  | tlbFlushPage v =>
    injection h with h
    exact ⟨_, _, h.symm, .ownHart rfl (fun k hk => setHart_hart_other s hk _) (fun _ => setSlot_hart_ctx s _ _ s.cur)
      (by simp [Instr.code])⟩
  | ctxSet root w satpw =>
    obtain ⟨-, u, rfl, rfl | rfl⟩ := execCtxSet_next h
    · exact ⟨_, _, rfl, .ownHart rfl (fun k hk => setHart_hart_other s hk _) (fun hc => absurd rfl hc) (by simp [Instr.code])⟩
    · exact ⟨_, _, rfl, .ownHart rfl
        (fun k hk => (setHart_hart_other (s.setCtx _) hk _).trans (setHart_hart_other s hk _)) (fun hc => absurd rfl hc)
        (by simp [Instr.code])⟩
  | ramInit start size =>
    obtain ⟨-, -, env, ok, rfl, -⟩ := execRamInit_next h
    cases ok
    · exact ⟨_, _, rfl, .ramInit env s.ram true⟩
    · exact ⟨_, _, rfl, .ramInit env _ s.failed⟩
  | ramFree =>
    obtain ⟨-, rfl⟩ := execRamFree_next h
    exact ⟨_, _, rfl, .ramFree⟩

/-! #### What the effects leave -/

theorem Effect.cur_eq (e : Effect s i u) : u.cur = s.cur := by
  cases e with
  | ran run => exact run.among.cur
  | ownHart same => rw [same]
  | ramInit => rfl
  | ramFree => rfl

theorem Effect.params_eq (e : Effect s i u) : u.params = s.params := by
  cases e with
  | ran run => exact run.among.params
  | ownHart same => rw [same]
  | ramInit => rfl
  | ramFree => rfl

/-- Only CTX.SET writes its hart's context (10_state.md R20). -/
theorem Effect.ctx_eq (e : Effect s i u) (hi : i.code ≠ .ctxSet) : (u.hart s.cur).ctx = (s.hart s.cur).ctx := by
  cases e with
  | ran run => exact run.among.ctx
  | ownHart _ _ ctx => exact ctx hi
  | ramInit => rfl
  | ramFree => rfl

/-- A hart that does not go on inside another's command is unchanged by it (R26, 60_exceptions.md R320). -/
theorem Effect.other_hart_eq (e : Effect s i u) {h : Nat} (hne : h ≠ s.cur) (hm : ¬ movesIn s h) : u.hart h = s.hart h := by
  cases e with
  | ran run => exact run.among.harts h hne fun k => hm k.2
  | ownHart _ others => exact others h hne
  | ramInit => rfl
  | ramFree => rfl

theorem Effect.own_hart_eq (e : Effect s i u) (hi : KeepsHart i.code) : u.hart s.cur = s.hart s.cur := by
  cases e with
  | ran run fills => exact run.hart_eq (fills hi)
  | ownHart _ _ _ code => exact absurd hi code
  | ramInit => rfl
  | ramFree => rfl

/-- The queue of a hart that does not go on inside the command, and what it has in progress, stay. -/
theorem Effect.queue_eq (e : Effect s i u) {h : Nat} (hh : h = s.cur ∨ ¬ movesIn s h) :
    u.pending.filter (fun r => r.hart == h) = s.pending.filter (fun r => r.hart == h) ∧ u.runningOf h = s.runningOf h := by
  have hstay : ¬ Movers s h := fun k => hh.elim k.1 fun hm => hm k.2
  cases e with
  | ran run => exact ⟨run.among.pending h hstay, run.among.running h hstay⟩
  | ownHart same => rw [same]; exact ⟨rfl, rfl⟩
  | ramInit => exact ⟨rfl, rfl⟩
  | ramFree => exact ⟨rfl, rfl⟩

/-- Only RAM.FREE ends the run (40_pam.md R124). -/
theorem Effect.freed_eq (e : Effect s i u) (hi : i ≠ .ramFree) : u.freed = s.freed := by
  cases e with
  | ran run => exact run.among.freed
  | ownHart same => rw [same]
  | ramInit => rfl
  | ramFree => exact absurd rfl hi

/-- Only RAM.INIT can keep the machine from starting (R123). -/
theorem Effect.failed_eq (e : Effect s i u) (hi : ∀ a b, i ≠ .ramInit a b) : u.failed = s.failed := by
  cases e with
  | ran run => exact run.among.failed
  | ownHart same => rw [same]
  | ramInit => exact absurd rfl (hi _ _)
  | ramFree => rfl

/-- Only RAM.INIT and RAM.FREE change the RAM region (10_state.md R29). -/
theorem Effect.region_eq (e : Effect s i u) (hinit : ∀ a b, i ≠ .ramInit a b) (hfree : i ≠ .ramFree) :
    u.ram.present = s.ram.present ∧ u.ram.begin = s.ram.begin ∧ u.ram.size = s.ram.size := by
  cases e with
  | ran run => exact ⟨run.among.present, run.among.begin, run.among.size⟩
  | ownHart same => rw [same]; exact ⟨rfl, rfl, rfl⟩
  | ramInit => exact absurd rfl (hinit _ _)
  | ramFree => exact absurd rfl hfree

/-- The history grows, and the harts that went on inside the command were returned values of their own only (R33). -/
theorem Effect.outputs (e : Effect s i u) :
    s.history <+: u.history ∧ ∃ rs, u.returned = s.returned ++ rs ∧ ∀ r ∈ rs, r.hart ≠ s.cur := by
  cases e with
  | ran run =>
    obtain ⟨es, hes, -⟩ := run.among.history
    obtain ⟨rs, hrs, hown⟩ := run.among.returned
    exact ⟨⟨es, hes.symm⟩, rs, hrs, fun r hr => (hown r hr).1⟩
  | ownHart same => rw [same]; exact ⟨List.prefix_rfl, [], by simp⟩
  | ramInit => exact ⟨List.prefix_rfl, [], by simp⟩
  | ramFree => exact ⟨List.prefix_rfl, [], by simp⟩

/-- The value given after such outputs is the one value new to the running hart. -/
theorem returns_give {rs : List Returned} (hcur : u.cur = s.cur) (hrs : u.returned = s.returned ++ rs)
    (hother : ∀ r ∈ rs, r.hart ≠ s.cur) (v : Value) : Returns s (u.give v) v := by
  have hnone : rs.filter (fun r => r.hart == s.cur) = [] := by simpa [List.filter_eq_nil_iff] using hother
  refine ⟨by simp [hrs], ?_⟩
  simp [newValues, hrs, hcur, hnone]

end Effect

/-! #### The moves of another hart -/

section Moves

variable (s : State) (h : Nat)

/-- A move changes no hart but its own, is returned no value for another, and leaves the command another has in progress. -/
theorem moveHart_leaves {g : Nat} (hg : g ≠ h) :
    (s.moveHart h).hart g = s.hart g ∧ newValues s (s.moveHart h) g = [] ∧ (s.moveHart h).runningOf g = s.runningOf g := by
  obtain ⟨a, -⟩ := moveHart_among s h
  have hstay : ¬ (g = h ∧ g ≠ s.cur) := fun k => hg k.1
  obtain ⟨rs, hrs, hown⟩ := a.returned
  refine ⟨?_, ?_, a.running g hstay⟩
  · by_cases hc : g = s.cur
    · subst hc
      exact a.hart (by simp)
    · exact a.harts g hc hstay
  · have hnone : rs.filter (fun r => r.hart == g) = [] := by
      rw [List.filter_eq_nil_iff]
      intro r hr
      simpa [(hown r hr).1] using hg.symm
    simp [newValues, hrs, hnone]

/-- What a move emits is of its own hart. -/
theorem eventHart_of_moveHart {e : Event} (he : e ∈ newEvents s (s.moveHart h)) : eventHart e = h := by
  obtain ⟨a, -⟩ := moveHart_among s h
  obtain ⟨es, hes, hown, -⟩ := a.history
  rw [newEvents_of_append hes] at he
  rcases hown e he with hnone | ⟨⟨hmove, -⟩, -⟩
  · simp at hnone
  · exact hmove

end Moves

/-- Settles O12: read off the effect of the command (`exec_effect`), and off what a move of another hart can do. -/
theorem hartsFrame : Obligations.HartsFrame := by
  refine ⟨fun i s t ht => ?_, fun s h => ⟨fun g hg => moveHart_leaves s h hg, fun e he => eventHart_of_moveHart s h he⟩⟩
  obtain ⟨u, v, rfl, e⟩ := exec_effect ht
  exact ⟨e.ctx_eq, fun h => e.other_hart_eq, e.own_hart_eq⟩

/-- Settles O13: each clause is one that the command's effect keeps. -/
theorem configurationFixed : Obligations.ConfigurationFixed := by
  intro i s t ht
  obtain ⟨u, v, rfl, e⟩ := exec_effect ht
  exact ⟨e.params_eq, e.cur_eq, e.freed_eq, fun h => e.queue_eq, fun hi => ⟨e.failed_eq hi, e.region_eq hi⟩⟩

/-- Settles O14: before its value is given, a command has appended events, and values for other harts alone. -/
theorem outputsOnlyGrow : Obligations.OutputsOnlyGrow := by
  intro i s t ht
  obtain ⟨u, v, rfl, e⟩ := exec_effect ht
  obtain ⟨hhistory, rs, hrs, hother⟩ := e.outputs
  exact ⟨hhistory, v, returns_give e.cur_eq hrs hother v, by simp [e.cur_eq]⟩

/-- Settles O15: a command that is not RAM.INIT or RAM.FREE and changes a byte has run a program, whose events tell of what it
stores (`Ran.byte_told`). -/
theorem ramChangesAreEvents : Obligations.RamChangesAreEvents := by
  intro i s t ht hinit hfree o ho
  obtain ⟨u, v, rfl, e⟩ := exec_effect ht
  cases e with
  | ran run =>
    rw [run.ownEvents]
    exact run.byte_told ho
  | ownHart same => rw [same] at ho; exact absurd rfl ho
  | ramInit => exact absurd rfl (hinit _ _)
  | ramFree => exact absurd rfl hfree

/-! #### The frame of an ACCESS -/

section AccessFrame

variable {v : View} {op : Op} {vaddr paddr : Word} {n : Nat} {buf : List Byte} {log : List (Atom × Reply)}
  {r : Option (List Byte)}

/-- An event that is neither a write of data nor the hook of one. -/
def noDataWrite : Event → Bool
  | .ramWrite _ _ _ _ | .jitInvalidate _ _ _ _ => false
  | .trap _ _ _ | .devRead _ _ _ _ | .devWrite _ _ _ _ _ | .ramRead _ _ _ | .ramCas _ _ _ _ _ _ => true

theorem noDataWrite_of_walkEvent {e : Event} (h : isWalkEvent e = true) : noDataWrite e = true := by
  cases e with
  | ramRead | ramCas => rfl
  | _ => cases h

theorem noDataWrite_of_legalCall {k : Nat} {d : Device} {e : Event} (h : LegalCall k d e) : noDataWrite e = true := by
  obtain ⟨off, n, h, -⟩ := h
  cases e with
  | devRead | devWrite => rfl
  | _ => cases h

/-- No event of the log writes data. -/
def WritesNoData (log : List (Atom × Reply)) : Prop := ∀ e ∈ eventsOf log, noDataWrite e = true

theorem WritesNoData.nil : WritesNoData [] := by simp [WritesNoData]

theorem WritesNoData.append {l m : List (Atom × Reply)} (a : WritesNoData l) (b : WritesNoData m) : WritesNoData (l ++ m) := by
  intro e he
  rw [eventsOf_append, List.mem_append] at he
  exact he.elim (a e) (b e)

theorem WritesNoData.of_trail {es : List Event} {K : Nat → Prop} (a : Trail v log es K) (h : ∀ e ∈ es, noDataWrite e = true) :
    WritesNoData log := by
  rwa [WritesNoData, a.events]

/-- The copy of a READ or EXEC is one RamRead. -/
theorem copy_writesNoData {o : Word} (hop : op ≠ .W) (h : (copy v op o n buf).Trace log r) : WritesNoData log := by
  have read : ∀ {l bs}, (ramRead v o n).Trace l bs → WritesNoData l := fun h1 =>
    .of_trail (ramRead_trace (K := fun _ => True) h1).1 (by simp [noDataWrite])
  cases op with
  | W => exact absurd rfl hop
  | R | X =>
    obtain ⟨l, m, bs, rfl, h1, h2⟩ := Prog.Trace.bind_inv h
    obtain ⟨rfl, -⟩ := h2.done_inv
    exact (read h1).append .nil

theorem trapOut_writesNoData {c : TrapClass} (h : (trapOut v c op vaddr).Trace log r) : WritesNoData log :=
  .of_trail (trapOut_trace (K := fun _ => True) h).2 (by simp [noDataWrite])

/-- An adapter call emits the events of its callbacks alone, even of a read-modify-write. -/
theorem mmioHit_writesNoData {k : Nat} (hop : op ≠ .W) (h : (mmioHit v op vaddr paddr k n buf).Trace log r) :
    WritesNoData log := by
  unfold mmioHit at h
  split at h
  · exact h.not_refused.elim
  · obtain ⟨l, m, r1, rfl, h1, h2⟩ := Prog.Trace.bind_inv h
    have hb : DirBuf (opDir op) n buf := by
      cases op <;> simp_all [DirBuf, opDir]
    obtain ⟨es, trail, hes, -⟩ := mmio_trace (K := fun _ => True) hb h1
    refine (WritesNoData.of_trail trail fun e he => noDataWrite_of_legalCall (hes e he)).append ?_
    cases r1 with
    | some data =>
      obtain ⟨rfl, -⟩ := h2.done_inv
      exact .nil
    | none => exact trapOut_writesNoData h2

theorem accessPhys_writesNoData (hop : op ≠ .W) (h : (accessPhys v op vaddr paddr n buf).Trace log r) : WritesNoData log := by
  unfold accessPhys at h
  split at h
  · obtain ⟨l, m, x, rfl, h1, h2⟩ := Prog.Trace.bind_inv h
    exact (WritesNoData.of_trail (ramHit_trace h1) (by simp [hop])).append (copy_writesNoData hop h2)
  · split at h
    · exact mmioHit_writesNoData hop h
    · exact trapOut_writesNoData h

theorem access1_writesNoData (hop : op ≠ .W) (h : (access1 v op vaddr n buf).Trace log r) : WritesNoData log := by
  unfold access1 at h
  split at h
  · exact h.not_refused.elim
  · obtain ⟨y, l, rfl, h0⟩ := Prog.Trace.prog_inv h
    refine WritesNoData.append (l := [_]) (.of_trail (Trail.plain v rfl y fun _ => True) (by simp)) ?_
    split at h0
    · exact copy_writesNoData hop h0
    · obtain ⟨l, m, t, rfl, h1, h2⟩ := Prog.Trace.bind_inv h0
      obtain ⟨es, trail, hes⟩ := translate_trace (K := fun _ => True) h1
      refine (WritesNoData.of_trail trail fun e he => noDataWrite_of_walkEvent (hes e he)).append ?_
      cases t with
      | phys paddr => exact accessPhys_writesNoData hop h2
      | trap c => exact trapOut_writesNoData h2

/-- A READ or EXEC writes no data, whether it succeeds or not. -/
theorem access_writesNoData (hop : op ≠ .W) (h : (access v op vaddr n buf).Trace log r) : WritesNoData log := by
  unfold access at h
  split at h
  · obtain ⟨l, m, r1, rfl, h1, h2⟩ := Prog.Trace.bind_inv h
    refine (access1_writesNoData hop h1).append ?_
    cases r1 with
    | none =>
      obtain ⟨rfl, -⟩ := h2.done_inv
      exact .nil
    | some lo =>
      obtain ⟨l, m, r2, rfl, h3, h4⟩ := Prog.Trace.bind_inv h2
      refine (access1_writesNoData hop h3).append ?_
      cases r2 <;> obtain ⟨rfl, -⟩ := h4.done_inv <;> exact .nil
  · exact access1_writesNoData hop h

/-- The second part of a crossing access starts at the next page, modulo 2^XLEN (42_dispatcher.md R181). -/
theorem secondAddr_toNat (p : Params) (vaddr : Word) :
    (secondAddr p vaddr).toNat = (vaddr.toNat + (4096 - vaddr.toNat % 4096)) % 2 ^ xlenBits p.xlen := by
  have hx : xlenBits p.xlen ≤ 64 := by cases p.xlen <;> decide
  have hmask : (mask (xlenBits p.xlen)).toNat = 2 ^ xlenBits p.xlen - 1 := by
    have := Nat.pow_le_pow_right (n := 2) (by decide) hx
    have := Nat.two_pow_pos (xlenBits p.xlen)
    rw [mask, BitVec.toNat_ofNat, Nat.mod_eq_of_lt (by omega)]
  rw [secondAddr, wrapAddr, BitVec.toNat_and, hmask, Nat.and_two_pow_sub_one_eq_mod, BitVec.toNat_add, BitVec.toNat_ofNat,
    Nat.add_mod_mod, Nat.mod_mod_of_dvd _ (Nat.pow_dvd_pow 2 hx), firstPart, pageOffset_eq, pageSize]

/-- The slots of the pages an access touches, in integers (43_tlb.md R220). -/
theorem not_accessSlots {p : Params} (hp : paramsOk p = true) {i : Nat} (h1 : i ≠ vaddr.toNat / 4096 % p.tlbEntries)
    (h2 : 4096 < vaddr.toNat % 4096 + n →
      i ≠ (vaddr.toNat + (4096 - vaddr.toNat % 4096)) % 2 ^ xlenBits p.xlen / 4096 % p.tlbEntries) :
    ¬ accessSlots p vaddr n i := by
  obtain ⟨b, -, hb, -⟩ := paramsOk_tlb hp
  rw [hb] at h1 h2
  rintro (rfl | ⟨hc, rfl⟩)
  · rw [slotIndex_eq hb, vpnOf_toNat] at h1
    exact h1 rfl
  · simp only [crosses, decide_eq_true_eq, pageOffset_eq, pageSize] at hc
    rw [slotIndex_eq hb, vpnOf_toNat, secondAddr_toNat] at h2
    exact h2 hc rfl

/-- An ACCESS command runs its program with the buffer it has. -/
theorem exec_accessInstr {s : State} (hb : bufOk op n buf) :
    exec (accessInstr op vaddr n buf) s = finish ((accessCommand s.view op vaddr n buf).run s) := by
  have hlen : buf.length = if op = .W then n else 0 := hb
  cases op with
  | W => rw [if_pos rfl] at hlen; rw [← hlen]; rfl
  | R | X => rw [List.length_eq_zero_iff.1 hlen]; rfl

end AccessFrame

/-- Settles O52: an ACCESS runs a program that fills slots of its pages only (`accessCommand_ran`); a READ's or EXEC's events write
no data (`access_writesNoData`). -/
theorem accessFrame : Obligations.AccessFrame := by
  intro s t op v n buf _ hb hp ht
  rw [exec_accessInstr hb] at ht
  obtain ⟨x, u, hrun, rfl⟩ := finish_eq_next ht
  obtain ⟨log, htr, run⟩ := accessCommand_ran hb hrun
  refine ⟨run.among.ctx, fun h hne hm => run.among.harts h hne fun k => hm k.2,
    fun i h1 h2 => run.slot_eq (not_accessSlots hp h1 h2), fun hop e he => ?_⟩
  obtain ⟨r, -, htr⟩ := accessCommand_trace htr
  rw [run.ownEvents] at he
  have hno := access_writesNoData hop htr e he
  cases e with
  | ramWrite | jitInvalidate => cases hno
  | _ => trivial

/-! #### The launch -/

/-- A launch under legal parameters is a legal state: no RAM, no slot and no command in progress can break a rule. -/
theorem launch_legal {p : Params} (h : paramsOk p = true) : Legal (State.launch p) := by
  have hharts : 0 < p.harts := by
    simp only [paramsOk, Bool.and_eq_true, decide_eq_true_eq] at h
    omega
  exact ⟨h, rfl, rfl, rfl, hharts, fun _ => ⟨rfl, rfl⟩, rfl⟩

/-- Settles O9: the fields of a launch as they are written, and `launch_legal`. -/
theorem launchState : Obligations.LaunchState :=
  ⟨rfl, launch_legal (by decide), fun _ => ⟨fun _ => rfl, rfl, rfl, rfl, launch_legal⟩⟩

end Sys2Proof.Machine

/-! ### Memory (20_memory.md): the accesses of a command one after another, PTE accesses and device calls

`Prog.Steps` says what a hart's accesses are when nobody acts in between. A move of a command in progress is some of these steps
(`advance_steps`), which is why moves add up to the command and why a mover's device calls are as legal as a command's own. -/

namespace Sys2Proof.Machine

open Sys2Proof.Config

/-! #### Accesses of one hart, one after another -/

section Steps

variable {α : Type} {p q r : Prog α} {s t u : State} {l m : List Reply}

/-- From state s the accesses of p that are answered with l leave the program q and the state t, nobody else acting. -/
inductive Prog.Steps : Prog α → State → List Reply → Prog α → State → Prop
  | refl (p : Prog α) (s : State) : Steps p s [] p s
  | op {x : Atom} {k : Reply → Prog α} {s : State} {l : List Reply} {q : Prog α} {t : State} :
      Steps (k (perform x s).1) (perform x s).2 l q t → Steps (.op x k) s ((perform x s).1 :: l) q t

theorem Prog.Steps.trans (a : p.Steps s l q t) (b : q.Steps t m r u) : p.Steps s (l ++ m) r u := by
  induction a with
  | refl => exact b
  | op _ ih => exact .op (ih b)

/-- The answers of steps lead to the program they leave. -/
theorem Prog.Steps.after_eq (a : p.Steps s l q t) : p.after l = q := by
  induction a with
  | refl => rfl
  | op _ ih => exact ih

/-- The accesses up to the next shared one are steps. -/
theorem settle_steps (p : Prog α) (s : State) : p.Steps s (p.settle s).seen (p.settle s).prog (p.settle s).state := by
  induction p generalizing s with
  | op x k ih =>
    by_cases h : x.shared = true
    · simp only [Prog.settle, h, if_true]
      exact .refl _ _
    · simp only [Prog.settle, h, Bool.false_eq_true, if_false]
      exact .op (ih _ _)
  | _ => exact .refl _ _

/-- A command in progress that goes on makes steps, and has then ended or is in progress with their answers seen. -/
theorem advance_steps {c : Running} (h : advance c s = some t) : ∃ l q u, (c.program s.view).Steps s l q u ∧
    ((∃ v, q = .done v ∧ t = (u.dropRunning c.hart).give v) ∨ t = u.putRunning { c with seen := c.seen ++ l }) := by
  have a := settle_steps (c.program s.view) s
  unfold advance at h
  simp only at h
  split at h
  · next x k hx =>
    rw [hx] at a
    have b := a.trans (.op (settle_steps (k _) _))
    rw [List.append_assoc] at h
    split at h
    · next v hv => exact ⟨_, _, _, b, .inl ⟨v, hv, by injection h with h; exact h.symm⟩⟩
    all_goals
      injection h with h
      exact ⟨_, _, _, b, .inr h.symm⟩
  · next v hv =>
    rw [hv] at a
    exact ⟨_, _, _, a, .inl ⟨v, rfl, by injection h with h; exact h.symm⟩⟩
  · cases h
  · cases h

/-! #### What no access changes -/

/-- What accesses leave: what the command sees of the machine, the requests, the commands in progress, the other agents to come. -/
structure Still (s t : State) : Prop where
  view    : t.view = s.view
  pending : t.pending = s.pending
  running : t.running = s.running
  others  : t.env.others = s.env.others

/-- An access leaves the requests and the commands in progress. -/
theorem perform_queues (x : Atom) (s : State) :
    (perform x s).2.pending = s.pending ∧ (perform x s).2.running = s.running := by
  cases x with
  | cas o n e d =>
    have h := (casWord_stored o n e d s).same
    exact ⟨(congrArg State.pending h :), (congrArg State.running h :)⟩
  | device call =>
    have h := (deviceDraw_same call s).1
    exact ⟨(congrArg State.pending h :), (congrArg State.running h :)⟩
  | _ => exact ⟨rfl, rfl⟩

theorem perform_still (x : Atom) (s : State) : Still s (perform x s).2 :=
  ⟨(perform_among x s (fun _ => False) (fun _ => False)).view, (perform_queues x s).1, (perform_queues x s).2,
    perform_others x s⟩

theorem Prog.Steps.still (a : p.Steps s l q t) : Still s t := by
  induction a with
  | refl => exact ⟨rfl, rfl, rfl, rfl⟩
  | @op x k s l q t _ ih =>
    have h := perform_still x s
    exact ⟨ih.view.trans h.view, ih.pending.trans h.pending, ih.running.trans h.running, ih.others.trans h.others⟩

/-! #### No access looks at the commands in progress -/

theorem bytesAt_dropRunning (s : State) (h o n : Nat) : (s.dropRunning h).bytesAt o n = s.bytesAt o n := by
  simp only [bytesAt_eq_map, dropRunning_ramByte]

theorem setBytes_dropRunning (s : State) (h o : Nat) (bs : List Byte) :
    (s.dropRunning h).setBytes o bs = (s.setBytes o bs).dropRunning h := by
  induction bs generalizing s o with
  | nil => rfl
  | cons b bs ih => exact ih (s.setRamByte o b) (o + 1)

/-- An access answers and does the same when a hart has no command in progress any more. -/
theorem perform_dropRunning (x : Atom) (s : State) (h : Nat) :
    perform x (s.dropRunning h) = ((perform x s).1, (perform x s).2.dropRunning h) := by
  cases x with
  | readWord o n => simp only [perform, bytesAt_dropRunning]
  | cas o n e d =>
    simp only [perform, casWord, bytesAt_dropRunning, setBytes_dropRunning]
    split <;> rfl
  | device call =>
    simp only [perform, deviceDraw, dropRunning_env]
    split <;> rfl
  | _ => rfl

/-- Steps, and then the rest, are the program. -/
theorem Prog.Steps.runOn_eq (a : p.Steps s l q t) (h : Nat) :
    q.runOn perform (t.dropRunning h) = p.runOn perform (s.dropRunning h) := by
  induction a with
  | refl => rfl
  | @op x k s l q t _ ih =>
    rw [ih]
    show _ = (k _).runOn perform _
    rw [perform_dropRunning]

end Steps

/-! #### The moves of a command in progress -/

section MovesAddUp

variable {s : State} {c : Running}

/-- Undisturbed, a command is resumed without interference. -/
theorem resume_quiet (h : Quiet s) (c : Running) :
    resume c s = finish ((c.program (s.as c.hart).view).runOn perform ((s.as c.hart).dropRunning c.hart)) :=
  congrArg finish (run_quiet _ h)

/-- A move of a hart inside a command is an advance of the command. -/
theorem moveHart_of_running {h : Nat} (hc : s.runningOf h = some c) (hh : h < s.params.harts) (hne : h ≠ s.cur) :
    s.moveHart h = ((advance c (s.as h)).map fun t => t.as s.cur).getD s := by
  have hc' : (s.as h).runningOf (s.as h).cur = some c := hc
  rw [State.moveHart, if_pos ⟨hh, hne⟩, goOn, hc']
  simp only
  cases advance c (s.as h) <;> rfl

/-- A command put in progress and dropped again leaves what was there without it. -/
theorem putRunning_dropRunning (s : State) (c : Running) : (s.putRunning c).dropRunning c.hart = s.dropRunning c.hart := by
  simp [State.putRunning, State.dropRunning]

/-- A command in progress of the running hart, resumed later. -/
theorem resume_putRunning (h : Quiet s) (hc : c.hart = s.cur) (k : Nat) :
    resume c ((s.putRunning c).as k) = finish ((c.program s.view).runOn perform (s.dropRunning c.hart)) := by
  have hdrop : (((s.putRunning c).as k).as c.hart).dropRunning c.hart = s.dropRunning c.hart := by
    show ((s.putRunning c).dropRunning c.hart).as c.hart = _
    rw [putRunning_dropRunning, hc]
    rfl
  have hview : (((s.putRunning c).as k).as c.hart).view = s.view := by rw [hc]; rfl
  rw [resume_quiet (s := (s.putRunning c).as k) h, hdrop, hview]

/-- A command with more answers has left what was left of it, after these answers. -/
theorem program_append (v : View) (c : Running) (l : List Reply) :
    Running.program v { c with seen := c.seen ++ l } = (c.program v).after l := Prog.after_append _ _ _

end MovesAddUp

/-- Settles O25: a move makes some of the steps of its hart's command (`advance_steps`), and steps followed by what is left of
the program are the program (`Prog.Steps.runOn_eq`). -/
theorem movesAddUp : Obligations.MovesAddUp := by
  intro s c hp hq hpend hrun hne hlt
  have hstep : step s = _ := (step_eq_resume_head hp hpend hrun).trans (resume_quiet hq c)
  rw [moveHart_of_running (c := c) (by simp [State.runningOf, hrun]) hlt hne]
  cases hadv : advance c (s.as c.hart) with
  | none => exact ⟨fun h => by simp [hrun] at h, fun _ => rfl⟩
  | some t =>
    obtain ⟨l, q, u, hsteps, hend⟩ := advance_steps hadv
    have still := hsteps.still
    have hcur : u.cur = c.hart := congrArg View.hart still.view
    rw [← hsteps.runOn_eq] at hstep
    rcases hend with ⟨v, rfl, rfl⟩ | rfl
    · -- the command has ended
      refine ⟨fun _ => ?_, fun h => absurd (by simp [still.running, hrun]) h⟩
      rw [hstep, ← hcur]
      rfl
    · -- the command is in progress, with more answers
      refine ⟨fun h => by simp at h, fun _ => ?_⟩
      have hparams : u.params = s.params := congrArg View.params still.view
      have hrunning : u.running.filter (fun d => d.hart != c.hart) = [] := by simp [still.running, hrun]
      have hresume := resume_putRunning (c := { c with seen := c.seen ++ l }) (still.others.trans hq) hcur.symm s.cur
      rw [program_append, still.view, hsteps.after_eq] at hresume
      rw [Option.map_some, Option.getD_some, hstep, ← hresume]
      exact step_eq_resume_head (cs := []) (by simpa [hparams] using hp) (by simpa [still.pending] using hpend)
        (by simp [hrunning])

/-! #### PTE accesses are aligned (R54) -/

section PteAccess

variable {v : View} {wp : WalkParams} {vaddr acc : Word} {log : List (Atom × Reply)}

/-- A RamRead or RamCas of PTE size at a multiple of it. -/
def IsPteAccess (wp : WalkParams) : Event → Prop
  | .ramRead _ p n | .ramCas _ p n _ _ _ => n = wp.pteBytes ∧ p.toNat % n = 0
  | .trap _ _ _ | .jitInvalidate _ _ _ _ | .devRead _ _ _ _ | .devWrite _ _ _ _ _ | .ramWrite _ _ _ _ => False

/-- Every event of the log is a PTE access. -/
def PteAccesses (wp : WalkParams) (log : List (Atom × Reply)) : Prop := ∀ e ∈ eventsOf log, IsPteAccess wp e

theorem PteAccesses.nil : PteAccesses wp [] := by simp [PteAccesses]

theorem PteAccesses.append {l m : List (Atom × Reply)} (a : PteAccesses wp l) (b : PteAccesses wp m) :
    PteAccesses wp (l ++ m) := by
  intro e he
  rw [eventsOf_append, List.mem_append] at he
  exact he.elim (a e) (b e)

theorem PteAccesses.of_trail {e : Event} {K : Nat → Prop} (a : Trail v log [e] K) (h : IsPteAccess wp e) :
    PteAccesses wp log := by
  rw [PteAccesses, a.events]
  simpa using h

/-- The physical address of the RAM offset of a physical address. -/
theorem physOf_physToHost {r : Ram} {p o : Word} (h : physToHost r p = some o) : r.physOf o = p := by
  obtain ⟨-, rfl, -⟩ := physToHost_some h
  rw [Ram.physOf, BitVec.add_comm, BitVec.sub_add_cancel]

/-- From a page-aligned table a walk's loads are aligned PTE accesses, and so is an access to the leaf it finds. -/
theorem findLeaf_aligned (hm : IsMode wp) {n : Nat} {table : Word} (ht : table &&& 0xFFF = 0) {r : LeafResult}
    (h : (findLeaf v wp vaddr acc n table).Trace log r) :
    PteAccesses wp log ∧ ∀ l, r = .leaf l → (v.ram.physOf l.offset).toNat % wp.pteBytes = 0 := by
  induction n generalizing table log with
  | zero =>
    obtain ⟨rfl, rfl⟩ := h.done_inv
    exact ⟨.nil, fun l hl => by cases hl⟩
  | succ n ih =>
    simp only [findLeaf] at h
    split at h
    · obtain ⟨rfl, rfl⟩ := h.done_inv
      exact ⟨.nil, fun l hl => by cases hl⟩
    · next o ho =>
      have halign : (v.ram.physOf o).toNat % wp.pteBytes = 0 := by
        rw [physOf_physToHost ho]
        exact pteAddress_aligned hm.bounds.1 ht vaddr n
      obtain ⟨l1, l2, pte, rfl, h1, h2⟩ := Prog.Trace.bind_inv h
      have hload : PteAccesses wp l1 := .of_trail (loadPte_trace (K := fun _ => True) h1).1 ⟨rfl, halign⟩
      split at h2
      · obtain ⟨rfl, rfl⟩ := h2.done_inv
        exact ⟨hload.append .nil, fun l hl => by cases hl⟩
      · obtain ⟨rfl, rfl⟩ := h2.done_inv
        exact ⟨hload.append .nil, fun l hl => by injection hl with hl; rw [← hl]; exact halign⟩
      · next hs =>
        obtain ⟨hrest, hleaf⟩ := ih (pteStep_next_aligned hs) h2
        exact ⟨hload.append hrest, hleaf⟩

/-- A walk from a page-aligned root makes aligned PTE accesses only. -/
theorem walk_aligned (hm : IsMode wp) (ht : v.ctx.root &&& 0xFFF = 0) {r : WalkResult}
    (h : (walk v wp vaddr acc).Trace log r) : PteAccesses wp log := by
  unfold walk at h
  split at h
  · obtain ⟨l1, l2, lr, rfl, h1, h2⟩ := Prog.Trace.bind_inv h
    obtain ⟨hloads, hleaf⟩ := findLeaf_aligned hm ht h1
    refine hloads.append ?_
    cases lr with
    | fault why =>
      obtain ⟨rfl, -⟩ := h2.done_inv
      exact .nil
    | leaf l =>
      obtain ⟨l3, l4, x, rfl, h3, h4⟩ := Prog.Trace.bind_inv h2
      obtain ⟨rfl, -⟩ := h4.done_inv
      refine PteAccesses.append ?_ .nil
      rcases updateAD_trace (K := fun _ => True) h3 with ⟨rfl, -⟩ | ⟨-, ok, trail⟩
      · exact .nil
      · exact .of_trail trail ⟨rfl, hleaf l rfl⟩
  · obtain ⟨rfl, -⟩ := h.done_inv
    exact .nil

/-- Without RAM a walk loads nothing and faults. -/
theorem walk_absent (h : v.ram.present = false) : ∃ why, walk v wp vaddr acc = .done (.fault why) := by
  have hphys : ∀ p, physToHost v.ram p = none := fun p => by simp [physToHost, Ram.contains, h]
  unfold walk
  split
  · cases wp.levels with
    | zero => exact ⟨_, rfl⟩
    | succ n => exact ⟨.pteNotRam, by simp only [findLeaf, hphys, Prog.done_bind]⟩
  · exact ⟨_, rfl⟩

/-- From a legal state in a paged mode WALK ends with its walk's result, whatever other agents do inside it. -/
theorem walkCommand_ends {s : State} (h : Legal s) (hm : modeParams s.ctx.mode = .paged wp) :
    ∃ r u, (walkCommand s.view vaddr acc).run s = .done (.walk r) u := by
  have hcommand : walkCommand s.view vaddr acc = (walk s.view wp vaddr acc).bind fun r => .done (.walk r) := by
    simp only [walkCommand, view_ctx, hm]
  rw [hcommand, run_bind]
  by_cases hend : s.freed = true ∨ s.failed = true
  · -- a run that has ended or not started has no RAM
    obtain ⟨-, -, -, -, -, hstopped, -⟩ := h
    obtain ⟨why, hwalk⟩ := walk_absent (v := s.view) (wp := wp) (vaddr := vaddr) (acc := acc) (hstopped hend).1
    exact ⟨.fault why, s, by rw [hwalk]; rfl⟩
  · simp only [not_or, Bool.not_eq_true] at hend
    have view := viewOk_of_legal h
    have hlive := run_live (live_of_legal h hend.1 hend.2) (B := True) (E := fun _ => False)
      (walk_ok (vaddr := vaddr) (acc := acc) (modeParams_paged hm) (fun _ => view.region) fun _ => view.root)
    cases hrun : (walk s.view wp vaddr acc).run s with
    | done r u => exact ⟨r, u, rfl⟩
    | fault e => rw [hrun] at hlive; exact hlive.elim
    | refused e => rw [hrun] at hlive; exact hlive.elim

/-- A WALK from a page-aligned root that ends has run aligned PTE accesses only, and filled no slot. -/
theorem walkCommand_ran_aligned {s u : State} {x : Value} (ht : s.ctx.root &&& 0xFFF = 0)
    (hm : modeParams s.ctx.mode = .paged wp) (h : (walkCommand s.view vaddr acc).run s = .done x u) :
    ∃ log, Ran s u log (fun _ => False) ∧ PteAccesses wp log := by
  obtain ⟨log, htr, hran⟩ := ran_of_run (K := fun _ => False) (E := fun _ => True) (walkCommand_ok trivial False.elim)
    (fun log htr => by
      obtain ⟨_, r, -, -, htr⟩ := walkCommand_trace htr
      exact (walk_trace htr).imp fun es hes => hes.1) h
  obtain ⟨wp', r, hm', -, htr⟩ := walkCommand_trace htr
  obtain rfl : wp = wp' := Paging.paged.inj (hm.symm.trans hm')
  exact ⟨log, hran, walk_aligned (modeParams_paged hm) ht htr⟩

/-- The codes without a walk (41_walker.md R140). -/
theorem modeParams_unpaged {m : BitVec 4} (h : m.toNat ∉ [1, 8, 9, 10]) : modeParams m = .bare ∨ modeParams m = .unknown := by
  revert m
  decide

/-- WALK under a mode without a walk is refused. -/
theorem execWalk_unpaged {s : State} (h : s.ctx.mode.toNat ∉ [1, 8, 9, 10]) :
    execWalk vaddr acc s = .refused .walkUnpaged := by
  rcases modeParams_unpaged h with hm | hm <;> simp only [execWalk, walkCommand, view_ctx, hm] <;> rfl

end PteAccess

/-- Settles O37: WALK ends (`walkCommand_ends`), having run aligned PTE accesses only and filled no slot
(`walkCommand_ran_aligned`). -/
theorem walkAnswersAligned : Obligations.WalkAnswersAligned := by
  intro s v acc
  refine ⟨execWalk_unpaged, fun wp h hm => ?_⟩
  obtain ⟨r, u, hrun⟩ := walkCommand_ends (vaddr := v) (acc := acc) h hm
  obtain ⟨log, run, haligned⟩ := walkCommand_ran_aligned (viewOk_of_legal h).root hm hrun
  have e : Effect s (.walk v acc) u := .ran run fun _ _ => id
  obtain ⟨-, rs, hrs, hother⟩ := e.outputs
  refine ⟨r, u.give (.walk r), congrArg finish hrun, returns_give e.cur_eq hrs hother _, run.hart_eq fun _ => id,
    fun ev hev => ?_⟩
  rw [run.ownEvents] at hev
  have hpte := haligned ev hev
  cases ev with
  | ramRead | ramCas => exact hpte
  | _ => exact hpte.elim

/-! #### Device calls are legal (R55) -/

section DeviceCalls

variable {α : Type} {s t u : State} {p q : Prog α} {E : Refusal → Prop} {R : α → Prop}

/-- An event that, if it is a device call, is within the sizes and the alignment of a device of the list (44_mmio.md R255). -/
def CallLegal (p : Params) (e : Event) : Prop :=
  ∀ k off n, deviceCallOf e = some (k, off, n) →
    ∃ d, p.devices[k]? = some d ∧ opBytes d.minOp ≤ n ∧ n ≤ opBytes d.maxOp ∧ off.toNat % opBytes d.minOp = 0

/-- Every command in progress has a buffer of its length. -/
def BuffersOk (s : State) : Prop := ∀ c ∈ s.running, bufOk c.op c.size c.buf

theorem buffersOk_of_legal (h : runningLegal s = true) : BuffersOk s := by
  intro c hc
  have hok := (runningLegal_iff.1 h).2 c hc
  simp only [runningOk, Bool.and_eq_true, beq_iff_eq] at hok
  obtain ⟨⟨-, hbuf⟩, -⟩ := hok
  exact hbuf

/-- An event that a legal access emits is no device call that is not legal. -/
theorem callLegal_of_emit {v : View} {e : Event} (h : AtomOk v True (.emit e)) : CallLegal v.params e := by
  intro k off n he
  obtain ⟨-, -, hcall⟩ := h
  obtain ⟨d, hd, hmin, hmax, halign⟩ := hcall trivial k off n he
  obtain ⟨a, ha, hpow⟩ := opBytes_pow d.minOp
  refine ⟨d, hd, hmin, hmax, ?_⟩
  rw [hpow] at halign ⊢
  rw [← and_pred_toNat (by omega), halign]
  rfl

/-- `t` is `s` after device calls that are legal: those of the running hart in any case, those of other harts if the commands in
progress have their buffers. -/
structure Calls (s t : State) : Prop where
  params  : t.params = s.params
  cur     : t.cur = s.cur
  buffers : BuffersOk s → BuffersOk t
  history : ∃ es, t.history = s.history ++ es ∧ ∀ e ∈ es, eventHart e = s.cur ∨ BuffersOk s → CallLegal s.params e

theorem Calls.trans (a : Calls s t) (b : Calls t u) : Calls s u where
  params := b.params.trans a.params
  cur := b.cur.trans a.cur
  buffers h := b.buffers (a.buffers h)
  history := by
    obtain ⟨es, hes, hlegal⟩ := a.history
    obtain ⟨fs, hfs, hlegal'⟩ := b.history
    refine ⟨es ++ fs, by rw [hfs, hes, List.append_assoc], fun e he h => ?_⟩
    rcases List.mem_append.1 he with he | he
    · exact hlegal e he h
    · rw [← a.params]
      exact hlegal' e he (h.imp (fun k => k.trans a.cur.symm) a.buffers)

/-- An update that records no event. -/
theorem Calls.of_silent (hp : t.params = s.params) (hc : t.cur = s.cur) (hh : t.history = s.history)
    (hb : ∀ c ∈ t.running, c ∈ s.running ∨ bufOk c.op c.size c.buf) : Calls s t :=
  ⟨hp, hc, fun h c hm => (hb c hm).elim (h c) id, [], by simp [hh], by simp⟩

/-- An update that records no event and leaves the commands in progress. -/
theorem Calls.of_same (hp : t.params = s.params) (hc : t.cur = s.cur) (hh : t.history = s.history)
    (hr : t.running = s.running) : Calls s t := .of_silent hp hc hh fun _ hm => .inl (hr ▸ hm)

theorem Calls.refl (s : State) : Calls s s := .of_same rfl rfl rfl rfl

/-! ##### The accesses of one hart -/

theorem perform_calls {x : Atom} (hx : AtomOk s.view True x) : Calls s (perform x s).2 := by
  have a := perform_among x s (fun _ => False) (fun _ => False)
  obtain ⟨es, hes, hown, -⟩ := a.history
  refine ⟨a.params, a.cur, fun h => by rwa [BuffersOk, (perform_queues x s).2], es, hes, fun e he _ => ?_⟩
  obtain ⟨⟨y, r⟩, hc, hy⟩ := List.mem_filterMap.1 ((hown e he).resolve_right fun k => k.1)
  obtain ⟨rfl, -⟩ := Prod.mk.inj (List.mem_singleton.1 hc)
  cases y <;> cases hy
  exact callLegal_of_emit hx

/-- The steps of a program of legal accesses make legal calls. -/
theorem Prog.Steps.calls {l : List Reply} (a : p.Steps s l q t) (hp : p.Ok s.view True False E R) : Calls s t := by
  induction a with
  | refl => exact .refl _
  | op _ ih => exact (perform_calls hp.1).trans (ih (by rw [(perform_still _ _).view]; exact hp.2 _ False.elim))

/-! ##### The moves of other harts -/

/-- A command in progress that has its buffer goes on with legal calls. -/
theorem advance_calls {c : Running} (hb : bufOk c.op c.size c.buf) (h : advance c s = some t) : Calls s t := by
  have hp : (c.program s.view).Ok s.view True False (fun _ => True) (fun _ => True) :=
    (accessCommand_ok ⟨trivial, trivial, trivial⟩ False.elim (fun _ => hb) False.elim).after
      (answered_of_all (fun _ _ => False.elim) _ _)
  obtain ⟨l, q, u, hsteps, hend⟩ := advance_steps h
  refine (hsteps.calls hp).trans ?_
  rcases hend with ⟨v, -, rfl⟩ | rfl
  · exact .of_silent rfl rfl rfl fun d hd => .inl (List.mem_filter.1 hd).1
  · refine .of_silent rfl rfl rfl fun d hd => (List.mem_append.1 hd).imp (fun hd => (List.mem_filter.1 hd).1) fun hd => ?_
    rw [List.mem_singleton.1 hd]
    exact hb

/-- An ACCESS begins with a buffer of its length. -/
theorem accessOf_buf {h : Nat} {i : Instr} {c : Running} (hc : accessOf h i = some c) : bufOk c.op c.size c.buf := by
  cases i <;> cases hc <;> rfl

/-- CTX.SET records no event. -/
theorem execCtxSet_calls {root w : Word} {satpw : Bool} (h : execCtxSet root w satpw s = .next t) : Calls s t := by
  obtain ⟨-, u, rfl, rfl | rfl⟩ := execCtxSet_next h <;> exact .of_same rfl rfl rfl rfl

theorem nextOf_eq_some {o : Host.Outcome State Fault Refusal} (h : nextOf o = some t) : o = .next t := by
  cases o <;> cases h
  rfl

theorem beginCommand_calls {i : Instr} (h : beginCommand i s = some t) : Calls s t := by
  have access : ∀ c, accessOf s.cur i = some c → advance c s = some t → Calls s t :=
    fun c hc hadv => advance_calls (accessOf_buf hc) hadv
  cases i with
  | accessR | accessW | accessX => exact access _ rfl h
  | tlbFlush | tlbFlushPage =>
    injection h with h
    subst h
    exact .of_same rfl rfl rfl rfl
  | ctxSet => exact execCtxSet_calls (nextOf_eq_some h)
  | _ => cases h

theorem goOn_calls (hb : BuffersOk s) (h : goOn s = some t) : Calls s t := by
  unfold goOn at h
  split at h
  · next c hc => exact advance_calls (hb c (mem_of_runningOf hc).1) h
  · obtain ⟨q, -, h⟩ := Option.bind_eq_some_iff.1 h
    split at h
    · refine Calls.trans ?_ (beginCommand_calls h)
      exact .of_same rfl rfl rfl rfl
    · cases h

/-- A move makes legal calls if the commands in progress have their buffers; none of its events is the running hart's. -/
theorem moveHart_calls (s : State) (h : Nat) : Calls s (s.moveHart h) := by
  by_cases hb : BuffersOk s
  · unfold State.moveHart
    split
    · split
      · next t ht =>
        have m := goOn_calls (s := s.as h) hb ht
        obtain ⟨es, hes, hlegal⟩ := m.history
        exact ⟨m.params, rfl, m.buffers, es, hes, fun e he _ => hlegal e he (.inr hb)⟩
      · exact .refl s
    · exact .refl s
  · -- the events of the move are of another hart
    obtain ⟨a, -⟩ := moveHart_among s h
    obtain ⟨es, hes, hown, -⟩ := a.history
    refine ⟨a.params, a.cur, fun k => absurd k hb, es, hes, fun e he k => ?_⟩
    obtain ⟨⟨-, hother⟩, -⟩ := (hown e he).resolve_left (by simp)
    exact absurd (k.resolve_right hb) hother

theorem act_calls (s : State) (a : Action) : Calls s (s.act a) := by
  cases a with
  | write o b =>
    have e := (foreignWrite_stored s o b).same
    show Calls s (s.foreignWrite o b)
    rw [e]
    exact .of_same rfl rfl rfl rfl
  | move h => exact moveHart_calls s h

theorem foldl_act_calls (batch : List Action) (s : State) : Calls s (batch.foldl State.act s) := by
  induction batch generalizing s with
  | nil => exact .refl s
  | cons a batch ih => exact (act_calls s a).trans (ih _)

theorem interfere_calls (s : State) : Calls s s.interfere := by
  unfold State.interfere
  split
  · exact .refl s
  · refine Calls.trans ?_ (foldl_act_calls _ _)
    exact .of_same rfl rfl rfl rfl

/-! ##### Whole commands -/

theorem performAmong_calls {x : Atom} (hx : AtomOk s.view True x) : Calls s (performAmong x s).2 := by
  unfold performAmong
  split
  · exact (interfere_calls s).trans (perform_calls (by rwa [(interfere_among s).1.view]))
  · exact perform_calls hx

/-- A program of legal accesses that ends has made legal device calls, and so have the harts that went on inside it. -/
theorem run_calls {a : α} (hp : p.Ok s.view True False E R) (h : p.run s = .done a t) : Calls s t := by
  induction p generalizing s with
  | done b =>
    injection h with _ h
    exact h ▸ .refl s
  | fault e => cases h
  | refused e => cases h
  | op x k ih =>
    rw [run_op] at h
    refine (performAmong_calls hp.1).trans (ih _ ?_ h)
    rw [(performAmong_among x s).1.view]
    exact hp.2 _ False.elim

theorem finish_calls {p : Prog Value} {R : Value → Prop} (hp : p.Ok s.view True False E R)
    (h : finish (p.run s) = .next t) : Calls s t := by
  obtain ⟨v, u, hrun, rfl⟩ := finish_eq_next h
  exact (run_calls hp hrun).trans (.of_same rfl rfl rfl rfl)

/-- Every command, and every move inside it, makes legal calls. -/
theorem exec_calls {i : Instr} (h : exec i s = .next t) : Calls s t := by
  have access : ∀ op vaddr n buf, bufOk op n buf → finish ((accessCommand s.view op vaddr n buf).run s) = .next t →
      Calls s t := fun op vaddr n buf hb =>
    finish_calls (E := fun _ => True) (accessCommand_ok ⟨trivial, trivial, trivial⟩ False.elim (fun _ => hb) False.elim)
  have adapter : ∀ dir off dev n buf, DirBuf dir n buf → finish ((mmioCommand s.view dir off dev n buf).run s) = .next t →
      Calls s t := fun dir off dev n buf hb =>
    finish_calls (E := fun _ => True) (mmioCommand_ok ⟨trivial, trivial⟩ False.elim fun _ => hb)
  cases i with
  | accessR | accessW | accessX => exact access _ _ _ _ rfl h
  | mmioRead => exact adapter _ _ _ _ _ (by simp [DirBuf]) h
  | mmioWrite => exact adapter _ _ _ _ _ (fun _ => rfl) h
  | walk => exact finish_calls (E := fun _ => True) (walkCommand_ok trivial False.elim) h
  | ctxSet => exact execCtxSet_calls h
  | ramInit =>
    obtain ⟨-, -, env, ok, rfl, -⟩ := execRamInit_next h
    cases ok <;> exact .of_same rfl rfl rfl rfl
  | ramFree =>
    obtain ⟨-, rfl⟩ := execRamFree_next h
    exact .of_same rfl rfl rfl rfl
  | tlbFlush | tlbFlushPage | tlbLookup | tlbFill | physToHost | findMmio =>
    injection h with h
    subst h
    exact .of_same rfl rfl rfl rfl

end DeviceCalls

/-- Settles O55: every command, and every move of a hart whose command in progress has its buffer, makes legal calls only
(`exec_calls`). -/
theorem deviceCallsLegal : Obligations.DeviceCallsLegal := by
  intro i s t h e he hwho
  obtain ⟨-, -, -, es, hes, hlegal⟩ := exec_calls h
  rw [newEvents_of_append hes] at he
  exact hlegal e he (hwho.imp_right buffersOk_of_legal)

end Sys2Proof.Machine

/-! ### Encoding (30_encoding.md): the decoder against the encoder and the header's numbers, context words, the guest events as
commands, and the fields of a PTE

The decoder is turned into its checks once (`decode_eq_ok_iff`); then O2 and O3 are one lemma for each field of a request, in each
direction, and O4 one lemma for each check. Context words and walk fields are compared as numbers or bit by bit. -/

namespace Sys2Proof.Machine

open Sys2Proof.Config

/-! #### The checks of the decoder -/

section Decoding

variable {m n hart : Nat} {r : Request} {c : Code} {i : Instr} {hdr : BitVec 32}

/-- What the decoder accepts, and as which instruction: the command byte names a code, and every check passes (R84). -/
theorem decode_eq_ok_iff :
    decode m r = .ok i ↔
      ∃ c, codeOfByte (cmdField r.hdr) = some c ∧ ¬ (c.isInternal = true ∧ r.origin.isExternal = true) ∧
        flagsOk c r.hdr = true ∧ sizeOk m c (sizeField r.hdr).toNat = true ∧ operandsOk c r.a r.b = true ∧
        r.payload.length = payloadLength c (sizeField r.hdr).toNat ∧ buildInstr c r = i := by
  unfold decode
  cases codeOfByte (cmdField r.hdr) with
  | none => simp
  | some c =>
    dsimp only
    split_ifs with hinternal hflags hsize hoperands hpayload <;> simp_all

/-- A command byte names the code whose byte it is (R82, R83). -/
theorem codeOfByte_eq_some_iff {b : BitVec 8} : codeOfByte b = some c ↔ c.toByte = b := by
  constructor
  · intro h
    simpa using List.find?_some h
  · rintro rfl
    exact Laws.Encoding.codeOfByte_toByte c

/-! #### The operands of an instruction, and the checks they pass -/

/-- A well-formed instruction has at most 16 bytes. -/
theorem size_le_of_wellFormed (hm : m ≤ 16) (hi : i.wellFormed m = true) : i.size ≤ 16 := by
  cases i with
  | accessR | accessW | accessX => exact Laws.Encoding.access_size hm hi
  | mmioRead | mmioWrite => exact Laws.Encoding.mmio_size hi
  | _ => exact Nat.zero_le 16

/-- A well-formed instruction's size is one its code allows (R84). -/
theorem sizeOk_of_wellFormed (hi : i.wellFormed m = true) : sizeOk m i.code i.size = true := by
  cases i with
  | accessR | accessW | accessX | mmioRead | mmioWrite => exact hi
  | _ => rfl

@[simp] theorem opOfCode_opCode (op : Op) : opOfCode (opCode op) = some op := by cases op <;> rfl

theorem opCode_of_opOfCode {w : Word} {op : Op} (h : opOfCode w = some op) : opCode op = w := by
  unfold opOfCode at h
  split_ifs at h with hR hW hX
  · exact Option.some.inj h ▸ hR.symm
  · exact Option.some.inj h ▸ hW.symm
  · exact Option.some.inj h ▸ hX.symm

/-- A well-formed instruction's operands are ones its code allows (R81, R83). -/
theorem operandsOk_of_wellFormed (hi : i.wellFormed m = true) : operandsOk i.code i.operandA i.operandB = true := by
  cases i with
  | walk => exact hi
  | tlbLookup | tlbFill => simp [operandsOk, Instr.code, Instr.operandB]
  | _ => rfl

/-- A payload has the length that its instruction's code and size say (R80). -/
theorem payload_length (i : Instr) : i.payload.length = payloadLength i.code i.size := by cases i <;> rfl

/-- Only CTX.SET has a flag, header bit 24 (R80). -/
theorem flagsOk_satpw (h : flagField hdr = BitVec.ofNat 8 i.satpw.toNat) : flagsOk i.code hdr = true := by
  cases i with
  | ctxSet _ _ satpw => cases satpw <;> simp [flagsOk, Instr.code, h, Instr.satpw]
  | _ => simp [flagsOk, Instr.code, h, Instr.satpw]

/-- A micro-operation is issued by the dispatcher (R83). -/
theorem origin_of_internal (h : i.code.isInternal = true) : i.origin.isExternal = false := by
  cases i with
  | walk | tlbLookup | tlbFill | physToHost | findMmio | mmioRead | mmioWrite => rfl
  | _ => cases h

/-- An instruction is built back from its own request. -/
theorem buildInstr_encode (hn : i.size ≤ 16) : buildInstr i.code (encode hart i) = i := by
  obtain ⟨-, hsize, hsatpw, -⟩ := Laws.Encoding.header_fields i.code hn i.satpw
  cases i with
  | accessR v n => exact congrArg (Instr.accessR v) hsize
  | accessX v n => exact congrArg (Instr.accessX v) hsize
  | mmioRead off dev n => exact congrArg (Instr.mmioRead off dev) hsize
  | ctxSet root w satpw => exact congrArg (Instr.ctxSet root w) hsatpw
  | tlbLookup v op => simp [buildInstr, Instr.code, encode, Instr.operandA, Instr.operandB]
  | tlbFill v op bias => simp [buildInstr, Instr.code, encode, Instr.operandA, Instr.operandB, Instr.origin, Origin.bias]
  | _ => rfl

end Decoding

/-- Settles O2: the header's fields read back (`header_fields`), a well-formed instruction passes each check of the decoder,
and its request builds it back (`buildInstr_encode`). -/
theorem decodeEncode : Obligations.DecodeEncode := by
  intro m hart i hm hi
  have hn := size_le_of_wellFormed hm hi
  obtain ⟨hcmd, hsize, -, hflag⟩ := Laws.Encoding.header_fields i.code hn i.satpw
  refine decode_eq_ok_iff.2 ⟨i.code, codeOfByte_eq_some_iff.2 hcmd.symm, ?_, flagsOk_satpw hflag, ?_,
    operandsOk_of_wellFormed hi, ?_, buildInstr_encode hn⟩
  · rintro ⟨hinternal, hexternal⟩
    exact absurd hexternal (by simp [encode, origin_of_internal hinternal])
  · simpa [encode, hsize] using sizeOk_of_wellFormed hi
  · simpa [encode, hsize] using payload_length i

/-! #### The request that an accepted request's instruction writes -/

section Encoding

variable {m n : Nat} {r : Request} {c : Code} {i : Instr} {hdr : BitVec 32} {a b : Word}

/-- A header is its three fields (R80). -/
theorem header_append (hdr : BitVec 32) : flagField hdr ++ sizeField hdr ++ cmdField hdr = hdr := by
  rw [flagField, sizeField, cmdField, BitVec.extractLsb'_append_extractLsb'_eq_extractLsb' (show 24 = 8 + 16 from rfl),
    BitVec.extractLsb'_append_extractLsb'_eq_extractLsb' (show 8 = 0 + 8 from rfl)]
  exact BitVec.extractLsb'_eq_self

/-- A header whose fields are those that `header` writes is the header it writes. -/
theorem header_eq {satpw : Bool} (hc : c.toByte = cmdField hdr) (hn : n = (sizeField hdr).toNat)
    (hf : flagField hdr = BitVec.ofNat 8 satpw.toNat) : header c n satpw = hdr := by
  subst hn
  rw [header, BitVec.ofNat_toNat, BitVec.setWidth_eq, hc, ← hf, header_append]

/-- The size of what is built is the header's (R80, R84). -/
theorem buildInstr_size (hs : sizeOk m c (sizeField r.hdr).toNat = true)
    (hp : r.payload.length = payloadLength c (sizeField r.hdr).toNat) : (buildInstr c r).size = (sizeField r.hdr).toNat := by
  cases c with
  | accessR | accessX | mmioRead => rfl
  | accessW | mmioWrite => exact hp
  | _ => exact (beq_iff_eq.1 hs).symm

/-- The flags of what is built are the header's. -/
theorem buildInstr_satpw (hf : flagsOk c r.hdr = true) :
    flagField r.hdr = BitVec.ofNat 8 (buildInstr c r).satpw.toNat := by
  cases c with
  | ctxSet =>
    have lowBit : ∀ f : BitVec 8, f &&& 0xFE = 0 → f = BitVec.ofNat 8 (f.getLsbD 0).toNat := by decide
    have hbit : (flagField r.hdr).getLsbD 0 = satpwBit r.hdr := by simp [flagField, satpwBit]
    have hlow := lowBit _ (beq_iff_eq.1 hf)
    rwa [hbit] at hlow
  | _ => exact beq_iff_eq.1 hf

/-- Operand a of what is built is the request's. -/
theorem buildInstr_operandA (ho : operandsOk c r.a r.b = true) : (buildInstr c r).operandA = r.a := by
  cases c with
  | tlbFlush | ramFree =>
    simp only [operandsOk, Bool.and_eq_true, beq_iff_eq] at ho
    exact ho.1.symm
  | _ => rfl

/-- Operand b of what is built is the request's. -/
theorem buildInstr_operandB (ho : operandsOk c r.a r.b = true) : (buildInstr c r).operandB = r.b := by
  cases c with
  | tlbFlush | ramFree =>
    simp only [operandsOk, Bool.and_eq_true, beq_iff_eq] at ho
    exact ho.2.symm
  | tlbLookup | tlbFill =>
    obtain ⟨op, hop⟩ := Option.isSome_iff_exists.1 ho
    simpa [buildInstr, Instr.operandB, hop] using opCode_of_opOfCode hop
  | ramInit | ctxSet | walk | mmioRead | mmioWrite => rfl
  | _ => exact (beq_iff_eq.1 ho).symm

/-- The payload of what is built is the request's. -/
theorem buildInstr_payload (hp : r.payload.length = payloadLength c (sizeField r.hdr).toNat) :
    (buildInstr c r).payload = r.payload := by
  cases c with
  | accessW | mmioWrite => rfl
  | _ => exact (List.length_eq_zero_iff.1 hp).symm

end Encoding

/-- Settles O3: each field of the request is the one the instruction writes, the header by its three fields. -/
theorem decodedRequestIsEncoded : Obligations.DecodedRequestIsEncoded := by
  intro m r i h
  refine ⟨decode_wellFormed h, fun horigin => ?_⟩
  obtain ⟨c, hc, -, hf, hs, ho, hp, rfl⟩ := decode_eq_ok_iff.1 h
  have hhdr : header (buildInstr c r).code (buildInstr c r).size (buildInstr c r).satpw = r.hdr :=
    header_eq (by rw [buildInstr_code, codeOfByte_eq_some_iff.1 hc]) (buildInstr_size hs hp) (buildInstr_satpw hf)
  rw [encode, ← horigin, hhdr, buildInstr_operandA ho, buildInstr_operandB ho, buildInstr_payload hp]

/-! #### The checks on the numbers of a header -/

section Checks

variable {m n : Nat} {r : Request} {c : Code} {hdr : BitVec 32} {a b : Word}

/-- The header's fields as numbers (R80). -/
theorem cmdField_toNat (hdr : BitVec 32) : (cmdField hdr).toNat = hdr.toNat % 256 := by
  simp [cmdField, BitVec.extractLsb'_toNat]

theorem sizeField_toNat (hdr : BitVec 32) : (sizeField hdr).toNat = hdr.toNat / 256 % 65536 := by
  simp [sizeField, BitVec.extractLsb'_toNat, Nat.shiftRight_eq_div_pow]

theorem flagField_toNat (hdr : BitVec 32) : (flagField hdr).toNat = hdr.toNat / 16777216 := by
  have := hdr.isLt
  simp [flagField, BitVec.extractLsb'_toNat, Nat.shiftRight_eq_div_pow]
  omega

/-- The command bytes of the tables (R82, R83). -/
theorem codeOfByte_eq_none_iff (b : BitVec 8) : codeOfByte b = none ↔ b.toNat ∉
    [0x02, 0x04, 0x08, 0x10, 0x11, 0x20, 0x21, 0x30, 0x40, 0x41, 0x42, 0x43, 0x44, 0x45, 0x46] := by
  revert b; decide

/-- The micro-operations are the codes from 0x40 up (R83). -/
theorem isInternal_iff (c : Code) : c.isInternal = true ↔ 0x40 ≤ c.toByte.toNat := by cases c <;> decide

/-- Check 3 of R84, as a number. -/
theorem flagsOk_eq_false_iff : flagsOk c hdr = false ↔
    (flagField hdr).toNat ≠ 0 ∧ ¬ (c.toByte.toNat = 0x30 ∧ (flagField hdr).toNat = 1) := by
  have highBits : ∀ f : BitVec 8, (f &&& 0xFE == 0) = false ↔ f.toNat ≠ 0 ∧ f.toNat ≠ 1 := by decide
  have nonzero : (flagField hdr == 0) = false ↔ (flagField hdr).toNat ≠ 0 := by simp [BitVec.toNat_eq]
  cases c with
  | ctxSet => simpa [flagsOk, Code.toByte] using highBits (flagField hdr)
  | _ => simpa [flagsOk, Code.toByte] using nonzero

/-- Check 4 of R84 for the commands. -/
theorem sizeOk_eq_false_iff (hc : c.isInternal = false) : sizeOk m c n = false ↔
    (c.toByte.toNat ∈ [0x02, 0x04, 0x08] ∧ (n = 0 ∨ m < n)) ∨ (c.toByte.toNat ∉ [0x02, 0x04, 0x08] ∧ n ≠ 0) := by
  cases c with
  | accessR | accessW | accessX => simp [sizeOk, accessSizeOk, Code.toByte]; omega
  | tlbFlush | tlbFlushPage | ramInit | ramFree | ctxSet => simp [sizeOk, Code.toByte]
  | _ => cases hc

/-- Check 5 of R84 for the commands. -/
theorem operandsOk_eq_false_iff (hc : c.isInternal = false) : operandsOk c a b = false ↔
    (c.toByte.toNat ∈ [0x02, 0x04, 0x08, 0x11] ∧ b ≠ 0) ∨ (c.toByte.toNat ∈ [0x10, 0x21] ∧ (a ≠ 0 ∨ b ≠ 0)) := by
  cases c with
  | tlbFlush | ramFree => simp [operandsOk, Code.toByte]; tauto
  | accessR | accessW | accessX | tlbFlushPage | ramInit | ctxSet => simp [operandsOk, Code.toByte]
  | _ => cases hc

/-- The payload's length for the commands (R80). -/
theorem payloadLength_command (hc : c.isInternal = false) : payloadLength c n = if c.toByte.toNat = 0x04 then n else 0 := by
  cases c with
  | walk | tlbLookup | tlbFill | physToHost | findMmio | mmioRead | mmioWrite => cases hc
  | _ => rfl

end Checks

/-- Settles O4: the command byte names a code or none; each check of the decoder is the one on the header's numbers, in the same
order. -/
theorem decodeChecksInOrder : Obligations.DecodeChecksInOrder := by
  intro m r hr
  simp only [← cmdField_toNat, ← sizeField_toNat, ← flagField_toNat]
  cases hcode : codeOfByte (cmdField r.hdr) with
  | none =>
    rw [if_pos ((codeOfByte_eq_none_iff _).1 hcode)]
    simp [decode, hcode]
  | some c =>
    rw [if_neg fun h => by simp [(codeOfByte_eq_none_iff _).2 h] at hcode, ← codeOfByte_eq_some_iff.1 hcode]
    by_cases hc : c.isInternal = true
    · rw [if_pos ((isInternal_iff c).1 hc)]
      simp [decode, hcode, hc, hr, Origin.isExternal]
    · rw [if_neg (mt (isInternal_iff c).2 hc)]
      rw [Bool.not_eq_true] at hc
      simp only [decode, hcode, hc, Bool.false_and, Bool.false_eq_true, if_false, Bool.not_eq_true', flagsOk_eq_false_iff,
        sizeOk_eq_false_iff hc, operandsOk_eq_false_iff hc, bne_iff_ne, ← payloadLength_command hc]
      split_ifs
      iterate 4 · rfl
      · exact ⟨_, rfl, by rw [buildInstr_code]⟩

/-! #### Context words -/

section ContextWord

@[simp] theorem privOfBits_privBits (p : Priv) : privOfBits (privBits p) = p := by cases p <;> rfl

@[simp] theorem privBits_privOfBits (b : BitVec 2) : privBits (privOfBits b) = b := by revert b; decide

/-- Two words agree in a field when they agree in its bits. -/
theorem extractLsb'_eq_iff {w w' : Word} {lo n : Nat} :
    w.extractLsb' lo n = w'.extractLsb' lo n ↔ ∀ j, lo ≤ j → j < lo + n → w.getLsbD j = w'.getLsbD j := by
  constructor
  · intro h j hlo hn
    have hj := congrArg (BitVec.getLsbD · (j - lo)) h
    simpa only [BitVec.getLsbD_extractLsb', show j - lo < n by omega, show lo + (j - lo) = j by omega, decide_true,
      Bool.true_and] using hj
  · intro h
    refine BitVec.eq_of_getLsbD_eq fun j hj => ?_
    simp only [BitVec.getLsbD_extractLsb', h (lo + j) (by omega) (by omega)]

theorem extractLsb'_eq_zero_iff {w : Word} {lo n : Nat} :
    w.extractLsb' lo n = 0 ↔ ∀ j, lo ≤ j → j < lo + n → w.getLsbD j = false := by
  simpa using extractLsb'_eq_iff (w := w) (w' := 0) (lo := lo) (n := n)

/-- The reserved bits of a context word are [7:6] and [63:12] (R86). -/
theorem ctxReservedMask_getLsbD {j : Nat} (hj : j < 64) :
    ctxReservedMask.getLsbD j = decide (j = 6 ∨ j = 7 ∨ 12 ≤ j) := by
  revert j; decide

/-- A word has no reserved bit when its two reserved fields are 0. -/
theorem and_ctxReservedMask_eq_zero_iff (w : Word) :
    w &&& ctxReservedMask = 0 ↔ w.extractLsb' 6 2 = 0 ∧ w.extractLsb' 12 52 = 0 := by
  rw [extractLsb'_eq_zero_iff, extractLsb'_eq_zero_iff]
  constructor
  · intro h
    have hbit : ∀ j < 64, j = 6 ∨ j = 7 ∨ 12 ≤ j → w.getLsbD j = false := by
      intro j hj hr
      have hand := congrArg (BitVec.getLsbD · j) h
      simpa only [BitVec.getLsbD_and, ctxReservedMask_getLsbD hj, hr, decide_true, Bool.and_true, BitVec.ofNat_eq_ofNat,
        BitVec.getLsbD_zero] using hand
    exact ⟨fun j _ _ => hbit j (by omega) (by omega), fun j _ _ => hbit j (by omega) (by omega)⟩
  · rintro ⟨hlow, hhigh⟩
    refine BitVec.eq_of_getLsbD_eq fun j hj => ?_
    rw [BitVec.getLsbD_and, ctxReservedMask_getLsbD hj]
    by_cases hr : j = 6 ∨ j = 7 ∨ 12 ≤ j
    · have hzero : w.getLsbD j = false := by
        by_cases h12 : 12 ≤ j
        · exact hhigh j h12 hj
        · exact hlow j (by omega) (by omega)
      simp [hzero]
    · simp [hr]

/-- A context's word as a number (R86). -/
theorem wordOfCtx_toNat (c : Ctx) : (wordOfCtx c).toNat = (privBits c.priv).toNat + 4 * (privBits c.mpp).toNat +
    16 * c.mprv.toNat + 32 * c.mxr.toNat + 256 * c.mode.toNat := by
  have hpriv := (privBits c.priv).isLt
  have hmpp := (privBits c.mpp).isLt
  have hmprv := (BitVec.ofBool c.mprv).isLt
  have hmxr := (BitVec.ofBool c.mxr).isLt
  have hmode := c.mode.isLt
  simp only [wordOfCtx, BitVec.toNat_append]
  rw [← Nat.shiftLeft_add_eq_or_of_lt hpriv, ← Nat.shiftLeft_add_eq_or_of_lt hmpp, ← Nat.shiftLeft_add_eq_or_of_lt hmprv,
    ← Nat.shiftLeft_add_eq_or_of_lt hmxr, ← Nat.shiftLeft_add_eq_or_of_lt (BitVec.isLt 0),
    ← Nat.shiftLeft_add_eq_or_of_lt hmode]
  simp only [Nat.shiftLeft_eq, BitVec.toNat_ofBool, BitVec.ofNat_eq_ofNat, BitVec.toNat_ofNat]
  omega

/-- A bit as a number. -/
theorem getLsbD_toNat (w : Word) (j : Nat) : (w.getLsbD j).toNat = w.toNat / 2 ^ j % 2 := by
  rw [BitVec.getLsbD, Nat.testBit_eq_decide_div_mod_eq]
  obtain h | h := Nat.mod_two_eq_zero_or_one (w.toNat / 2 ^ j) <;> simp [h]

theorem getLsbD_eq_iff {w : Word} {j : Nat} {b : Bool} : w.getLsbD j = b ↔ w.toNat / 2 ^ j % 2 = b.toNat := by
  rw [← getLsbD_toNat]
  exact ⟨congrArg Bool.toNat, fun h => by simpa only [Bool.ofNat_toNat] using congrArg Bool.ofNat h⟩

/-- The fields of a context's word (R86). -/
theorem wordOfCtx_fields (c : Ctx) :
    (wordOfCtx c).extractLsb' 0 2 = privBits c.priv ∧ (wordOfCtx c).extractLsb' 2 2 = privBits c.mpp ∧
      (wordOfCtx c).getLsbD 4 = c.mprv ∧ (wordOfCtx c).getLsbD 5 = c.mxr ∧ (wordOfCtx c).extractLsb' 6 2 = 0 ∧
      (wordOfCtx c).extractLsb' 8 4 = c.mode ∧ (wordOfCtx c).extractLsb' 12 52 = 0 := by
  have hpriv := (privBits c.priv).isLt
  have hmpp := (privBits c.mpp).isLt
  have hmprv := c.mprv.toNat_le
  have hmxr := c.mxr.toNat_le
  have hmode := c.mode.isLt
  refine ⟨BitVec.eq_of_toNat_eq ?_, BitVec.eq_of_toNat_eq ?_, getLsbD_eq_iff.2 ?_, getLsbD_eq_iff.2 ?_,
    BitVec.eq_of_toNat_eq ?_, BitVec.eq_of_toNat_eq ?_, BitVec.eq_of_toNat_eq ?_⟩
  all_goals
    simp only [BitVec.extractLsb'_toNat, wordOfCtx_toNat, Nat.shiftRight_eq_div_pow, BitVec.ofNat_eq_ofNat,
      BitVec.toNat_ofNat]
    omega

@[simp] theorem ctxOfWord_wordOfCtx (c : Ctx) : ctxOfWord c.root (wordOfCtx c) = c := by
  obtain ⟨hpriv, hmpp, hmprv, hmxr, -, hmode, -⟩ := wordOfCtx_fields c
  simp only [ctxOfWord, hpriv, hmpp, hmprv, hmxr, hmode, privOfBits_privBits]

@[simp] theorem wordOfCtx_unreserved (c : Ctx) : wordOfCtx c &&& ctxReservedMask = 0 := by
  obtain ⟨-, -, -, -, hlow, -, hhigh⟩ := wordOfCtx_fields c
  exact (and_ctxReservedMask_eq_zero_iff _).2 ⟨hlow, hhigh⟩

theorem wordOfCtx_ctxOfWord (root : Word) {w : Word} (h : w &&& ctxReservedMask = 0) : wordOfCtx (ctxOfWord root w) = w := by
  obtain ⟨hlow, hhigh⟩ := (and_ctxReservedMask_eq_zero_iff w).1 h
  have hlow := congrArg BitVec.toNat hlow
  have hhigh := congrArg BitVec.toNat hhigh
  refine BitVec.eq_of_toNat_eq ?_
  simp only [wordOfCtx_toNat, ctxOfWord, privBits_privOfBits, getLsbD_toNat, BitVec.extractLsb'_toNat,
    Nat.shiftRight_eq_div_pow, BitVec.ofNat_eq_ofNat, BitVec.toNat_ofNat] at hlow hhigh ⊢
  omega

end ContextWord

/-- Settles O5: the fields of the word, and the word of the fields. -/
theorem contextWordRoundTrip : Obligations.ContextWordRoundTrip :=
  ⟨fun c => ⟨ctxOfWord_wordOfCtx c, wordOfCtx_unreserved c⟩, fun root _ => wordOfCtx_ctxOfWord root⟩

/-! #### The guest events as commands -/

section Pseudo

variable (s : State)

@[simp] theorem give_ctx (v : Value) : (s.give v).ctx = s.ctx := rfl

@[simp] theorem tlbFlush_ctx : (Machine.tlbFlush s).ctx = s.ctx := tlbFlush_hart_ctx s s.cur

/-- CTX.SET of an aligned root and a word without reserved bits: the context it names, and a flush on SATPW or a change (R196). -/
theorem exec_ctxSet {root w : Word} (hr : root &&& 0xFFF = 0) (hw : w &&& ctxReservedMask = 0) (satpw : Bool) :
    exec (.ctxSet root w satpw) s = .next (State.give
      (if satpw = true ∨ s.ctx ≠ ctxOfWord root w then Machine.tlbFlush (s.setCtx (ctxOfWord root w))
        else s.setCtx (ctxOfWord root w))
      (.command true [])) := by
  rw [exec, execCtxSet, if_neg (not_not.2 hr), if_neg (not_not.2 hw)]
  simp

/-- The CTX.SET that gives a context with an aligned root completes with that context, and flushes on SATPW or a change. -/
theorem exec_ctxSetOf {c : Ctx} (hr : c.root.extractLsb' 0 12 = 0) (satpw : Bool) :
    ∃ t, exec (ctxSetOf c satpw) s = .next t ∧ t.ctx = c ∧
      ∀ i, t.slot s.cur i = if satpw = true ∨ s.ctx ≠ c then flushedSlot s.params i else s.slot s.cur i := by
  have haligned : c.root &&& 0xFFF = 0 := by
    rw [aligned_iff]
    simpa [BitVec.toNat_eq, BitVec.extractLsb'_toNat] using hr
  refine ⟨_, exec_ctxSet s haligned (wordOfCtx_unreserved c) satpw, ?_⟩
  rw [ctxOfWord_wordOfCtx]
  split
  · exact ⟨by simp, fun i => by simp [tlbFlush_slot]⟩
  · exact ⟨by simp, fun i => by simp⟩

end Pseudo

/-- Settles O29: the expansions are `expand` itself; the three CTX.SETs are `exec_ctxSetOf`. -/
theorem pseudoCommands : Obligations.PseudoCommands := by
  intro s hroot
  refine ⟨fun _ => rfl, fun _ _ => rfl, fun _ _ => ⟨rfl, rfl⟩, fun _ _ => rfl, fun mode root hr => ?_, fun p => ?_,
    fun mprv mpp mxr => ?_⟩
  · simpa [expand] using exec_ctxSetOf s (c := { s.ctx with mode := mode, root := root }) hr true
  · have hchange : s.ctx ≠ { s.ctx with priv := p } ↔ p ≠ s.ctx.priv :=
      not_congr ⟨fun h => (congrArg Ctx.priv h).symm, fun h => by rw [h]⟩
    simpa only [expand, hchange, Bool.false_eq_true, false_or] using
      exec_ctxSetOf s (c := { s.ctx with priv := p }) hroot false
  · obtain ⟨t, ht, hctx, -⟩ := exec_ctxSetOf s (c := { s.ctx with mprv := mprv, mpp := mpp, mxr := mxr }) hroot false
    exact ⟨t, ht, hctx⟩

/-! #### The fields of a walk -/

section Walk

variable {wp : WalkParams} {i : Nat} {pte pte' acc v table : Word}

/-- The four modes, as a list and as a predicate. -/
theorem isMode_of_mem (h : wp ∈ [sv32, sv39, sv48, sv57]) : IsMode wp := by
  simp only [List.mem_cons, List.not_mem_nil, or_false] at h
  obtain rfl | rfl | rfl | rfl := h <;> constructor

/-- A level's page offset has at least 12 bits, and ends below the top of the physical address. -/
theorem IsMode.bitOff_le (h : IsMode wp) (hi : i < wp.levels) : 12 ≤ bitOff wp i ∧ bitOff wp i ≤ wp.physBits := by
  cases h <;> simp only [bitOff, sv32, sv39, sv48, sv57] at hi ⊢ <;> omega

theorem IsMode.vpnBits_le (h : IsMode wp) : wp.vpnBits ≤ 64 := by cases h <;> decide

/-- A mask keeps the value modulo a power of two. -/
theorem and_mask_toNat {n : Nat} (hn : n ≤ 64) (v : Word) : (v &&& mask n).toNat = v.toNat % 2 ^ n := by
  have hpow : 2 ^ n ≤ 2 ^ 64 := Nat.pow_le_pow_right (by omega) hn
  rw [BitVec.toNat_and, mask, BitVec.toNat_ofNat, Nat.mod_eq_of_lt (by omega), Nat.and_two_pow_sub_one_eq_mod]

/-- The PTE address: the table plus the level's index times the PTE's size (R144). -/
theorem pteAddress_toNat (hn : wp.vpnBits ≤ 64) :
    (pteAddress wp table v i).toNat =
      (table.toNat + v.toNat / 2 ^ bitOff wp i % 2 ^ wp.vpnBits * wp.pteBytes) % 2 ^ 64 := by
  simp [pteAddress, and_mask_toNat hn, Nat.shiftRight_eq_div_pow]

/-- The bits of a pointer's table (R153). -/
theorem nextTable_getLsbD (hp : wp.physBits ≤ 64) (pte : Word) (j : Nat) :
    (nextTable wp pte).getLsbD j = (decide (12 ≤ j ∧ j < wp.physBits) && pte.getLsbD (j - 2)) := by
  simp only [nextTable, BitVec.getLsbD_and, BitVec.getLsbD_shiftLeft, BitVec.getLsbD_ushiftRight, mask_getLsbD hp]
  by_cases h : 12 ≤ j ∧ j < wp.physBits
  · simp [h, show j < 64 by omega, show 10 + (j - 12) = j - 2 by omega]
  · by_cases h12 : 12 ≤ j
    · simp [h12, show ¬ j < wp.physBits by omega]
    · simp [show j < 12 by omega, h]

/-- The table of a pointer: its PPN times 4096 (R153). -/
theorem nextTable_toNat (h12 : 12 ≤ wp.physBits) (hp : wp.physBits ≤ 64) :
    (nextTable wp pte).toNat = pte.toNat / 2 ^ 10 % 2 ^ (wp.physBits - 12) * 4096 := by
  refine Nat.eq_of_testBit_eq fun j => ?_
  rw [show 4096 = 2 ^ 12 from rfl, Nat.testBit_mul_two_pow, Nat.testBit_mod_two_pow, Nat.testBit_div_two_pow,
    BitVec.testBit_toNat, BitVec.testBit_toNat, nextTable_getLsbD hp]
  by_cases h : 12 ≤ j
  · simp [h, show j - 12 < wp.physBits - 12 ↔ j < wp.physBits by omega, show j - 12 + 10 = j - 2 by omega]
  · simp [h]

/-- The paddr of a leaf: the PPN from the level up, and the offset of the address inside the leaf (R152). -/
theorem leafPaddr_toNat (h12 : 12 ≤ bitOff wp i) (hb : bitOff wp i ≤ wp.physBits) (hp : wp.physBits ≤ 64) :
    (leafPaddr wp pte v i).toNat =
      pte.toNat / 2 ^ (bitOff wp i - 2) % 2 ^ (wp.physBits - bitOff wp i) * 2 ^ bitOff wp i + v.toNat % 2 ^ bitOff wp i := by
  refine Nat.eq_of_testBit_eq fun j => ?_
  rw [BitVec.testBit_toNat, leafPaddr_getLsbD pte v (by omega) hp, Nat.mul_comm,
    Nat.testBit_two_pow_mul_add _ (Nat.mod_lt _ (Nat.two_pow_pos _))]
  split
  · next h => simp [h, BitVec.testBit_toNat]
  · next h =>
    rw [Nat.testBit_mod_two_pow, Nat.testBit_div_two_pow, BitVec.testBit_toNat,
      show j - bitOff wp i + (bitOff wp i - 2) = j - 2 by omega]
    simp [show j - bitOff wp i < wp.physBits - bitOff wp i ↔ j < wp.physBits by omega]

end Walk

/-- Settles O32: each field as the number its bits make. -/
theorem walkFields : Obligations.WalkFields := by
  intro wp i table v pte hm hi
  have hm := isMode_of_mem hm
  obtain ⟨h12, hb⟩ := hm.bitOff_le hi
  obtain ⟨-, hphys, -⟩ := hm.bounds
  exact ⟨pteAddress_toNat hm.vpnBits_le, nextTable_toNat (h12.trans hb) hphys, leafPaddr_toNat h12 hb hphys⟩

/-! #### The bits of a PTE that a walk looks at -/

section SamePte

/-- Two PTEs are equal in V, R, W, X and in the PPN of a mode (R92). -/
structure SamePte (wp : WalkParams) (pte pte' : Word) : Prop where
  flags : ∀ j < 4, pte.getLsbD j = pte'.getLsbD j
  ppn   : ∀ j, 10 ≤ j → j < wp.physBits - 2 → pte.getLsbD j = pte'.getLsbD j

variable {wp : WalkParams} {i : Nat} {pte pte' acc : Word}

theorem samePte_of_fields (hf : pte.extractLsb' 0 4 = pte'.extractLsb' 0 4)
    (hp : pte.extractLsb' 10 (wp.physBits - 12) = pte'.extractLsb' 10 (wp.physBits - 12)) : SamePte wp pte pte' :=
  ⟨fun j hj => extractLsb'_eq_iff.1 hf j (Nat.zero_le j) (by omega),
    fun j h10 hj => extractLsb'_eq_iff.1 hp j h10 (by omega)⟩

theorem SamePte.pteInvalid (h : SamePte wp pte pte') : pteInvalid pte = pteInvalid pte' := by
  simp only [Machine.pteInvalid, h.flags _ (show 0 < 4 by decide), h.flags _ (show 1 < 4 by decide),
    h.flags _ (show 2 < 4 by decide)]

theorem SamePte.pteLeaf (h : SamePte wp pte pte') : pteLeaf pte = pteLeaf pte' := by
  simp only [Machine.pteLeaf, h.flags _ (show 1 < 4 by decide), h.flags _ (show 2 < 4 by decide),
    h.flags _ (show 3 < 4 by decide)]

/-- An access mask has no bit above 3 (R12). -/
theorem isAccessMask_getLsbD (h : isAccessMask acc = true) {j : Nat} (hj : 4 ≤ j) : acc.getLsbD j = false := by
  have outside : ∀ k < 64, 4 ≤ k → (~~~ (0xE : Word)).getLsbD k = true := by decide
  simp only [isAccessMask, Bool.and_eq_true, beq_iff_eq] at h
  by_cases h64 : j < 64
  · have hand := congrArg (BitVec.getLsbD · j) h.2
    rwa [BitVec.getLsbD_and, outside j h64 hj, Bool.and_true, BitVec.ofNat_eq_ofNat, BitVec.getLsbD_zero] at hand
  · exact BitVec.getLsbD_of_ge acc j (by omega)

theorem SamePte.pteDenies (h : SamePte wp pte pte') (ha : isAccessMask acc = true) :
    pteDenies pte acc = pteDenies pte' acc := by
  have hand : pte &&& acc = pte' &&& acc := by
    refine BitVec.eq_of_getLsbD_eq fun j _ => ?_
    rw [BitVec.getLsbD_and, BitVec.getLsbD_and]
    by_cases hj : j < 4
    · rw [h.flags j hj]
    · rw [isAccessMask_getLsbD ha (by omega), Bool.and_false, Bool.and_false]
  rw [Machine.pteDenies, hand, Machine.pteDenies]

theorem SamePte.misaligned (h : SamePte wp pte pte') (hb : bitOff wp i ≤ 64) (hp : wp.physBits ≤ 64) :
    misaligned wp pte i = misaligned wp pte' i := by
  have hlow : (pte <<< 2) &&& mask (bitOff wp i) &&& (mask wp.physBits &&& ~~~ mask 12) =
      (pte' <<< 2) &&& mask (bitOff wp i) &&& (mask wp.physBits &&& ~~~ mask 12) := by
    refine BitVec.eq_of_getLsbD_eq fun j _ => ?_
    simp only [BitVec.getLsbD_and, BitVec.getLsbD_not, BitVec.getLsbD_shiftLeft, mask_getLsbD hb, mask_getLsbD hp,
      mask_getLsbD (show 12 ≤ 64 by decide)]
    by_cases hj : 12 ≤ j ∧ j < wp.physBits
    · rw [h.ppn (j - 2) (by omega) (by omega)]
    · by_cases h12 : j < 12
      · simp [h12]
      · simp [show ¬ j < wp.physBits by omega]
  rw [Machine.misaligned, hlow, Machine.misaligned]

theorem SamePte.nextTable (h : SamePte wp pte pte') (hp : wp.physBits ≤ 64) : nextTable wp pte = nextTable wp pte' := by
  refine BitVec.eq_of_getLsbD_eq fun j _ => ?_
  rw [nextTable_getLsbD hp, nextTable_getLsbD hp]
  by_cases hj : 12 ≤ j ∧ j < wp.physBits
  · rw [h.ppn (j - 2) (by omega) (by omega)]
  · simp [hj]

/-- Equal PTEs lead a walk the same way (R162). -/
theorem SamePte.pteStep (h : SamePte wp pte pte') (ha : isAccessMask acc = true) (hb : bitOff wp i ≤ 64)
    (hp : wp.physBits ≤ 64) : pteStep wp pte acc i = pteStep wp pte' acc i := by
  simp only [Machine.pteStep, leafFault, h.pteInvalid, h.pteLeaf, h.pteDenies ha, h.misaligned hb hp, h.nextTable hp]

/-- Equal PTEs are leaves of the same paddr (R162). -/
theorem SamePte.leafPaddr (h : SamePte wp pte pte') (h12 : 12 ≤ bitOff wp i) (hb : bitOff wp i ≤ 64)
    (hp : wp.physBits ≤ 64) (v : Word) : leafPaddr wp pte v i = leafPaddr wp pte' v i := by
  refine BitVec.eq_of_getLsbD_eq fun j _ => ?_
  rw [leafPaddr_getLsbD pte v hb hp, leafPaddr_getLsbD pte' v hb hp]
  split
  · rfl
  · by_cases hj : j < wp.physBits
    · rw [h.ppn (j - 2) (by omega) (by omega)]
    · simp [hj]

/-- The A/D update sets bits 6 and 7 only (R151). -/
theorem pteAccessed_getLsbD {k : Nat} (h6 : k ≠ 6) (h7 : k ≠ 7) (pte acc : Word) :
    (pteAccessed pte acc).getLsbD k = pte.getLsbD k := by
  have bitA : (0x40 : Word).getLsbD k = false := by
    rw [show (0x40 : Word) = BitVec.twoPow 64 6 from rfl, BitVec.getLsbD_twoPow]
    simp [h6.symm]
  have bitD : (if (acc &&& opCode .W) != 0 then 0x80 else 0 : Word).getLsbD k = false := by
    split
    · rw [show (0x80 : Word) = BitVec.twoPow 64 7 from rfl, BitVec.getLsbD_twoPow]
      simp [h7.symm]
    · exact BitVec.getLsbD_zero
  rw [pteAccessed, BitVec.getLsbD_or, BitVec.getLsbD_or, bitA, bitD, Bool.or_false, Bool.or_false]

end SamePte

/-- Settles O34: every function of a PTE that a walk uses reads only the bits in which the two PTEs are the same (`SamePte`). -/
theorem ignoredPteFields : Obligations.IgnoredPteFields := by
  intro wp i pte pte' acc v hm hi ha hf hp
  have hm := isMode_of_mem hm
  obtain ⟨h12, hb⟩ := hm.bitOff_le hi
  obtain ⟨-, hphys, -⟩ := hm.bounds
  have hsame := samePte_of_fields hf hp
  exact ⟨hsame.pteStep ha (hb.trans hphys) hphys, hsame.leafPaddr h12 (hb.trans hphys) hphys v,
    fun k h6 h7 => pteAccessed_getLsbD h6 h7 pte acc⟩

/-! #### Words written out, and steps that run no instruction -/

/-- Settles O1: the decoder evaluated on each request. -/
theorem wordsDecode : Obligations.WordsDecode :=
  ⟨rfl, rfl, rfl, rfl, rfl, rfl, rfl, rfl, rfl, rfl, rfl⟩

/-- Settles O7: `step` along each of its ways to run no instruction. -/
theorem stepTurnsAway : Obligations.StepTurnsAway := by
  intro s
  refine ⟨fun hp => ?_, fun hp hq hr => ?_, fun r rest hp hq => ⟨fun hf => ?_, fun hf hfr => ?_, fun hf hfr hh => ?_,
    fun why hf hfr hh hc hd => ?_⟩⟩
  · simp [step, hp]
  · simp [step, hp, hq, hr]
  · simp [step, hp, hq, hf]
  · simp [step, hp, hq, hf, hfr]
  · simp [step, hp, hq, hf, hfr, Nat.not_lt.2 hh]
  · simp [step, hp, hq, hf, hfr, hh, hc, hd]

end Sys2Proof.Machine

/-! ### Physical address map (40_pam.md): address classes in unbounded integers, RAM.INIT and RAM.FREE

The tests of an address against RAM and against a device are turned into integer comparisons once (`ramContains_iff`,
`deviceContains_iff`); the scan is then the library's `findIdx?`, and an address in two regions is a byte that they have in common.
RAM.INIT has one rule for each way it ends. -/

namespace Sys2Proof.Machine

open Sys2Proof.Config

/-! #### Address classes -/

section AddressClasses

variable {r : Ram} {d e : Device} {ds : List Device} {p : Word}

/-- `InRam(p)` without a wrap (R120): below `begin` the difference is not looked at. -/
theorem ramContains_iff : r.contains p = true ↔
    r.present = true ∧ r.begin.toNat ≤ p.toNat ∧ p.toNat < r.begin.toNat + r.size.toNat := by
  simp only [Ram.contains, Bool.and_eq_true, decide_eq_true_eq, BitVec.le_def, BitVec.lt_def, and_assoc]
  refine and_congr_right fun _ => and_congr_right fun hle => ?_
  rw [BitVec.toNat_sub_of_le hle]
  omega

theorem deviceContains_iff : deviceContains d p = true ↔ d.begin.toNat ≤ p.toNat ∧ p.toNat < d.stop.toNat := by
  simp only [deviceContains, Bool.and_eq_true, decide_eq_true_eq, BitVec.le_def, BitVec.lt_def]

theorem physToHost_eq (r : Ram) (p : Word) : physToHost r p =
    if r.present = true ∧ r.begin.toNat ≤ p.toNat ∧ p.toNat < r.begin.toNat + r.size.toNat
      then some (p - r.begin) else none := by
  simp only [physToHost, ramContains_iff]

theorem findMmio_eq_none_iff : findMmio ds p = none ↔
    ∀ d ∈ ds, ¬ (d.begin.toNat ≤ p.toNat ∧ p.toNat < d.stop.toNat) := by
  simp only [findMmio, List.findIdx?_eq_none_iff, ← deviceContains_iff, Bool.not_eq_true]

/-- The scan stops at the first device that contains the address (R121). -/
theorem findMmio_first {k : Nat} (h : findMmio ds p = some k) :
    ∃ d, ds[k]? = some d ∧ d.begin.toNat ≤ p.toNat ∧ p.toNat < d.stop.toNat ∧
      ∀ j < k, ∀ e, ds[j]? = some e → ¬ (e.begin.toNat ≤ p.toNat ∧ p.toNat < e.stop.toNat) := by
  obtain ⟨hk, hhit, hbefore⟩ := List.findIdx?_eq_some_iff_getElem.1 h
  obtain ⟨hlo, hhi⟩ := deviceContains_iff.1 hhit
  refine ⟨ds[k], List.getElem?_eq_getElem hk, hlo, hhi, fun j hj e he => ?_⟩
  obtain ⟨-, rfl⟩ := List.getElem?_eq_some_iff.1 he
  rw [← deviceContains_iff]
  exact hbefore j hj

/-- An address in a device and in RAM is a byte that the two regions have in common. -/
theorem deviceOverlapsRam_of_contains (hd : deviceContains d p = true) (hr : r.contains p = true) :
    deviceOverlapsRam r.begin r.size d = true := by
  have hd := deviceContains_iff.1 hd
  obtain ⟨-, hr⟩ := ramContains_iff.1 hr
  rw [deviceOverlapsRam, decide_eq_true_eq]
  omega

/-- An address in two devices is a byte that their regions have in common. -/
theorem devicesOverlap_of_contains (hd : deviceContains d p = true) (he : deviceContains e p = true) :
    devicesOverlap d e = true := by
  have hd := deviceContains_iff.1 hd
  have he := deviceContains_iff.1 he
  rw [devicesOverlap, decide_eq_true_eq]
  omega

/-- No device of a valid list overlaps a later one (R31). -/
theorem devicesOk_pairwise (h : devicesOk ds = true) : ds.Pairwise fun d e => devicesOverlap d e = false := by
  induction ds with
  | nil => exact .nil
  | cons d ds ih =>
    simp only [devicesOk, Bool.and_eq_true, List.all_eq_true, Bool.not_eq_true'] at h
    obtain ⟨⟨-, hd⟩, hds⟩ := h
    exact .cons hd (ih hds)

/-- In a valid list the devices at two places share no address. -/
theorem devices_disjoint (h : devicesOk ds = true) {j k : Nat} (hj : ds[j]? = some d) (hk : ds[k]? = some e)
    (hlt : j < k) (hd : deviceContains d p = true) (he : deviceContains e p = true) : False := by
  obtain ⟨hjlen, rfl⟩ := List.getElem?_eq_some_iff.1 hj
  obtain ⟨hklen, rfl⟩ := List.getElem?_eq_some_iff.1 hk
  have hno := List.pairwise_iff_getElem.1 (devicesOk_pairwise h) j k hjlen hklen hlt
  simp [devicesOverlap_of_contains hd he] at hno

/-- In a state whose RAM is legal no device contains an address in RAM (R122). -/
theorem findMmio_of_ramContains {s : State} (h : ramLegal s = true) (hp : s.ram.contains p = true) :
    findMmio s.params.devices p = none := by
  obtain ⟨hpresent, -⟩ := ramContains_iff.1 hp
  simp only [ramLegal, hpresent, if_true, Bool.and_eq_true, List.all_eq_true, Bool.not_eq_true'] at h
  obtain ⟨⟨⟨-, hclear⟩, -⟩, -⟩ := h
  refine List.findIdx?_eq_none_iff.2 fun d hd => Bool.eq_false_iff.2 fun hcontains => ?_
  simpa [hclear d hd] using deviceOverlapsRam_of_contains hcontains hp

theorem paramsOk_devices {q : Params} (h : paramsOk q = true) : devicesOk q.devices = true := by
  simp only [paramsOk, Bool.and_eq_true] at h
  obtain ⟨⟨-, hdevices⟩, -⟩ := h
  exact hdevices

end AddressClasses

/-- Settles O18: the two results of the scan. -/
theorem findMmioResult : Obligations.FindMmioResult := by
  intro s p
  refine ⟨findMmio s.params.devices p, rfl, ?_⟩
  cases h : findMmio s.params.devices p with
  | none => exact findMmio_eq_none_iff.1 h
  | some k => exact findMmio_first h

/-- Settles O19: RAM by `ramLegal`, the devices by `paramsOk`; two places of the list are compared in their order. -/
theorem classesDisjoint : Obligations.ClassesDisjoint := by
  rintro s p ⟨hparams, hram, -⟩
  refine ⟨findMmio_of_ramContains hram, fun j k d e hj hk hd he => ?_⟩
  have hdevices := paramsOk_devices hparams
  obtain hlt | heq | hgt := Nat.lt_trichotomy j k
  · exact (devices_disjoint hdevices hj hk hlt hd he).elim
  · exact heq
  · exact (devices_disjoint hdevices hk hj hgt he hd).elim

/-- Settles O17: PHYS2HOST as `physToHost_eq` says it. -/
theorem physToHostResult : Obligations.PhysToHostResult := by
  intro s p
  rw [← physToHost_eq]
  rfl

/-! #### RAM.INIT -/

section RamInit

variable {s : State} {a b : Word}

/-- The state in which RAM.INIT returns: the machine does not start, or RAM is the region with every byte 0 (R123, R30). -/
def ramInitAnswer (a b : Word) (fails : Bool) (t : State) : State :=
  if fails then State.give { t with failed := true } (.command false [])
  else State.give { t with ram := ⟨true, a, b, []⟩ } (.command true [])

/-- A second RAM.INIT, and one after a false RAM.INIT (R123; log entry 14). -/
theorem exec_ramInit_twice (h : s.ram.present = true ∨ s.failed = true) :
    exec (.ramInit a b) s = .refused .ramInitTwice := by
  rw [exec, execRamInit, if_pos (by simpa using h)]

/-- A first RAM.INIT while a hart is inside a command (R345; log entry 15). -/
theorem exec_ramInit_running (hp : s.ram.present = false) (hf : s.failed = false) (hr : s.running ≠ []) :
    exec (.ramInit a b) s = .refused .hartsRunning := by
  rw [exec, execRamInit, if_neg (by simp [hp, hf]), if_pos (by simpa using hr)]

/-- A first RAM.INIT while no hart runs: the region, the devices, then the draw (R123, R31). -/
theorem exec_ramInit_first (hp : s.ram.present = false) (hf : s.failed = false) (hr : s.running = []) :
    exec (.ramInit a b) s =
      if ramRegionOk a b = true then
        if s.params.devices.any (deviceOverlapsRam a b) = true then .refused .ramOverlapsDevice
        else .next (ramInitAnswer a b (allocDraw a b s).1 (allocDraw a b s).2)
      else .next (ramInitAnswer a b true s) := by
  rw [exec, execRamInit, if_neg (by simp [hp, hf]), if_neg (by simp [hr])]
  cases ramRegionOk a b with
  | false => rfl
  | true =>
    simp only [Bool.not_true, Bool.false_eq_true, if_true, if_false]
    cases (allocDraw a b s).1 <;> rfl

theorem allocDraw_cons {fails : Bool} {rest : List Bool} (h : s.env.allocDraws = fails :: rest) :
    allocDraw a b s = (fails, { s with env := { s.env with allocDraws := rest } }) := by
  rw [allocDraw, h]

theorem allocDraw_nil (h : s.env.allocDraws = []) : allocDraw a b s =
    (Config.allocFails s.env.draws a b, { s with env := { s.env with draws := s.env.draws + 1 } }) := by
  rw [allocDraw, h]

theorem any_deviceOverlapsRam_iff {ds : List Device} : ds.any (deviceOverlapsRam a b) = true ↔
    ¬ ∀ d ∈ ds, ¬ max d.begin.toNat a.toNat < min d.stop.toNat (a.toNat + b.toNat) := by
  simp only [List.any_eq_true, deviceOverlapsRam, decide_eq_true_eq, not_forall, not_not, exists_prop]

end RamInit

/-- Settles O20: the first RAM.INIT is `exec_ramInit_first`, with the draw the run supplies or a free one. -/
theorem ramInitResult : Obligations.RamInitResult := by
  intro s a b regionOk clear answer
  have hregion : ramRegionOk a b = true ↔ regionOk := by rw [ramRegionOk_iff, Nat.pos_iff_ne_zero]
  have hover : s.params.devices.any (deviceOverlapsRam a b) = true ↔ ¬ clear := any_deviceOverlapsRam_iff
  refine ⟨exec_ramInit_twice, fun hp hf => ⟨exec_ramInit_running hp hf, fun hr => ?_⟩⟩
  rw [exec_ramInit_first hp hf hr]
  refine ⟨fun hbad => ?_, fun hok hdev => ?_, fun hok hclear => ?_⟩
  · exact if_neg (hregion.not.2 hbad)
  · rw [if_pos (hregion.2 hok), if_pos (hover.2 hdev)]
  · rw [if_pos (hregion.2 hok), if_neg (fun h => hover.1 h hclear)]
    refine ⟨fun fails rest hdraw => ?_, fun hnone => ⟨Config.allocFails s.env.draws a b, ?_⟩⟩
    · rw [allocDraw_cons hdraw]
      rfl
    · rw [allocDraw_nil hnone]
      rfl

/-! #### RAM.FREE -/

/-- Settles O21: the two guards of RAM.FREE, in their order. -/
theorem ramFreeResult : Obligations.RamFreeResult := by
  intro s
  refine ⟨fun hp hr => ?_, fun hp hr => ?_, fun hp => ?_⟩
  · rw [exec, execRamFree, if_neg (by simp [hp]), if_neg (by simp [hr])]
    rfl
  · rw [exec, execRamFree, if_neg (by simp [hp]), if_pos (by simpa using hr)]
  · rw [exec, execRamFree, if_pos (by simp [hp])]

end Sys2Proof.Machine

/-! ### Walker (41_walker.md): its checks, what a walk emits among other agents, and the walk that nobody disturbs

`WalkEmits` says once what a walk that ends has emitted and returned, whatever other agents did meanwhile; the counts of loads and
the statement about the swap are read off it. `walk_undisturbed` is the machine's walk when nobody else acts: the plain
`quietWalk`. `run_sameBut` compares one program on two states that differ in one hart's context. -/

namespace Sys2Proof.Machine

open Sys2Proof.Config

/-! #### The modes and the canonical check -/

section Modes

variable {wp : WalkParams}

/-- Sign extension from bit `top` as a number: that bit repeated above (00_scope.md R10). -/
theorem sext_toNat (top : Nat) (v : Word) :
    (sext (top + 1) v).toNat = v.toNat % 2 ^ top + 2 ^ top * (v.toNat / 2 ^ top % 2) +
      if v.toNat / 2 ^ top % 2 = 1 then 2 ^ 64 - 2 ^ (top + 1) else 0 := by
  have hmsb : (v.setWidth (top + 1)).msb = decide (v.toNat / 2 ^ top % 2 = 1) := by
    rw [BitVec.msb_eq_getLsbD_last, BitVec.getLsbD_setWidth, BitVec.getLsbD, Nat.testBit_eq_decide_div_mod_eq]
    simp
  have hlow : v.toNat % 2 ^ (top + 1) < 2 ^ 64 := lt_of_le_of_lt (Nat.mod_le _ _) v.isLt
  have hsplit : v.toNat % 2 ^ (top + 1) = v.toNat % 2 ^ top + 2 ^ top * (v.toNat / 2 ^ top % 2) := Nat.mod_mul
  rw [sext, BitVec.toNat_signExtend, BitVec.toNat_setWidth, BitVec.toNat_setWidth, Nat.mod_eq_of_lt hlow, hsplit, hmsb]
  simp

/-- An address is its own sign extension from bit `top` when its bits from `top` up are equal. -/
theorem eq_sext_iff {top : Nat} (ht : top < 64) (v : Word) :
    v = sext (top + 1) v ↔ v.toNat / 2 ^ top = 0 ∨ v.toNat / 2 ^ top = 2 ^ (64 - top) - 1 := by
  have hpos := Nat.two_pow_pos top
  have hdiv := Nat.div_add_mod v.toNat (2 ^ top)
  have hlt : v.toNat / 2 ^ top < 2 ^ (64 - top) := Nat.div_lt_of_lt_mul (by
    rw [← pow_add, show top + (64 - top) = 64 by omega]
    exact v.isLt)
  have heven : 2 ^ (64 - top) = 2 * 2 ^ (63 - top) := by rw [← pow_succ', show 63 - top + 1 = 64 - top by omega]
  have hfill : 2 ^ 64 - 2 ^ (top + 1) = 2 ^ top * (2 ^ (64 - top) - 2) := by
    rw [Nat.mul_sub, ← pow_add, ← pow_succ, show top + (64 - top) = 64 by omega]
  rw [BitVec.toNat_eq, sext_toNat, hfill]
  generalize v.toNat / 2 ^ top = q at *
  rcases Nat.mod_two_eq_zero_or_one q with hq | hq
  · have hzero : 2 ^ top * q = 0 ↔ q = 0 := by simp
    simp only [hq, zero_ne_one, if_false]
    omega
  · have hlast : 2 ^ top * q = 2 ^ top * (2 ^ (64 - top) - 1) ↔ q = 2 ^ (64 - top) - 1 := Nat.mul_right_inj hpos.ne'
    have hsplit : 2 ^ top * (2 ^ (64 - top) - 1) = 2 ^ top + 2 ^ top * (2 ^ (64 - top) - 2) := by
      rw [show 2 ^ (64 - top) - 1 = 1 + (2 ^ (64 - top) - 2) by omega, Nat.mul_add, Nat.mul_one]
    simp only [hq, if_true]
    omega

/-- The canonical check of a 64-bit mode with top bit `top`: the bits from `top` up are equal (41_walker.md R142). -/
theorem canonical_iff {m : BitVec 4} {top : Nat} (hm : (m.toNat, top) ∈ [(8, 38), (9, 47), (10, 56)])
    (hwp : modeParams m = .paged wp) (v : Word) :
    canonical wp v = true ↔ v.toNat / 2 ^ top = 0 ∨ v.toNat / 2 ^ top = 2 ^ (64 - top) - 1 := by
  have htop : wp.pteBytes = 8 ∧ bitOff wp (wp.levels - 1) + wp.vpnBits = top + 1 ∧ top < 64 := by
    simp only [List.mem_cons, Prod.mk.injEq, List.not_mem_nil, or_false] at hm
    rcases hm with ⟨hm, rfl⟩ | ⟨hm, rfl⟩ | ⟨hm, rfl⟩
    · obtain rfl : m = 8 := BitVec.eq_of_toNat_eq hm
      obtain rfl : sv39 = wp := Paging.paged.inj hwp
      decide
    · obtain rfl : m = 9 := BitVec.eq_of_toNat_eq hm
      obtain rfl : sv48 = wp := Paging.paged.inj hwp
      decide
    · obtain rfl : m = 10 := BitVec.eq_of_toNat_eq hm
      obtain rfl : sv57 = wp := Paging.paged.inj hwp
      decide
  obtain ⟨hbytes, hwidth, hlt⟩ := htop
  rw [canonical, hbytes, hwidth, bne_self_eq_false, Bool.false_or, beq_iff_eq, eq_sext_iff hlt]

end Modes

/-! #### What a loaded PTE means -/

section Pte

variable {wp : WalkParams} {i : Nat} {pte acc : Word}

/-- A PTE is invalid when V is clear, or R clear and W set (41_walker.md R147). -/
theorem pteInvalid_iff : pteInvalid pte = true ↔
    pte.getLsbD 0 = false ∨ (pte.getLsbD 1 = false ∧ pte.getLsbD 2 = true) := by
  simp [pteInvalid]

/-- A PTE is a pointer when its field R, W, X is clear (R148). -/
theorem pteLeaf_eq_false_iff : pteLeaf pte = false ↔ pte.extractLsb' 1 3 = 0 := by
  rw [extractLsb'_eq_zero_iff]
  simp only [pteLeaf, Bool.or_eq_false_iff]
  constructor
  · rintro ⟨⟨h1, h2⟩, h3⟩ j hlo hhi
    obtain rfl | rfl | rfl : j = 1 ∨ j = 2 ∨ j = 3 := by omega
    exacts [h1, h2, h3]
  · intro h
    exact ⟨⟨h 1 (by decide) (by decide), h 2 (by decide) (by decide)⟩, h 3 (by decide) (by decide)⟩

/-- An access mask has no bit 0 (R12). -/
theorem isAccessMask_getLsbD_zero (h : isAccessMask acc = true) : acc.getLsbD 0 = false := by
  simp only [isAccessMask, Bool.and_eq_true, beq_iff_eq] at h
  have hand := congrArg (BitVec.getLsbD · 0) h.2
  rwa [BitVec.getLsbD_and, show (~~~ (0xE : Word)).getLsbD 0 = true by decide, Bool.and_true, BitVec.ofNat_eq_ofNat,
    BitVec.getLsbD_zero] at hand

/-- A leaf is denied when its field R, W, X has no bit of the mask (R149). -/
theorem pteDenies_iff (ha : isAccessMask acc = true) :
    pteDenies pte acc = true ↔ pte.extractLsb' 1 3 &&& acc.extractLsb' 1 3 = 0 := by
  rw [← BitVec.extractLsb'_and, extractLsb'_eq_zero_iff]
  simp only [pteDenies, beq_iff_eq]
  refine ⟨fun h j _ _ => by rw [h]; simp, fun h => BitVec.eq_of_getLsbD_eq fun j _ => ?_⟩
  rw [BitVec.ofNat_eq_ofNat, BitVec.getLsbD_zero]
  by_cases hj : 1 ≤ j ∧ j < 1 + 3
  · exact h j hj.1 hj.2
  · have hout : acc.getLsbD j = false := by
      obtain rfl | h4 : j = 0 ∨ 4 ≤ j := by omega
      · exact isAccessMask_getLsbD_zero ha
      · exact isAccessMask_getLsbD ha h4
    rw [BitVec.getLsbD_and, hout, Bool.and_false]

/-- A superpage is misaligned when its PPN has a bit below its level (R150). -/
theorem misaligned_iff (hb : bitOff wp i ≤ wp.physBits) (hp : wp.physBits ≤ 64) :
    misaligned wp pte i = true ↔ pte.extractLsb' 10 (i * wp.vpnBits) ≠ 0 := by
  rw [misaligned, bne_iff_ne, not_iff_not, extractLsb'_eq_zero_iff]
  have hbit : ∀ j, ((pte <<< 2) &&& mask (bitOff wp i) &&& (mask wp.physBits &&& ~~~ mask 12)).getLsbD j =
      (decide (12 ≤ j ∧ j < bitOff wp i) && pte.getLsbD (j - 2)) := by
    intro j
    simp only [BitVec.getLsbD_and, BitVec.getLsbD_not, BitVec.getLsbD_shiftLeft, mask_getLsbD (hb.trans hp),
      mask_getLsbD hp, mask_getLsbD (show 12 ≤ 64 by decide)]
    by_cases hj : 12 ≤ j ∧ j < bitOff wp i
    · simp [hj, show j < 64 by omega, show ¬ j < 2 by omega, show j < wp.physBits by omega]
    · by_cases h12 : j < 12
      · simp [h12]
      · simp [show ¬ j < bitOff wp i by omega]
  refine ⟨fun h j hlo hhi => ?_, fun h => BitVec.eq_of_getLsbD_eq fun j _ => ?_⟩
  · have hj := hbit (j + 2)
    rw [h, BitVec.ofNat_eq_ofNat, BitVec.getLsbD_zero] at hj
    simpa [show 12 ≤ j + 2 ∧ j + 2 < bitOff wp i by simp only [bitOff]; omega] using hj.symm
  · rw [hbit, BitVec.ofNat_eq_ofNat, BitVec.getLsbD_zero]
    by_cases hj : 12 ≤ j ∧ j < bitOff wp i
    · simp only [bitOff] at hj
      rw [h (j - 2) (by omega) (by omega), Bool.and_false]
    · simp [hj]

end Pte

/-- Settles O33: each test of `pteStep` as the field it reads. -/
theorem pteDecision : Obligations.PteDecision := by
  intro wp i pte acc hm hi ha
  have hm := isMode_of_mem hm
  obtain ⟨-, hb⟩ := hm.bitOff_le hi
  obtain ⟨-, hphys, -⟩ := hm.bounds
  rw [pteStep]
  refine ite_congr (propext pteInvalid_iff) (fun _ => rfl) fun _ => ?_
  by_cases hptr : pte.extractLsb' 1 3 = 0
  · rw [if_pos hptr, pteLeaf_eq_false_iff.2 hptr]
    rfl
  · rw [if_neg hptr, if_pos (Bool.not_eq_false _ ▸ pteLeaf_eq_false_iff.not.2 hptr), leafFault]
    simp only [pteDenies_iff ha, misaligned_iff hb hphys]
    split_ifs <;> rfl

/-- Settles O30: the codes one by one; a WALK under a code without a walk is refused (`execWalk_unpaged`). -/
theorem modeDecoder : Obligations.ModeDecoder := by
  refine ⟨rfl, rfl, rfl, rfl, rfl, by decide, fun s v acc t ht => ?_⟩
  by_contra hmode
  rw [exec, execWalk_unpaged hmode] at ht
  cases ht

/-! #### What a walk emits, whatever other agents do meanwhile -/

section WalkEvents

variable {s t : State} {v : View} {wp : WalkParams} {vaddr acc : Word} {log : List (Atom × Reply)}

/-- How many PTEs are loaded before a fault, n levels being left (41_walker.md R155, R161). -/
def FaultLoads (n : Nat) (why : WalkFault) (loads : Nat) : Prop :=
  match why with
  | .noncanonical => loads = 0
  | .pteNotRam => loads < n
  | .noLeaf => loads = n
  | .invalid | .permission | .misalignedSuperpage => 1 ≤ loads ∧ loads ≤ n

/-- A fault below a loaded pointer. -/
theorem FaultLoads.below {n loads : Nat} {why : WalkFault} (hne : why ≠ .noncanonical) (h : FaultLoads n why loads) :
    FaultLoads (n + 1) why (loads + 1) := by
  cases why with
  | noncanonical => exact absurd rfl hne
  | pteNotRam | noLeaf => simpa [FaultLoads] using h
  | invalid | permission | misalignedSuperpage => exact ⟨by omega, Nat.succ_le_succ h.2⟩

/-- The faults of a loaded PTE (R147, R149, R150). -/
theorem pteStep_fault {pte : Word} {i : Nat} {why : WalkFault} (h : pteStep wp pte acc i = .fault why) :
    why ∈ [.invalid, .permission, .misalignedSuperpage] := by
  unfold pteStep leafFault at h
  split_ifs at h <;> cases h <;> decide

/-- The loads before a fault of the PTE loads. -/
theorem findLeaf_fault {n : Nat} {table : Word} {why : WalkFault}
    (h : (findLeaf v wp vaddr acc n table).Trace log (.fault why)) :
    why ≠ .noncanonical ∧ FaultLoads n why (eventsOf log).length := by
  induction n generalizing table log with
  | zero =>
    obtain ⟨rfl, hwhy⟩ := h.done_inv
    cases hwhy
    exact ⟨by decide, rfl⟩
  | succ n ih =>
    simp only [findLeaf] at h
    split at h
    · obtain ⟨rfl, hwhy⟩ := h.done_inv
      cases hwhy
      exact ⟨by decide, Nat.succ_pos n⟩
    · obtain ⟨l1, l2, pte, rfl, h1, h2⟩ := Prog.Trace.bind_inv h
      have hload : (eventsOf (l1 ++ l2)).length = (eventsOf l2).length + 1 := by
        rw [eventsOf_append, (loadPte_trace (K := fun _ => True) h1).1.events]
        simp [Nat.add_comm]
      rw [hload]
      split at h2
      · next why' hstep =>
        obtain ⟨rfl, hwhy⟩ := h2.done_inv
        cases hwhy
        have hmem := pteStep_fault hstep
        simp only [List.mem_cons, List.not_mem_nil, or_false] at hmem
        obtain rfl | rfl | rfl := hmem <;> exact ⟨by decide, by simp [FaultLoads]⟩
      · obtain ⟨-, hwhy⟩ := h2.done_inv
        cases hwhy
      · obtain ⟨hne, hcount⟩ := ih h2
        exact ⟨hne, hcount.below hne⟩

/-- What a walk that ends has emitted, and its result: loads alone before a fault; the loads of a leaf, and its swap if a bit was
to be set (R151, R155). -/
inductive WalkEmits (v : View) (wp : WalkParams) (vaddr acc : Word) : List Event → WalkResult → Prop
  | fault {loads : List Event} {why : WalkFault} (reads : ∀ e ∈ loads, isRamRead e = true)
      (canon : canonical wp vaddr = false ↔ why = .noncanonical) (count : FaultLoads wp.levels why loads.length) :
      WalkEmits v wp vaddr acc loads (.fault why)
  | leaf {loads : List Event} (l : Leaf) (reads : ∀ e ∈ loads, isRamRead e = true) (level : l.level < wp.levels)
      (count : loads.length = wp.levels - l.level) (kept : pteAccessed l.pte acc = l.pte) :
      WalkEmits v wp vaddr acc loads (.ok (leafPaddr wp l.pte vaddr l.level))
  | swap {loads : List Event} (l : Leaf) (ok : Bool) (reads : ∀ e ∈ loads, isRamRead e = true) (level : l.level < wp.levels)
      (count : loads.length = wp.levels - l.level) (set : pteAccessed l.pte acc ≠ l.pte) :
      WalkEmits v wp vaddr acc
        (loads ++ [.ramCas v.hart (v.ram.physOf l.offset) wp.pteBytes l.pte (pteAccessed l.pte acc) ok])
        (.ok (leafPaddr wp l.pte vaddr l.level))

/-- What a walk emits, whatever its loads are answered. -/
theorem walk_emits {r : WalkResult} (h : (walk v wp vaddr acc).Trace log r) :
    WalkEmits v wp vaddr acc (eventsOf log) r := by
  unfold walk at h
  split at h
  · next hcanon =>
    obtain ⟨l1, l2, lr, rfl, h1, h2⟩ := Prog.Trace.bind_inv h
    obtain ⟨loads, trail, reads, -, hleaf⟩ := findLeaf_trace (K := fun _ => True) h1
    rw [eventsOf_append, trail.events]
    cases lr with
    | fault why =>
      obtain ⟨rfl, rfl⟩ := h2.done_inv
      obtain ⟨hne, count⟩ := findLeaf_fault h1
      rw [trail.events] at count
      rw [eventsOf_nil, List.append_nil]
      exact .fault reads (by simp [hcanon, hne]) count
    | leaf l =>
      obtain ⟨l3, l4, x, rfl, h3, h4⟩ := Prog.Trace.bind_inv h2
      obtain ⟨rfl, rfl⟩ := h4.done_inv
      obtain ⟨level, count, -⟩ := hleaf l rfl
      rcases updateAD_trace (K := fun _ => True) h3 with ⟨rfl, kept⟩ | ⟨set, ok, trail'⟩
      · rw [List.append_nil, eventsOf_nil, List.append_nil]
        exact .leaf l reads level count kept
      · rw [List.append_nil, trail'.events]
        exact .swap l ok reads level count set
  · next hcanon =>
    obtain ⟨rfl, rfl⟩ := h.done_inv
    exact .fault (by simp) (by simpa using hcanon) rfl

/-- A WALK that ends, run among other agents, returns its walk's result, and its own events are its walk's. -/
theorem exec_walk_emits (hm : modeParams s.ctx.mode = .paged wp) (h : exec (.walk vaddr acc) s = .next t) :
    ∃ r, Returns s t (.walk r) ∧ WalkEmits s.view wp vaddr acc (ownEvents s t) r := by
  obtain ⟨x, u, hrun, rfl⟩ := finish_eq_next h
  obtain ⟨log, htr, run⟩ := ran_of_run (K := fun _ => False) (E := fun _ => True) (walkCommand_ok trivial False.elim)
    (fun log htr => by
      obtain ⟨_, r, -, -, htr⟩ := walkCommand_trace htr
      exact (walk_trace htr).imp fun es hes => hes.1) hrun
  obtain ⟨wp', r, hm', rfl, htr⟩ := walkCommand_trace htr
  obtain rfl : wp = wp' := Paging.paged.inj (hm.symm.trans hm')
  have e : Effect s (.walk vaddr acc) u := .ran run fun _ _ => id
  obtain ⟨-, rs, hrs, hother⟩ := e.outputs
  exact ⟨r, returns_give e.cur_eq hrs hother _, by rw [run.ownEvents]; exact walk_emits htr⟩

/-- A command returns one value. -/
theorem Returns.unique {x y : Value} (hx : Returns s t x) (hy : Returns s t y) : x = y :=
  List.head_eq_of_cons_eq (hx.2.symm.trans hy.2)

/-- A read stores nothing. -/
theorem not_storesTo_of_isRamRead {e : Event} (h : isRamRead e = true) {r : Ram} {o : Nat} : ¬ storesTo r o e := by
  cases e with
  | ramRead => exact id
  | _ => cases h

/-- The new value of the A/D update (R151). -/
theorem pteAccessed_eq (pte acc : Word) :
    pteAccessed pte acc = pte ||| 0x40 ||| (if acc.getLsbD 2 then 0x80 else 0) := by
  have hw : ((acc &&& opCode .W) != 0) = acc.getLsbD 2 := by
    rw [show opCode .W = BitVec.twoPow 64 2 from rfl, BitVec.and_twoPow]
    cases acc.getLsbD 2 <;> rfl
  rw [pteAccessed, hw]

end WalkEvents

/-- Settles O36: the loads are counted in each way a walk can go (`WalkEmits`). -/
theorem walkLoadCount : Obligations.WalkLoadCount := by
  intro s t wp v acc r hm ht hr loads
  obtain ⟨r', hr', hw⟩ := exec_walk_emits hm ht
  obtain rfl : r = r' := Value.walk.inj (hr.unique hr')
  have all : ∀ {es : List Event}, (∀ e ∈ es, isRamRead e = true) → es.filter isRamRead = es := List.filter_eq_self.2
  generalize hes : ownEvents s t = es at hw
  have hloads : loads = (es.filter isRamRead).length := by rw [← hes]
  clear_value loads
  cases hw with
  | @fault _ why reads canon count =>
    rw [all reads] at hloads
    subst hloads
    cases why <;> exact count
  | leaf l reads level count kept =>
    exact ⟨l.level, level, by rw [hloads, all reads, count], l.pte, rfl⟩
  | swap l ok reads level count set =>
    refine ⟨l.level, level, ?_, l.pte, rfl⟩
    rw [hloads, List.filter_append, all reads, ← count]
    simp [isRamRead]

/-- Settles O39: only a walk that swaps has a RamCas among its events (`WalkEmits.swap`), and what a walk stores its events tell of
(`ramChangesAreEvents`). -/
theorem casResultIgnored : Obligations.CasResultIgnored := by
  intro s t wp v acc hm ht h p n pte new success hmem
  obtain ⟨r, hr, hw⟩ := exec_walk_emits hm ht
  have told := ramChangesAreEvents (.walk v acc) s t ht (by simp) (by simp)
  generalize ownEvents s t = es at hw hmem told
  cases hw with
  | fault reads => cases reads _ hmem
  | leaf _ reads => cases reads _ hmem
  | @swap loads l ok reads level count set =>
    rcases List.mem_append.1 hmem with hmem | hmem
    · cases reads _ hmem
    · cases List.mem_singleton.1 hmem
      refine ⟨pteAccessed_eq _ _, set, ⟨l.level, level, hr⟩, ?_, fun hlost o ho => ?_⟩
      · have hnone : loads.filter (fun e => !isRamRead e) = [] := by simpa [List.filter_eq_nil_iff] using reads
        rw [List.filter_append, hnone]
        rfl
      · refine (told o ho).imp_right fun hstored => hstored.resolve_left ?_
        rintro ⟨e, he, hto⟩
        rcases List.mem_append.1 he with he | he
        · exact not_storesTo_of_isRamRead (reads e he) hto
        · rw [List.mem_singleton.1 he] at hto
          simp [storesTo, hlost] at hto

section Canonical

variable {s : State} {wp : WalkParams} {v acc : Word}

/-- The codes with a walk (41_walker.md R140). -/
theorem modeParams_of_mem {m : BitVec 4} (h : m.toNat ∈ [1, 8, 9, 10]) : ∃ wp, modeParams m = .paged wp := by
  have hmode : m ∈ ([1, 8, 9, 10] : List (BitVec 4)) := by
    revert m
    decide
  simp only [List.mem_cons, List.not_mem_nil, or_false] at hmode
  obtain rfl | rfl | rfl | rfl := hmode <;> exact ⟨_, rfl⟩

/-- A WALK of a non-canonical address does nothing but return its fault. -/
theorem exec_walk_noncanonical (hm : modeParams s.ctx.mode = .paged wp) (hc : canonical wp v = false) :
    exec (.walk v acc) s = .next (s.give (.walk (.fault .noncanonical))) := by
  simp only [exec, execWalk, walkCommand, view_ctx, hm, walk, hc, Bool.false_eq_true, if_false]
  rfl

/-- From a legal state a WALK of a canonical address returns something else than that fault, whatever other agents do. -/
theorem exec_walk_canonical (h : Legal s) (hm : modeParams s.ctx.mode = .paged wp) (hc : canonical wp v = true) :
    ∃ r t, exec (.walk v acc) s = .next t ∧ Returns s t (.walk r) ∧ r ≠ .fault .noncanonical := by
  obtain ⟨x, u, hrun⟩ := walkCommand_ends (vaddr := v) (acc := acc) h hm
  have ht : exec (.walk v acc) s = .next (u.give (.walk x)) := congrArg finish hrun
  obtain ⟨r, hr, hw⟩ := exec_walk_emits hm ht
  refine ⟨r, _, ht, hr, fun hwhy => ?_⟩
  subst hwhy
  generalize ownEvents s (u.give (.walk x)) = es at hw
  cases hw with
  | fault _ canon => simp [hc] at canon

end Canonical

/-- Settles O31: the canonical check comes before the first load, and no later fault has its reason (`exec_walk_canonical`). -/
theorem canonicalCheck : Obligations.CanonicalCheck := by
  intro s v acc h
  have paged : ∀ {top}, (s.ctx.mode.toNat, top) ∈ [(8, 38), (9, 47), (10, 56)] → ∃ wp, modeParams s.ctx.mode = .paged wp :=
    fun {top} hmode => modeParams_of_mem (by
      simp only [List.mem_cons, Prod.mk.injEq, List.not_mem_nil, or_false] at hmode ⊢
      omega)
  refine ⟨fun top hmode htop => ?_, ?_⟩
  · obtain ⟨wp, hm⟩ := paged hmode
    exact exec_walk_noncanonical hm (Bool.not_eq_true _ ▸ (canonical_iff hmode hm v).not.2 htop)
  · rintro (⟨top, hmode, htop⟩ | hmode)
    · obtain ⟨wp, hm⟩ := paged hmode
      exact exec_walk_canonical h hm ((canonical_iff hmode hm v).2 htop)
    · have hm : modeParams s.ctx.mode = .paged sv32 := by
        rw [show s.ctx.mode = 1 from BitVec.eq_of_toNat_eq hmode]
        rfl
      exact exec_walk_canonical h hm rfl

/-! #### A walk that nobody disturbs -/

section Undisturbed

variable {s : State} {wp : WalkParams} {vaddr acc : Word}

@[simp] theorem record_nil (s : State) : s.record [] = s := by simp [State.record]
@[simp] theorem record_record (s : State) (es fs : List Event) : (s.record es).record fs = s.record (es ++ fs) := by
  simp [State.record]
@[simp] theorem record_view (s : State) (es : List Event) : (s.record es).view = s.view := rfl
@[simp] theorem record_ram (s : State) (es : List Event) : (s.record es).ram = s.ram := rfl
@[simp] theorem record_cur (s : State) (es : List Event) : (s.record es).cur = s.cur := rfl
@[simp] theorem record_ramByte (s : State) (es : List Event) (o : Nat) : (s.record es).ramByte o = s.ramByte o := rfl
@[simp] theorem record_wordAt (s : State) (es : List Event) (o n : Nat) : (s.record es).wordAt o n = s.wordAt o n := by
  simp only [State.wordAt, bytesAt_eq_map, record_ramByte]

theorem setBytes_record (s : State) (es : List Event) (o : Nat) (bs : List Byte) :
    (s.record es).setBytes o bs = (s.setBytes o bs).record es := by
  induction bs generalizing s o with
  | nil => rfl
  | cons b bs ih => exact ih (s.setRamByte o b) (o + 1)

/-- Recorded events change nothing of the loads to come. -/
theorem leafOf_record (s : State) (es : List Event) (n : Nat) (table : Word) :
    leafOf (s.record es) wp vaddr acc n table = leafOf s wp vaddr acc n table := by
  induction n generalizing table with
  | zero => rfl
  | succ n ih => simp only [leafOf, record_ram, record_cur, record_wordAt, ih]

/-- A PTE load gives the word that stands there, torn or not, and records one RamRead (41_walker.md R146). -/
theorem loadPte_undisturbed {o : Word} {n : Nat} (h : s.ram.holds o.toNat n = true) :
    (loadPte s.view o n).runOn perform s =
      .done (s.wordAt o.toNat n) (s.record [.ramRead s.cur (s.ram.physOf o) n]) := by
  have hload : (if s.view.params.pteLoadAtomic then Atom.prog (.readWord o.toNat n) Reply.toWord
      else readTorn o.toNat n).runOn perform s = .done (s.wordAt o.toNat n) s := by
    split
    · rfl
    · exact readTorn_undisturbed s o.toNat n
  rw [loadPte, if_pos (by simpa only [view_holds] using h), Prog.runOn_bind, hload]
  rfl

/-- What an undisturbed leaf is: the PTE that stands at its address, in RAM whole, and the last one loaded. -/
theorem leafOf_leaf (hm : IsMode wp) (hr : RegionOk s.ram) {n : Nat} {table : Word} (ht : table &&& 0xFFF = 0)
    {es : List Event} {l : Leaf} (h : leafOf s wp vaddr acc n table = (es, .leaf l)) :
    l.pte = s.wordAt l.offset.toNat wp.pteBytes ∧ s.ram.holds l.offset.toNat wp.pteBytes = true ∧
      physToHost s.ram l.ptePhys = some l.offset ∧ (∀ e ∈ es, isRamRead e = true) ∧
      es.getLast? = some (.ramRead s.cur l.ptePhys wp.pteBytes) := by
  induction n generalizing table es with
  | zero => cases h
  | succ n ih =>
    simp only [leafOf] at h
    split at h
    · cases h
    · next o ho =>
      split at h
      · cases h
      · cases h
        exact ⟨rfl, pte_holds (hr (physToHost_some ho).1) ho hm.bounds.1 (pteAddress_aligned hm.bounds.1 ht vaddr n), ho,
          by simp [isRamRead], rfl⟩
      · next table' hs =>
        obtain ⟨rfl, hl⟩ := Prod.mk.inj h
        obtain ⟨hpte, hin, hphys, hreads, hlast⟩ := ih (pteStep_next_aligned hs) (Prod.ext rfl hl)
        refine ⟨hpte, hin, hphys, ?_, ?_⟩
        · simpa [isRamRead] using hreads
        · rw [List.getLast?_cons, hlast]
          rfl

/-- The loads of a walk are those of `leafOf`. -/
theorem findLeaf_undisturbed (hm : IsMode wp) (hr : RegionOk s.ram) {n : Nat} {table : Word} (ht : table &&& 0xFFF = 0) :
    (findLeaf s.view wp vaddr acc n table).runOn perform s =
      .done (leafOf s wp vaddr acc n table).2 (s.record (leafOf s wp vaddr acc n table).1) := by
  induction n generalizing s table with
  | zero => simp [findLeaf, leafOf, Prog.runOn]
  | succ n ih =>
    simp only [findLeaf, leafOf, view_physToHost]
    cases ho : physToHost s.ram (pteAddress wp table vaddr n) with
    | none => simp [Prog.runOn]
    | some o =>
      have hin := pte_holds (hr (physToHost_some ho).1) ho hm.bounds.1 (pteAddress_aligned hm.bounds.1 ht vaddr n)
      simp only [Prog.runOn_bind, loadPte_undisturbed hin, RunOf.done_bind, physOf_physToHost ho]
      cases hs : pteStep wp (s.wordAt o.toNat wp.pteBytes) acc n with
      | fault why => rfl
      | leaf => rfl
      | next table' =>
        have hrest := ih (s := s.record [.ramRead s.cur (pteAddress wp table vaddr n) wp.pteBytes]) hr
          (pteStep_next_aligned hs)
        rw [record_view, leafOf_record, record_record] at hrest
        exact hrest

/-- The A/D update finds the value it loaded, so its swap succeeds (R151). -/
theorem updateAD_undisturbed {l : Leaf} (hpte : l.pte = s.wordAt l.offset.toNat wp.pteBytes)
    (hin : s.ram.holds l.offset.toNat wp.pteBytes = true) :
    (updateAD s.view wp acc l).runOn perform s = .done () (if pteAccessed l.pte acc = l.pte then s
      else (s.setBytes l.offset.toNat (leBytes wp.pteBytes (pteAccessed l.pte acc))).record
        [.ramCas s.cur (s.ram.physOf l.offset) wp.pteBytes l.pte (pteAccessed l.pte acc) true]) := by
  have hcas : casWord l.offset.toNat wp.pteBytes l.pte (pteAccessed l.pte acc) s =
      (true, s.setBytes l.offset.toNat (leBytes wp.pteBytes (pteAccessed l.pte acc))) := by
    have hfound : (leWord (s.bytesAt l.offset.toNat wp.pteBytes) == l.pte) = true := beq_iff_eq.2 hpte.symm
    simp only [casWord, hfound, if_true]
  unfold updateAD
  split
  · rfl
  · rw [casPte, if_pos (by simpa only [view_holds] using hin)]
    simp only [Atom.prog_bind, Prog.op_bind, Prog.runOn, perform, hcas]
    rfl

/-- Undisturbed, in a legal RAM, a walk is `quietWalk` (R155). -/
theorem walk_undisturbed (hm : IsMode wp) (hr : RegionOk s.ram) (ht : s.ctx.root &&& 0xFFF = 0) :
    (walk s.view wp vaddr acc).runOn perform s = .done (quietWalk wp vaddr acc s).1 (quietWalk wp vaddr acc s).2 := by
  unfold walk quietWalk
  split
  · rw [Prog.runOn_bind, view_ctx, findLeaf_undisturbed hm hr ht, RunOf.done_bind]
    cases hleaf : leafOf s wp vaddr acc wp.levels s.ctx.root with
    | mk es r =>
      cases r with
      | fault why => rfl
      | leaf l =>
        obtain ⟨hpte, hin, hphys, -⟩ := leafOf_leaf hm hr ht hleaf
        have hupdate := updateAD_undisturbed (s := s.record es) (wp := wp) (acc := acc) (l := l)
          (by rw [record_wordAt, hpte]) hin
        rw [record_view, setBytes_record, record_record, record_cur, record_ram, physOf_physToHost hphys] at hupdate
        simp only [Prog.runOn_bind, hupdate, RunOf.done_bind, ← pteAccessed_eq]
        rfl
  · rfl

/-- Undisturbed, from a legal state, WALK answers the next state of `quietWalk` (R155). -/
theorem exec_walk_undisturbed (h : Legal s) (hq : Quiet s) (hm : modeParams s.ctx.mode = .paged wp) :
    exec (.walk vaddr acc) s = .next ((quietWalk wp vaddr acc s).2.give (.walk (quietWalk wp vaddr acc s).1)) := by
  have view := viewOk_of_legal h
  have hwalk := walk_undisturbed (vaddr := vaddr) (acc := acc) (modeParams_paged hm) (regionOk_of_legal h.2.1) view.root
  simp only [exec, execWalk, walkCommand, view_ctx, hm]
  rw [run_quiet _ hq, Prog.runOn_bind, hwalk]
  rfl

end Undisturbed

/-- Settles O35: the loads (`findLeaf_undisturbed`), then the update (`updateAD_undisturbed`). -/
theorem walkUndisturbed : Obligations.WalkUndisturbed :=
  fun _ _ _ _ h hq hm _ => exec_walk_undisturbed h hq hm

/-! #### The bytes of a word in RAM -/

section Bytes

variable {s : State}

/-- Byte i of a word. -/
def wordByte (w : Word) (i : Nat) : Byte := (w >>> (8 * i)).setWidth 8

theorem wordByte_getLsbD (w : Word) (i : Nat) {j : Nat} (hj : j < 8) : (wordByte w i).getLsbD j = w.getLsbD (8 * i + j) := by
  simp [wordByte, hj]

theorem wordByte_or (w x : Word) (i : Nat) : wordByte (w ||| x) i = wordByte w i ||| wordByte x i := by
  refine BitVec.eq_of_getLsbD_eq fun j hj => ?_
  simp only [BitVec.getLsbD_or, wordByte_getLsbD _ _ hj]

/-- The bytes of a little-endian image (00_scope.md R11). -/
theorem leBytes_getElem? (n : Nat) (w : Word) {i : Nat} (hi : i < n) : (leBytes n w)[i]? = some (wordByte w i) := by
  induction n generalizing w i with
  | zero => omega
  | succ n ih =>
    cases i with
    | zero => simp [leBytes, wordByte]
    | succ i =>
      rw [leBytes, List.getElem?_cons_succ, ih _ (by omega), wordByte, ← BitVec.shiftRight_add, wordByte,
        show 8 + 8 * i = 8 * (i + 1) by omega]

theorem leNat_lt (bs : List Byte) : leNat bs < 256 ^ bs.length := by
  induction bs with
  | nil => simp [leNat]
  | cons b bs ih =>
    have hb := b.isLt
    rw [leNat, List.length_cons, pow_succ]
    omega

theorem leNat_byte {bs : List Byte} {i : Nat} (hi : i < bs.length) : leNat bs / 256 ^ i % 256 = bs[i].toNat := by
  induction bs generalizing i with
  | nil => simp at hi
  | cons b bs ih =>
    have hb := b.isLt
    cases i with
    | zero => simp only [leNat, List.getElem_cons_zero]; omega
    | succ i =>
      have htail : leNat (b :: bs) / 256 = leNat bs := by rw [leNat]; omega
      rw [pow_succ', ← Nat.div_div_eq_div_mul, htail, ih (by simpa using hi), List.getElem_cons_succ]

/-- The bytes of the word that stands at a place are the RAM bytes there (20_memory.md R50). -/
theorem wordByte_wordAt (s : State) (o : Nat) {n i : Nat} (hn : n ≤ 8) (hi : i < n) :
    wordByte (s.wordAt o n) i = s.ramByte (o + i) := by
  have hlt : leNat (s.bytesAt o n) < 2 ^ 64 := by
    have hle := leNat_lt (s.bytesAt o n)
    rw [bytesAt_length] at hle
    exact lt_of_lt_of_le hle (Nat.pow_le_pow_right (n := 256) (by decide) hn)
  refine BitVec.eq_of_toNat_eq ?_
  rw [wordByte, BitVec.toNat_setWidth, BitVec.toNat_ushiftRight, Nat.shiftRight_eq_div_pow, State.wordAt, leWord,
    BitVec.toNat_ofNat, Nat.mod_eq_of_lt hlt, pow_mul, show 2 ^ 8 = 256 from rfl, leNat_byte (by simpa using hi)]
  simp [bytesAt_eq_map]

/-- The RAM bytes after bytes are written. -/
theorem setBytes_ramByte (s : State) (o : Nat) (bs : List Byte) (j : Nat) :
    (s.setBytes o bs).ramByte j = if o ≤ j then bs[j - o]?.getD (s.ramByte j) else s.ramByte j := by
  induction bs generalizing s o with
  | nil => simp [State.setBytes]
  | cons b bs ih =>
    rw [State.setBytes, ih, setRamByte_ramByte]
    rcases Nat.lt_trichotomy j o with h | rfl | h
    · simp [show ¬ o + 1 ≤ j by omega, show ¬ o ≤ j by omega, h.ne]
    · simp
    · rw [if_pos (show o + 1 ≤ j from h), if_pos h.le, if_neg h.ne', show j - o = j - (o + 1) + 1 by omega,
        List.getElem?_cons_succ]

/-- The RAM bytes after a word is written. -/
theorem setWord_ramByte (s : State) (o n : Nat) (w : Word) (j : Nat) :
    (s.setBytes o (leBytes n w)).ramByte j = if o ≤ j ∧ j < o + n then wordByte w (j - o) else s.ramByte j := by
  rw [setBytes_ramByte]
  by_cases hlo : o ≤ j
  · by_cases hhi : j < o + n
    · rw [if_pos hlo, if_pos ⟨hlo, hhi⟩, leBytes_getElem? n w (by omega), Option.getD_some]
    · rw [if_pos hlo, if_neg (by simp [hhi]), List.getElem?_eq_none (by rw [leBytes_length]; omega), Option.getD_none]
  · rw [if_neg hlo, if_neg (by simp [hlo])]

end Bytes

/-! #### What an undisturbed walk leaves in RAM -/

section Update

variable {s : State} {wp : WalkParams} {vaddr acc : Word}

theorem quietWalk_noncanonical (hc : canonical wp vaddr = false) : quietWalk wp vaddr acc s = (.fault .noncanonical, s) := by
  rw [quietWalk, if_neg (by simp [hc])]

theorem quietWalk_fault (hc : canonical wp vaddr = true) {es : List Event} {why : WalkFault}
    (h : leafOf s wp vaddr acc wp.levels s.ctx.root = (es, .fault why)) :
    quietWalk wp vaddr acc s = (.fault why, s.record es) := by
  rw [quietWalk, if_pos hc, h]

/-- The state after an undisturbed walk of a leaf: its PTE with A set, and D on a WRITE (41_walker.md R151). -/
theorem quietWalk_leaf (hc : canonical wp vaddr = true) {es : List Event} {l : Leaf}
    (h : leafOf s wp vaddr acc wp.levels s.ctx.root = (es, .leaf l)) :
    quietWalk wp vaddr acc s = (.ok (leafPaddr wp l.pte vaddr l.level),
      if pteAccessed l.pte acc = l.pte then s.record es
      else (s.setBytes l.offset.toNat (leBytes wp.pteBytes (pteAccessed l.pte acc))).record
        (es ++ [.ramCas s.cur l.ptePhys wp.pteBytes l.pte (pteAccessed l.pte acc) true])) := by
  rw [quietWalk, if_pos hc, h]
  simp only [← pteAccessed_eq]

/-- The RAM bytes after an undisturbed walk of a leaf: those of its PTE with A set, and D on a WRITE, at its place. -/
theorem quietWalk_ramByte (hc : canonical wp vaddr = true) {es : List Event} {l : Leaf} (hn : wp.pteBytes ≤ 8)
    (h : leafOf s wp vaddr acc wp.levels s.ctx.root = (es, .leaf l)) (hpte : l.pte = s.wordAt l.offset.toNat wp.pteBytes)
    (j : Nat) : (quietWalk wp vaddr acc s).2.ramByte j =
      if l.offset.toNat ≤ j ∧ j < l.offset.toNat + wp.pteBytes then wordByte (pteAccessed l.pte acc) (j - l.offset.toNat)
      else s.ramByte j := by
  rw [quietWalk_leaf hc h]
  split
  · next hkept =>
    rw [record_ramByte, hkept]
    split
    · rw [hpte, wordByte_wordAt s _ hn (by omega), show l.offset.toNat + (j - l.offset.toNat) = j by omega]
    · rfl
  · rw [record_ramByte, setWord_ramByte]

theorem give_wordAt (s : State) (x : Value) (o n : Nat) : (s.give x).wordAt o n = s.wordAt o n := by
  simp only [State.wordAt, bytesAt_eq_map, give_ramByte]

/-- Setting bits clears none. -/
theorem and_wordByte_pteAccessed (pte acc : Word) (i : Nat) :
    wordByte pte i &&& wordByte (pteAccessed pte acc) i = wordByte pte i := by
  refine BitVec.eq_of_getLsbD_eq fun j hj => ?_
  rw [pteAccessed, BitVec.or_assoc, wordByte_or, BitVec.getLsbD_and, BitVec.getLsbD_or]
  cases (wordByte pte i).getLsbD j <;> rfl

/-- An undisturbed walk clears no bit of RAM (R160). -/
theorem quietWalk_clears_no_bit (hm : IsMode wp) (hr : RegionOk s.ram) (ht : s.ctx.root &&& 0xFFF = 0) (j : Nat) :
    s.ramByte j &&& (quietWalk wp vaddr acc s).2.ramByte j = s.ramByte j := by
  have hn : wp.pteBytes ≤ 8 := by rcases hm.bounds.1 with h | h <;> omega
  cases hc : canonical wp vaddr with
  | false => rw [quietWalk_noncanonical hc, BitVec.and_self]
  | true =>
    cases hleaf : leafOf s wp vaddr acc wp.levels s.ctx.root with
    | mk es r =>
      cases r with
      | fault why => rw [quietWalk_fault hc hleaf, record_ramByte, BitVec.and_self]
      | leaf l =>
        obtain ⟨hpte, -⟩ := leafOf_leaf hm hr ht hleaf
        rw [quietWalk_ramByte hc hn hleaf hpte]
        split
        · next hj =>
          have hbyte := wordByte_wordAt s l.offset.toNat hn (i := j - l.offset.toNat) (by omega)
          rw [← hpte, show l.offset.toNat + (j - l.offset.toNat) = j by omega] at hbyte
          rw [← hbyte, and_wordByte_pteAccessed]
        · exact BitVec.and_self

/-- The A/D update sets A, and D on a WRITE (R151). -/
theorem pteAccessed_sets (pte acc : Word) : (pteAccessed pte acc).getLsbD 6 = true ∧
    (acc.getLsbD 2 = true → (pteAccessed pte acc).getLsbD 7 = true) := by
  rw [pteAccessed_eq]
  refine ⟨?_, fun hw => ?_⟩
  · simp
  · simp [hw]

/-- Writing bytes changes nothing but bytes. -/
theorem setBytes_outputs (s : State) (o : Nat) (bs : List Byte) :
    (s.setBytes o bs).history = s.history ∧ (s.setBytes o bs).returned = s.returned ∧ (s.setBytes o bs).cur = s.cur := by
  rw [(setBytes_stored o bs s).same]
  exact ⟨rfl, rfl, rfl⟩

/-- An undisturbed walk returns no value by itself. -/
theorem quietWalk_returned (wp : WalkParams) (vaddr acc : Word) (s : State) :
    (quietWalk wp vaddr acc s).2.returned = s.returned ∧ (quietWalk wp vaddr acc s).2.cur = s.cur := by
  cases hc : canonical wp vaddr with
  | false => rw [quietWalk_noncanonical hc]; exact ⟨rfl, rfl⟩
  | true =>
    cases hleaf : leafOf s wp vaddr acc wp.levels s.ctx.root with
    | mk es r =>
      cases r with
      | fault why => rw [quietWalk_fault hc hleaf]; exact ⟨rfl, rfl⟩
      | leaf l =>
        rw [quietWalk_leaf hc hleaf]
        split
        · exact ⟨rfl, rfl⟩
        · exact (setBytes_outputs s l.offset.toNat (leBytes wp.pteBytes (pteAccessed l.pte acc))).2

/-- The loads of an undisturbed walk of a leaf are its RamRead events. -/
theorem quietWalk_reads (hc : canonical wp vaddr = true) {es : List Event} {l : Leaf}
    (h : leafOf s wp vaddr acc wp.levels s.ctx.root = (es, .leaf l)) (hes : ∀ e ∈ es, isRamRead e = true) :
    (newEvents s (quietWalk wp vaddr acc s).2).filter isRamRead = es := by
  rw [quietWalk_leaf hc h]
  split
  · rw [newEvents_of_append rfl, List.filter_eq_self.2 hes]
  · obtain ⟨hhistory, -⟩ := setBytes_outputs s l.offset.toNat (leBytes wp.pteBytes (pteAccessed l.pte acc))
    rw [newEvents_of_append (congrArg (· ++ _) hhistory), List.filter_append, List.filter_eq_self.2 hes]
    exact List.append_nil es

/-- An undisturbed walk that succeeds: the PTE it loaded last has A set, and D on a WRITE (R151). -/
theorem quietWalk_sets (hm : IsMode wp) (hr : RegionOk s.ram) (ht : s.ctx.root &&& 0xFFF = 0) {paddr : Word}
    (hok : (quietWalk wp vaddr acc s).1 = .ok paddr) :
    ∃ p o, ((newEvents s (quietWalk wp vaddr acc s).2).filter isRamRead).getLast? = some (.ramRead s.cur p wp.pteBytes) ∧
      physToHost s.ram p = some o ∧ ((quietWalk wp vaddr acc s).2.wordAt o.toNat wp.pteBytes).getLsbD 6 = true ∧
      (acc.getLsbD 2 = true → ((quietWalk wp vaddr acc s).2.wordAt o.toNat wp.pteBytes).getLsbD 7 = true) := by
  have hn : 0 < wp.pteBytes ∧ wp.pteBytes ≤ 8 := by rcases hm.bounds.1 with h | h <;> omega
  cases hc : canonical wp vaddr with
  | false => rw [quietWalk_noncanonical hc] at hok; cases hok
  | true =>
    cases hleaf : leafOf s wp vaddr acc wp.levels s.ctx.root with
    | mk es r =>
      cases r with
      | fault why => rw [quietWalk_fault hc hleaf] at hok; cases hok
      | leaf l =>
        obtain ⟨hpte, -, hphys, hreads, hlast⟩ := leafOf_leaf hm hr ht hleaf
        refine ⟨l.ptePhys, l.offset, by rw [quietWalk_reads hc hleaf hreads, hlast], hphys, ?_⟩
        -- the first byte of the PTE, which holds A and D, is that of the new value
        have hfirst := wordByte_wordAt (quietWalk wp vaddr acc s).2 l.offset.toNat hn.2 hn.1
        rw [quietWalk_ramByte hc hn.2 hleaf hpte, if_pos (by omega), Nat.add_sub_cancel_left] at hfirst
        have hbit : ∀ j < 8, ((quietWalk wp vaddr acc s).2.wordAt l.offset.toNat wp.pteBytes).getLsbD j =
            (pteAccessed l.pte acc).getLsbD j := fun j hj => by
          simpa only [wordByte_getLsbD _ 0 hj, Nat.mul_zero, Nat.zero_add] using congrArg (BitVec.getLsbD · j) hfirst
        rw [hbit 6 (by decide), hbit 7 (by decide)]
        exact pteAccessed_sets l.pte acc

end Update

/-- Settles O40: an undisturbed WALK is `quietWalk`, whose update is the value it loaded with bits set. -/
theorem walkSetsAccessedDirty : Obligations.WalkSetsAccessedDirty := by
  intro s t wp v acc h hq hm ht
  have hmode := modeParams_paged hm
  have hregion := regionOk_of_legal h.2.1
  have hroot := (viewOk_of_legal h).root
  rw [exec_walk_undisturbed h hq hm] at ht
  cases ht
  refine ⟨quietWalk_clears_no_bit hmode hregion hroot, fun paddr hret => ?_⟩
  obtain ⟨hreturned, hcur⟩ := quietWalk_returned wp v acc s
  have hok : (quietWalk wp v acc s).1 = .ok paddr := by
    rw [give_returned, hreturned, hcur] at hret
    simpa using hret
  obtain ⟨p, o, hlast, hphys, hA, hD⟩ := quietWalk_sets hmode hregion hroot hok
  refine ⟨p, o, hlast, hphys, ?_⟩
  rw [give_wordAt]
  exact ⟨hA, hD⟩

/-! #### An access that misses, undisturbed -/

section Miss

variable {s : State} {op : Op} {vaddr : Word} {n : Nat} {buf : List Byte}

/-- Undisturbed, in a legal RAM, the translation of a miss is `quietTranslate` (42_dispatcher.md R186). -/
theorem translate_undisturbed (hr : RegionOk s.ram) (ht : s.ctx.root &&& 0xFFF = 0) :
    (translate s.view op vaddr).runOn perform s = .done (quietTranslate op vaddr s).1 (quietTranslate op vaddr s).2 := by
  rw [translate, quietTranslate, view_ctx, view_params]
  by_cases hpriv : effPriv s.ctx op = .machine
  · rw [if_pos hpriv, if_pos hpriv]
    rfl
  · rw [if_neg hpriv, if_neg hpriv]
    cases hm : modeParams s.ctx.mode with
    | bare => rfl
    | unknown => rfl
    | paged wp =>
      simp only [Prog.runOn_bind, walk_undisturbed (modeParams_paged hm) hr ht, RunOf.done_bind]
      cases quietWalk wp vaddr (accessMask s.params.mxrRule s.ctx op) s with
      | mk r t => cases r <;> rfl

/-- What a single-page access does after its translation (R187 to R190). -/
def afterTranslation (v : View) (op : Op) (vaddr : Word) (n : Nat) (buf : List Byte) :
    Translation → Prog (Option (List Byte))
  | .phys paddr => accessPhys v op vaddr paddr n buf
  | .trap c => trapOut v c op vaddr

/-- Undisturbed, a single-page access that misses translates and goes on from there. -/
theorem exec_access_miss (h : Legal s) (hq : Quiet s) (hone : OnePage op vaddr n buf s)
    (hmiss : tlbHit s op (vpnOf vaddr) = false) :
    exec (accessInstr op vaddr n buf) s =
      finish (((afterTranslation s.view op vaddr n buf (quietTranslate op vaddr s).1).runOn perform
        (quietTranslate op vaddr s).2).bind fun r t => .done (response r) t) := by
  obtain ⟨hwidth, hpage, hpriv, hbuf⟩ := hone
  have hok : vaddrOk s.view.params vaddr = true := decide_eq_true hwidth
  have hcross : ¬ crosses vaddr n = true := by
    simp only [crosses, decide_eq_true_eq, pageOffset_eq, pageSize]
    omega
  have htranslate := translate_undisturbed (op := op) (vaddr := vaddr) (regionOk_of_legal h.2.1) (viewOk_of_legal h).root
  have haccess : (access1 s.view op vaddr n buf).runOn perform s =
      ((translate s.view op vaddr).runOn perform s).bind fun t u =>
        (afterTranslation s.view op vaddr n buf t).runOn perform u := by
    rw [access1, if_neg (by simpa only [view_ctx] using hpriv), ← Prog.runOn_bind]
    simp only [Atom.prog_bind, Prog.runOn, perform, Reply.toLookup, hmiss, Bool.false_eq_true, if_false]
    refine congrArg (fun f => ((translate s.view op vaddr).bind f).runOn perform s) (funext fun t => ?_)
    cases t <;> rfl
  rw [exec_accessInstr hbuf, run_quiet _ hq, accessCommand, if_pos hok, access,
    if_neg hcross, Prog.runOn_bind, haccess, htranslate]
  rfl

/-- The class of a walk fault's trap (R190, 41_walker.md R145). -/
theorem walkTrap_eq (p : Params) (why : WalkFault) :
    walkTrap p why = if why = .pteNotRam ∧ p.walkNonRam = .access then .access else .page := by
  simp only [walkTrap, Bool.and_eq_true, decide_eq_true_eq, beq_iff_eq]

end Miss

/-- Settles O47: the translation of the miss is the trap of the walk's fault (`exec_access_miss`). -/
theorem accessWalkFault : Obligations.AccessWalkFault := by
  intro s op v n buf wp why h hq hone hmiss hpriv hm hwhy
  have htranslate : quietTranslate op v s = (.trap (walkTrap s.params why),
      (quietWalk wp v (accessMask s.params.mxrRule s.ctx op) s).2) := by
    rw [quietTranslate, if_neg hpriv, hm]
    cases hw : quietWalk wp v (accessMask s.params.mxrRule s.ctx op) s with
    | mk r t =>
      rw [hw] at hwhy
      cases hwhy
      simp only [hw]
  rw [exec_access_miss h hq hone hmiss, htranslate, walkTrap_eq]
  split
  · cases op <;> rfl
  · cases op <;> rfl

/-! #### Two states that differ in one hart's context -/

section SameBut

variable {s t : State} {k : Nat}

/-- `t` is `s` but for the context of hart k. -/
structure SameBut (k : Nat) (s t : State) : Prop where
  same  : t = { s with harts := t.harts }
  tlb   : ∀ h, (t.hart h).tlb = (s.hart h).tlb
  other : ∀ h, h ≠ k → t.hart h = s.hart h

/-- An operation that neither sees nor changes the harts. -/
theorem SameBut.through (a : SameBut k s t) (g : State → State)
    (hg : ∀ u hs, g { u with harts := hs } = { g u with harts := hs }) (hs : (g s).harts = s.harts)
    (hp : (g s).params = s.params) : SameBut k (g s) (g t) := by
  have hgt : g t = { g s with harts := t.harts } := by
    conv_lhs => rw [a.same, hg]
  have ehart : (g t).hart = t.hart := hart_congr (by rw [hgt, a.same]; exact hp) (by rw [hgt])
  have fhart : (g s).hart = s.hart := hart_congr hp hs
  exact ⟨by rw [hgt], by rw [ehart, fhart]; exact a.tlb, by rw [ehart, fhart]; exact a.other⟩

theorem SameBut.give (a : SameBut k s t) (v : Value) : SameBut k (s.give v) (t.give v) :=
  a.through (State.give · v) (fun _ _ => rfl) rfl rfl

/-- A write of a hart, to the same TLB, and to the same context if it is not hart k. -/
theorem SameBut.setHart (a : SameBut k s t) {j : Nat} {v w : Hart} (htlb : w.tlb = v.tlb) (hother : j ≠ k → w = v) :
    SameBut k (s.setHart j v) (t.setHart j w) where
  same := by rw [a.same]; rfl
  tlb h := by
    rw [setHart_hart, setHart_hart]
    split
    · exact htlb
    · exact a.tlb h
  other h hh := by
    rw [setHart_hart, setHart_hart]
    split
    · next e => exact hother (e ▸ hh)
    · exact a.other h hh

theorem SameBut.cur (a : SameBut k s t) : t.cur = s.cur := by rw [a.same]

theorem SameBut.params (a : SameBut k s t) : t.params = s.params := by rw [a.same]

theorem SameBut.slotFor (a : SameBut k s t) (vpn : Word) : t.slotFor vpn = s.slotFor vpn := by
  simp only [State.slotFor, State.slot, a.params, a.cur, a.tlb]

/-- A write of the running hart's slot. -/
theorem SameBut.setSlot (a : SameBut k s t) (i : Nat) (e : Slot) : SameBut k (s.setSlot i e) (t.setSlot i e) := by
  simp only [State.setSlot, a.cur, a.params, a.tlb]
  exact a.setHart rfl fun hj => by rw [a.other _ hj]

/-- Another hart than k sees the same machine. -/
theorem SameBut.view (a : SameBut k s t) (hk : s.cur ≠ k) : t.view = s.view := by
  rw [State.view, State.view, State.ctx, State.ctx, a.cur, a.other _ hk, a.same]

theorem setBytes_with_harts (s : State) (o : Nat) (bs : List Byte) (hs : List (Nat × Hart)) :
    State.setBytes { s with harts := hs } o bs = { s.setBytes o bs with harts := hs } := by
  induction bs generalizing s o with
  | nil => rfl
  | cons b bs ih => exact ih (s.setRamByte o b) (o + 1)

/-- No access sees a context: the two states answer it alike, and stay so. -/
theorem perform_sameBut (a : SameBut k s t) (x : Atom) :
    (perform x t).1 = (perform x s).1 ∧ SameBut k (perform x s).2 (perform x t).2 := by
  have bytes : ∀ o n, t.bytesAt o n = s.bytesAt o n := fun o n => by
    rw [a.same]
    simp only [bytesAt_eq_map]
    rfl
  cases x with
  | lookup op vpn => exact ⟨by simp only [perform, tlbHit, a.slotFor], a⟩
  | fill op vpn bias =>
    refine ⟨rfl, ?_⟩
    simp only [perform, tlbFill, a.slotFor, a.params]
    exact a.setSlot _ _
  | emit e => exact ⟨rfl, a.through (State.emit · e) (fun _ _ => rfl) rfl rfl⟩
  | readByte o => exact ⟨by rw [a.same]; rfl, a⟩
  | writeByte o b => exact ⟨rfl, a.through (State.setRamByte · o b) (fun _ _ => rfl) rfl rfl⟩
  | readWord o n => exact ⟨by simp only [perform, bytes], a⟩
  | pteOrder => exact ⟨by rw [a.same]; rfl, a⟩
  | cas o n expected desired =>
    simp only [perform, casWord, bytes, true_and]
    split
    · have hsame := (setBytes_stored o (leBytes n desired) s).same
      exact a.through (State.setBytes · o (leBytes n desired)) (fun u hs => setBytes_with_harts u o _ hs)
        (by rw [hsame]) (by rw [hsame])
    · exact a
  | device call =>
    have hsame := (deviceDraw_same call s).1
    have hdraw : ∀ u hs, deviceDraw call { u with harts := hs } =
        ((deviceDraw call u).1, { (deviceDraw call u).2 with harts := hs }) := by
      intro u hs
      unfold deviceDraw
      cases u.env.devAnswers <;> rfl
    refine ⟨congrArg Reply.answer ?_, a.through (fun u => (deviceDraw call u).2) (fun u hs => by rw [hdraw])
      (congrArg State.harts hsame :) (congrArg State.params hsame :)⟩
    rw [a.same, hdraw]

/-! ##### The moves of other harts -/

theorem settle_sameBut {α : Type} (a : SameBut k s t) (p : Prog α) :
    (p.settle t).prog = (p.settle s).prog ∧ (p.settle t).seen = (p.settle s).seen ∧
      SameBut k (p.settle s).state (p.settle t).state := by
  induction p generalizing s t with
  | op x f ih =>
    by_cases hshared : x.shared = true
    · simp only [Prog.settle, hshared, if_true]
      exact ⟨trivial, trivial, a⟩
    · obtain ⟨hreply, b⟩ := perform_sameBut a x
      obtain ⟨hprog, hseen, c⟩ := ih (perform x s).1 b
      simp only [Prog.settle, hshared, Bool.false_eq_true, if_false, hreply]
      exact ⟨hprog, by rw [hseen], c⟩
  | _ => exact ⟨rfl, rfl, a⟩

/-- Another hart than k goes on with its command alike. -/
theorem advance_sameBut (a : SameBut k s t) (hk : s.cur ≠ k) (c : Running) :
    Option.Rel (SameBut k) (advance c s) (advance c t) := by
  obtain ⟨hprog, hseen, b⟩ := settle_sameBut a (c.program s.view)
  have ended : ∀ {u w : State}, SameBut k u w → ∀ v,
      SameBut k ((u.dropRunning c.hart).give v) ((w.dropRunning c.hart).give v) :=
    fun b v => (b.through (State.dropRunning · c.hart) (fun _ _ => rfl) rfl rfl).give v
  unfold advance
  simp only [a.view hk, hprog, hseen]
  split
  · next x f _ =>
    obtain ⟨hreply, d⟩ := perform_sameBut b x
    obtain ⟨hprog', hseen', e⟩ := settle_sameBut d (f (perform x ((c.program s.view).settle s).state).1)
    simp only [hreply, hprog', hseen']
    split
    · exact .some (ended e _)
    all_goals exact .some (e.through (State.putRunning · _) (fun _ _ => rfl) rfl rfl)
  · exact .some (ended b _)
  · exact .none
  · exact .none

theorem beginCommand_sameBut (a : SameBut k s t) (hk : s.cur ≠ k) (i : Instr) :
    Option.Rel (SameBut k) (beginCommand i s) (beginCommand i t) := by
  have access : Option.Rel (SameBut k) ((accessOf s.cur i).bind fun c => advance c s)
      ((accessOf t.cur i).bind fun c => advance c t) := by
    rw [a.cur]
    cases accessOf s.cur i with
    | none => exact .none
    | some c => exact advance_sameBut a hk c
  have flushed : ∀ {u w : State}, SameBut k u w → SameBut k (tlbFlush u) (tlbFlush w) := fun {u w} b => by
    simp only [tlbFlush, b.cur]
    exact b.setHart rfl fun hj => by rw [b.other _ hj]
  cases i with
  | accessR | accessW | accessX => exact access
  | tlbFlush => exact .some ((flushed a).give _)
  | tlbFlushPage v =>
    refine .some (SameBut.give ?_ _)
    simp only [tlbFlushPage, a.slotFor, a.params]
    exact a.setSlot _ _
  | ctxSet root w satpw =>
    have hctx : t.ctx = s.ctx := by rw [State.ctx, State.ctx, a.cur, a.other _ hk]
    have hset : SameBut k (s.setCtx (ctxOfWord root w)) (t.setCtx (ctxOfWord root w)) := by
      simp only [State.setCtx, a.cur, a.other _ hk]
      exact a.setHart rfl fun _ => rfl
    simp only [beginCommand, execCtxSet, hctx]
    split
    · exact .none
    · split
      · exact .none
      · refine .some (SameBut.give ?_ _)
        split
        · exact flushed hset
        · exact hset
  | _ => exact .none

theorem goOn_sameBut (a : SameBut k s t) (hk : s.cur ≠ k) : Option.Rel (SameBut k) (goOn s) (goOn t) := by
  have hrunning : t.runningOf t.cur = s.runningOf s.cur := by rw [a.same]; rfl
  have hqueue : takeFirst t.cur t.pending = takeFirst s.cur s.pending := by rw [a.same]
  have hdecode : decode t.params.maxAccess = decode s.params.maxAccess := by rw [a.params]
  simp only [goOn, hrunning, hqueue, hdecode]
  cases s.runningOf s.cur with
  | some c => exact advance_sameBut a hk c
  | none =>
    cases takeFirst s.cur s.pending with
    | none => exact .none
    | some q =>
      simp only [Option.bind_some]
      split
      · have b := a.through (fun u => { u with pending := q.2 }) (fun _ _ => rfl) rfl rfl
        exact beginCommand_sameBut b hk _
      · exact .none

/-- A move of another hart than the running one, which is k. -/
theorem moveHart_sameBut (a : SameBut s.cur s t) (h : Nat) : SameBut s.cur (s.moveHart h) (t.moveHart h) := by
  unfold State.moveHart
  rw [a.params, a.cur]
  split
  · next hh =>
    have b : SameBut s.cur (s.as h) (t.as h) := a.through (State.as · h) (fun _ _ => rfl) rfl rfl
    have hgo := goOn_sameBut b hh.2
    generalize goOn (s.as h) = x, goOn (t.as h) = y at hgo
    cases hgo with
    | some c => exact c.through (State.as · s.cur) (fun _ _ => rfl) rfl rfl
    | none => exact a
  · exact a

theorem act_sameBut (a : SameBut s.cur s t) (x : Action) : SameBut s.cur (s.act x) (t.act x) := by
  cases x with
  | write o b =>
    have hram : t.ram = s.ram := by rw [a.same]
    simp only [State.act, State.foreignWrite, hram]
    split
    · exact a.through (State.setRamByte · o b) (fun _ _ => rfl) rfl rfl
    · exact a
  | move h => exact moveHart_sameBut a h

theorem interfere_sameBut (a : SameBut s.cur s t) : SameBut s.cur s.interfere t.interfere := by
  have batches : ∀ (batch : List Action) {u w : State}, SameBut u.cur u w →
      SameBut u.cur (batch.foldl State.act u) (batch.foldl State.act w) := by
    intro batch
    induction batch with
    | nil => exact fun b => b
    | cons x batch ih =>
      intro u w b
      have hcur : (u.act x).cur = u.cur := (act_among x u).1.cur
      have hrest := ih (hcur ▸ act_sameBut b x)
      rwa [hcur] at hrest
  have henv : t.env = s.env := by rw [a.same]
  unfold State.interfere
  rw [henv]
  split
  · exact a
  · next batch rest _ =>
    have b := a.through (fun u => { u with env := { u.env with others := rest } }) (fun _ _ => rfl) rfl rfl
    simp only [henv] at b
    exact batches batch (u := { s with env := { s.env with others := rest } }) b

/-! ##### Whole commands -/

/-- Two runs end alike, in states that differ in hart k's context alone. -/
def SameRun {α : Type} (k : Nat) : Run α → Run α → Prop
  | .done a u, .done b w => a = b ∧ SameBut k u w
  | .fault e, .fault f => e = f
  | .refused e, .refused f => e = f
  | _, _ => False

/-- One program ends alike on two states that differ in the running hart's context, whatever other agents do. -/
theorem run_sameBut {α : Type} (p : Prog α) (a : SameBut s.cur s t) : SameRun s.cur (p.run s) (p.run t) := by
  induction p generalizing s t with
  | op x f ih =>
    have b : SameBut s.cur (if x.shared then s.interfere else s) (if x.shared then t.interfere else t) := by
      split
      · exact interfere_sameBut a
      · exact a
    obtain ⟨hreply, c⟩ := perform_sameBut b x
    have hcur : (performAmong x s).2.cur = s.cur := (performAmong_among x s).1.cur
    have hrest := ih (performAmong x s).1 (s := (performAmong x s).2) (t := (performAmong x t).2) (hcur.symm ▸ c)
    rw [hcur] at hrest
    rw [run_op, run_op, show (performAmong x t).1 = (performAmong x s).1 from hreply]
    exact hrest
  | done v => exact ⟨rfl, a⟩
  | fault e => exact rfl
  | refused e => exact rfl

theorem finish_sameRun {x y : Run Value} (h : SameRun k x y) : SameOutcomeButCtx (finish x) (finish y) := by
  cases x with
  | done v u =>
    cases y with
    | done v' w =>
      obtain ⟨rfl, b⟩ := h
      exact ⟨(b.give v).same, (b.give v).tlb⟩
    | _ => exact h.elim
  | _ => cases y <;> exact h

end SameBut

/-! #### Contexts that an access does not tell apart -/

section CtxAlike

variable {v : View} {c d : Ctx} {op : Op} {vaddr : Word} {n : Nat} {buf : List Byte}

/-- What an access of a kind sees of a context (42_dispatcher.md R182 to R186). -/
structure CtxAlike (op : Op) (c d : Ctx) : Prop where
  mode     : d.mode = c.mode
  root     : d.root = c.root
  machine  : effPriv d op = .machine ↔ effPriv c op = .machine
  reserved : effPriv d op = .reserved ↔ effPriv c op = .reserved
  mask     : ∀ rule, accessMask rule d op = accessMask rule c op

/-- The loads of a walk see no context. -/
theorem findLeaf_ctx (wp : WalkParams) (acc : Word) (i : Nat) (table : Word) :
    findLeaf { v with ctx := d } wp vaddr acc i table = findLeaf v wp vaddr acc i table := by
  induction i generalizing table with
  | zero => rfl
  | succ i ih =>
    simp only [findLeaf, ih]
    rfl

/-- The adapter sees no context. -/
theorem mmio_ctx (k : Nat) (dev : Device) (depth : Nat) (dir : Dir) (off : Word) (n : Nat) (buf : List Byte) :
    mmio { v with ctx := d } k dev depth dir off n buf = mmio v k dev depth dir off n buf := by
  induction depth generalizing dir off n buf with
  | zero => rfl
  | succ depth ih =>
    simp only [mmio, ih]
    rfl

theorem translate_ctx (h : CtxAlike op v.ctx d) : translate { v with ctx := d } op vaddr = translate v op vaddr := by
  simp only [translate, h.machine, h.mode, h.mask, walk, h.root, findLeaf_ctx]
  rfl

theorem accessPhys_ctx (paddr : Word) :
    accessPhys { v with ctx := d } op vaddr paddr n buf = accessPhys v op vaddr paddr n buf := by
  simp only [accessPhys, mmioHit, mmio_ctx]
  rfl

/-- Where two contexts are alike for a kind of access, the access is one program. -/
theorem access1_ctx (h : CtxAlike op v.ctx d) : access1 { v with ctx := d } op vaddr n buf = access1 v op vaddr n buf := by
  simp only [access1, h.reserved, translate_ctx h, accessPhys_ctx]
  rfl

theorem accessCommand_ctx (h : CtxAlike op v.ctx d) :
    accessCommand { v with ctx := d } op vaddr n buf = accessCommand v op vaddr n buf := by
  simp only [accessCommand, access, access1_ctx h]

/-- An access answers alike on two states that differ in a context which it does not tell apart, whatever other agents do. -/
theorem exec_access_ctx {s : State} (h : CtxAlike op s.ctx d) (vaddr : Word) (n : Nat) (buf : List Byte) :
    SameOutcomeButCtx (exec (accessInstr op vaddr n buf) s) (exec (accessInstr op vaddr n buf) (s.setCtx d)) := by
  have hset : SameBut s.cur s (s.setCtx d) := by
    have hself : SameBut s.cur s s := ⟨rfl, fun _ => rfl, fun _ _ => rfl⟩
    refine ⟨rfl, fun k => ?_, fun k hk => setHart_hart_other s hk _⟩
    rw [setCtx_hart]
    split
    · next hk => rw [hk]
    · rfl
  have hview : (s.setCtx d).view = { s.view with ctx := d } := by simp [State.view]
  have command : ∀ m bs, SameOutcomeButCtx (finish ((accessCommand s.view op vaddr m bs).run s))
      (finish ((accessCommand (s.setCtx d).view op vaddr m bs).run (s.setCtx d))) := fun m bs => by
    rw [hview, accessCommand_ctx (v := s.view) h]
    exact finish_sameRun (run_sameBut _ hset)
  cases op <;> exact command _ _

end CtxAlike

/-- Contexts that are equal but for User against Supervisor have effective privileges that are equal but for these (60_exceptions.md
R315). -/
theorem effPriv_alike {c d : Ctx} (op : Op) (hmprv : d.mprv = c.mprv)
    (hpriv : d.priv = c.priv ∨ d.priv ∈ [.user, .supervisor] ∧ c.priv ∈ [.user, .supervisor])
    (hmpp : d.mpp = c.mpp ∨ d.mpp ∈ [.user, .supervisor] ∧ c.mpp ∈ [.user, .supervisor]) :
    effPriv d op = effPriv c op ∨ effPriv d op ∈ [.user, .supervisor] ∧ effPriv c op ∈ [.user, .supervisor] := by
  rw [effPriv, effPriv, hmprv]
  split
  · exact hmpp
  · exact hpriv

/-- Settles O54: User and Supervisor are contexts that an access does not tell apart (`exec_access_ctx`). -/
theorem userSupervisorAlike : Obligations.UserSupervisorAlike := by
  intro s c op v n buf hmode hroot hmprv hmxr hpriv hmpp
  have heff := effPriv_alike op hmprv hpriv hmpp
  have notOf : ∀ {p : Priv}, p ∈ [.user, .supervisor] → p ≠ .machine ∧ p ≠ .reserved := by decide
  refine exec_access_ctx ⟨hmode, hroot, ?_, ?_, fun rule => by simp only [accessMask, hmxr]⟩ v n buf
  · rcases heff with heff | ⟨hc, hs⟩
    · rw [heff]
    · exact iff_of_false (notOf hc).1 (notOf hs).1
  · rcases heff with heff | ⟨hc, hs⟩
    · rw [heff]
    · exact iff_of_false (notOf hc).2 (notOf hs).2

end Sys2Proof.Machine

/-! ### Dispatcher (42_dispatcher.md): CTX.SET, and ACCESS as one or two single-page accesses

`access1` is the single-page access of R193. Undisturbed, it is reduced to its lookup (`exec_access_hit`, `exec_access_miss`), its
translation and its copy, each with one lemma that says what it does. A crossing access is compared with its parts through the runs
of `access1` (`exec_access_eq_next_iff`), so that other agents may act inside it; its trap is read off its accesses
(`access_trace`). -/

namespace Sys2Proof.Machine

open Sys2Proof.Config

/-! #### CTX.SET (R196) -/

section CtxWrite

variable (s : State) (c : Ctx) (satpw : Bool)

/-- The state in which CTX.SET returns: the context written, the TLB flushed on SATPW or a change. -/
def ctxWritten : State := if satpw = true ∨ s.ctx ≠ c then Machine.tlbFlush (s.setCtx c) else s.setCtx c

theorem ctxWritten_same : ctxWritten s c satpw = { s with harts := (ctxWritten s c satpw).harts } := by
  unfold ctxWritten
  split <;> rfl

theorem ctxWritten_hart_other {h : Nat} (hh : h ≠ s.cur) : (ctxWritten s c satpw).hart h = s.hart h := by
  unfold ctxWritten
  split
  · rw [tlbFlush_hart, setCtx_cur, if_neg hh, setCtx_hart, if_neg hh]
  · rw [setCtx_hart, if_neg hh]

@[simp] theorem ctxWritten_ctx : ((ctxWritten s c satpw).hart s.cur).ctx = c := by
  unfold ctxWritten
  split
  · rw [tlbFlush_hart_ctx, setCtx_hart, if_pos rfl]
  · rw [setCtx_hart, if_pos rfl]

theorem ctxWritten_slot (i : Nat) : (ctxWritten s c satpw).slot s.cur i =
    if satpw = true ∨ c ≠ s.ctx then flushedSlot s.params i else s.slot s.cur i := by
  simp only [ctxWritten, ne_comm (a := c)]
  split
  · rw [tlbFlush_slot, setCtx_cur, if_pos rfl, setCtx_params]
  · rw [setCtx_slot]

/-- A root is page-aligned when its low twelve bits are clear (10_state.md R23). -/
theorem and_fff_eq_zero_iff (a : Word) : a &&& 0xFFF = 0 ↔ a.extractLsb' 0 12 = 0 := by
  rw [aligned_iff, BitVec.toNat_eq, BitVec.extractLsb'_toNat]
  rfl

end CtxWrite

/-- Settles O28: the two refusals in their order, then the state that CTX.SET leaves (`ctxWritten`). -/
theorem ctxSetResult : Obligations.CtxSetResult := by
  intro s a b satpw
  refine ⟨fun ha => ?_, fun ha hb => ?_, fun ha hlow hhigh => ?_⟩
  · rw [exec, execCtxSet, if_pos (mt (and_fff_eq_zero_iff a).1 ha)]
  · have hreserved : b &&& ctxReservedMask ≠ 0 := fun h =>
      have ⟨hlow, hhigh⟩ := (and_ctxReservedMask_eq_zero_iff b).1 h
      hb.elim (· hlow) (· hhigh)
    rw [exec, execCtxSet, if_neg (not_not.2 ((and_fff_eq_zero_iff a).2 ha)), if_pos hreserved]
  · refine ⟨(ctxWritten s (ctxOfWord a b) satpw).give (.command true []), exec_ctxSet s ((and_fff_eq_zero_iff a).2 ha)
      ((and_ctxReservedMask_eq_zero_iff b).2 ⟨hlow, hhigh⟩) satpw, ⟨?_, fun h => ctxWritten_hart_other s _ _⟩, ?_⟩
    · exact congrArg (State.give · _) (ctxWritten_same s (ctxOfWord a b) satpw)
    · simp only [give_hart, give_slot, ctxWritten_ctx]
      exact ⟨privBits_privOfBits _, privBits_privOfBits _, rfl, rfl, rfl, rfl, ctxWritten_slot s _ satpw⟩

/-! #### The refusals of ACCESS and the access mask -/

section Refusals

variable {v : View} {op : Op} {vaddr : Word}

/-- An ACCESS command runs its program with some size and buffer, whatever it is given. -/
theorem exec_accessInstr_runs (op : Op) (vaddr : Word) (n : Nat) (buf : List Byte) : ∃ m bs, ∀ s,
    exec (accessInstr op vaddr n buf) s = finish ((accessCommand s.view op vaddr m bs).run s) := by
  cases op <;> exact ⟨_, _, fun _ => rfl⟩

/-- The first part of an access is refused under the reserved effective privilege, so the access is (R183). -/
theorem access_reserved (h : effPriv v.ctx op = .reserved) (n : Nat) (buf : List Byte) :
    access v op vaddr n buf = .refused .reservedPrivilege := by
  simp only [access, access1, if_pos h, Prog.refused_bind, ite_self]

theorem vaddrOk_iff (p : Params) (vaddr : Word) : vaddrOk p vaddr = true ↔ vaddr.toNat < 2 ^ xlenBits p.xlen :=
  decide_eq_true_iff

theorem effPriv_eq (c : Ctx) (op : Op) : effPriv c op = if c.mprv = true ∧ op ≠ .X then c.mpp else c.priv := by
  simp only [effPriv, Bool.and_eq_true, bne_iff_ne]

end Refusals

/-- Settles O41: the check of the address comes before the access, the check of the privilege before its first lookup. -/
theorem accessRefusals : Obligations.AccessRefusals := by
  intro s op v n buf
  obtain ⟨m, bs, hexec⟩ := exec_accessInstr_runs op v n buf
  rw [hexec, ← effPriv_eq, accessCommand, view_params]
  refine ⟨fun hwide => ?_, fun hok hpriv => ?_⟩
  · rw [if_neg (by rw [vaddrOk_iff]; omega)]
    rfl
  · rw [if_pos ((vaddrOk_iff _ _).2 hok), access_reserved hpriv]
    rfl

/-- Settles O42: MXR changes the mask of a READ alone. -/
theorem mxrAccessMask : Obligations.MxrAccessMask := by
  intro c op
  refine ⟨fun hmxr hop => ?_, fun hno rule => ?_⟩
  · subst hop
    simp only [accessMask, hmxr]
    exact ⟨rfl, rfl⟩
  · have hoff : ¬ (c.mxr && op == .R) = true := by
      simp only [Bool.and_eq_true, beq_iff_eq]
      rintro ⟨hmxr, hop⟩
      exact hno.elim (by simp [hmxr]) (· hop)
    unfold accessMask
    rw [if_neg hoff]
    cases op <;> rfl

/-! #### An access that nobody disturbs -/

section Undisturbed

variable {s s1 : State} {op : Op} {vaddr paddr o : Word} {n : Nat} {buf : List Byte}

theorem readBytes_undisturbed (s : State) (o n : Nat) : (readBytes o n).runOn perform s = .done (s.bytesAt o n) s := by
  induction n generalizing o with
  | zero => rfl
  | succ n ih =>
    simp only [readBytes, Atom.prog_bind, Prog.runOn, perform, Prog.runOn_bind, ih, RunOf.done_bind]
    rfl

theorem writeBytes_undisturbed (s : State) (o : Nat) (bs : List Byte) :
    (writeBytes o bs).runOn perform s = .done () (s.setBytes o bs) := by
  induction bs generalizing s o with
  | nil => rfl
  | cons b bs ih => exact ih (s.setRamByte o b) (o + 1)

theorem ramRead_undisturbed (h : s.ram.holds o.toNat n = true) : (ramRead s.view o n).runOn perform s =
    .done (s.bytesAt o.toNat n) (s.record [.ramRead s.cur (s.ram.physOf o) n]) := by
  rw [ramRead, if_pos (by simpa only [view_holds] using h), Prog.runOn_bind, readBytes_undisturbed]
  rfl

theorem ramWrite_undisturbed (h : s.ram.holds o.toNat buf.length = true) : (ramWrite s.view o buf).runOn perform s =
    .done () ((s.setBytes o.toNat buf).record [.ramWrite s.cur (s.ram.physOf o) buf.length buf]) := by
  rw [ramWrite, if_pos (by simpa only [view_holds] using h), Prog.runOn_bind, writeBytes_undisturbed]
  rfl

/-- Inside RAM a copy is `quietCopy` (R191). -/
theorem copy_undisturbed (h : s.ram.holds o.toNat n = true) (hb : bufOk op n buf) :
    (copy s.view op o n buf).runOn perform s = .done (some (quietCopy op o n buf s).1) (quietCopy op o n buf s).2 := by
  cases op with
  | W =>
    have hlen : buf.length = n := hb
    rw [copy, Prog.runOn_bind, ramWrite_undisturbed (by rw [hlen]; exact h)]
    rfl
  | R | X =>
    rw [copy, Prog.runOn_bind, ramRead_undisturbed h]
    rfl

/-- A part of a page does not cross (R181). -/
theorem crosses_iff : crosses vaddr n = true ↔ 4096 < vaddr.toNat % 4096 + n := by
  rw [crosses, decide_eq_true_eq, pageOffset_eq, pageSize]

/-- An ACCESS below 2^XLEN runs its access and returns its response (R192). -/
theorem exec_access (hw : vaddr.toNat < 2 ^ xlenBits s.params.xlen) (hb : bufOk op n buf) :
    exec (accessInstr op vaddr n buf) s =
      finish (((access s.view op vaddr n buf).run s).bind fun r t => .done (response r) t) := by
  rw [exec_accessInstr hb, accessCommand, view_params, if_pos ((vaddrOk_iff _ _).2 hw), run_bind]
  rfl

theorem access_onePage (v : View) (h : vaddr.toNat % 4096 + n ≤ 4096) : access v op vaddr n buf = access1 v op vaddr n buf := by
  rw [access, if_neg (by rw [crosses_iff]; omega)]

/-- Undisturbed, a single-page access that hits copies at the bias plus the address (R185). -/
theorem exec_access_hit (hq : Quiet s) (hone : OnePage op vaddr n buf s) (hit : tlbHit s op (vpnOf vaddr) = true) :
    exec (accessInstr op vaddr n buf) s =
      finish (((copy s.view op ((s.slotFor (vpnOf vaddr)).hostBias + vaddr) n buf).runOn perform s).bind
        fun r t => .done (response r) t) := by
  obtain ⟨hwidth, hpage, hpriv, hbuf⟩ := hone
  rw [exec_access hwidth hbuf, access_onePage _ hpage, run_quiet _ hq, access1, view_ctx, if_neg hpriv]
  simp only [Atom.prog_bind, Prog.runOn, perform, Reply.toLookup, hit, if_true]

end Undisturbed

/-- Settles O43: a hit leads into RAM (`hit_sound`), where the access is its copy (`copy_undisturbed`). -/
theorem accessHit : Obligations.AccessHit := by
  intro s op v n buf h hq hf hone hit
  have hpage : v.toNat % 4096 + n ≤ 4096 := hone.2.1
  have hbuf : bufOk op n buf := hone.2.2.2
  have hsound := hit_sound h.1 h.2.2.1 hf (vpnOf_lt v) hit
  rw [exec_access_hit hq hone hit, copy_undisturbed (holds_of_sound hsound hpage) hbuf]
  rfl


/-! #### A miss that nobody disturbs -/

section QuietMiss

variable {s t : State} {wp : WalkParams} {op : Op} {vaddr acc paddr o : Word} {n k : Nat} {d : Device} {buf : List Byte}

/-- `t` is `s` but for RAM bytes and recorded events. -/
def OnlyRamAndEvents (s t : State) : Prop :=
  ∃ data history, t = { s with ram := { s.ram with data := data }, history := history }

theorem OnlyRamAndEvents.refl (s : State) : OnlyRamAndEvents s s := ⟨s.ram.data, s.history, rfl⟩

theorem OnlyRamAndEvents.record {es : List Event} (a : OnlyRamAndEvents s t) : OnlyRamAndEvents s (t.record es) := by
  obtain ⟨data, history, rfl⟩ := a
  exact ⟨data, history ++ es, rfl⟩

theorem setBytes_onlyRamAndEvents (s : State) (o : Nat) (bs : List Byte) : OnlyRamAndEvents s (s.setBytes o bs) :=
  ⟨_, _, (setBytes_stored o bs s).same⟩

/-- A command sees the same machine. -/
theorem OnlyRamAndEvents.view (a : OnlyRamAndEvents s t) : t.view = s.view := by
  obtain ⟨data, history, rfl⟩ := a
  rfl

theorem OnlyRamAndEvents.quiet (a : OnlyRamAndEvents s t) (hq : Quiet s) : Quiet t := by
  obtain ⟨data, history, rfl⟩ := a
  exact hq

theorem OnlyRamAndEvents.harts (a : OnlyRamAndEvents s t) : t.harts = s.harts := by
  obtain ⟨data, history, rfl⟩ := a
  rfl

theorem OnlyRamAndEvents.region (a : OnlyRamAndEvents s t) (hr : RegionOk s.ram) : RegionOk t.ram := by
  obtain ⟨data, history, rfl⟩ := a
  exact hr

/-- A walk changes RAM bytes and records events, and nothing else (41_walker.md R151). -/
theorem quietWalk_onlyRamAndEvents (wp : WalkParams) (vaddr acc : Word) (s : State) :
    OnlyRamAndEvents s (quietWalk wp vaddr acc s).2 := by
  cases hc : canonical wp vaddr with
  | false => rw [quietWalk_noncanonical hc]; exact .refl s
  | true =>
    cases hleaf : leafOf s wp vaddr acc wp.levels s.ctx.root with
    | mk es r =>
      cases r with
      | fault why => rw [quietWalk_fault hc hleaf]; exact (OnlyRamAndEvents.refl s).record
      | leaf l =>
        rw [quietWalk_leaf hc hleaf]
        split
        · exact (OnlyRamAndEvents.refl s).record
        · exact (setBytes_onlyRamAndEvents s _ _).record

/-- A leaf is found at one of the levels left. -/
theorem leafOf_level {table : Word} {es : List Event} {l : Leaf} (h : leafOf s wp vaddr acc n table = (es, .leaf l)) :
    l.level < n := by
  induction n generalizing table es with
  | zero => cases h
  | succ n ih =>
    simp only [leafOf] at h
    split at h
    · cases h
    · split at h
      · cases h
      · cases h
        exact Nat.lt_succ_self n
      · obtain ⟨rfl, hl⟩ := Prod.mk.inj h
        exact (ih (Prod.ext rfl hl)).trans (Nat.lt_succ_self n)

/-- A walk keeps the page offset (41_walker.md R152). -/
theorem quietWalk_offset (hm : IsMode wp) (h : (quietWalk wp vaddr acc s).1 = .ok paddr) :
    paddr.toNat % 4096 = vaddr.toNat % 4096 := by
  cases hc : canonical wp vaddr with
  | false => rw [quietWalk_noncanonical hc] at h; cases h
  | true =>
    cases hleaf : leafOf s wp vaddr acc wp.levels s.ctx.root with
    | mk es r =>
      cases r with
      | fault why => rw [quietWalk_fault hc hleaf] at h; cases h
      | leaf l =>
        rw [quietWalk_leaf hc hleaf] at h
        cases h
        obtain ⟨-, hphys, -, hoff⟩ := hm.bounds
        exact leafPaddr_offset l.pte vaddr ((hoff l.level (leafOf_level hleaf)).trans (by decide)) hphys

/-- A translation is the identity, a page fault, or a walk (42_dispatcher.md R186). -/
theorem quietTranslate_cases (op : Op) (vaddr : Word) (s : State) :
    quietTranslate op vaddr s = (.phys vaddr, s) ∨ quietTranslate op vaddr s = (.trap .page, s) ∨
      ∃ wp acc, IsMode wp ∧ (quietTranslate op vaddr s).2 = (quietWalk wp vaddr acc s).2 ∧
        ∀ p, (quietTranslate op vaddr s).1 = .phys p → (quietWalk wp vaddr acc s).1 = .ok p := by
  unfold quietTranslate
  split
  · exact .inl rfl
  · split
    · exact .inl rfl
    · exact .inr (.inl rfl)
    · next wp hm =>
      refine .inr (.inr ⟨wp, accessMask s.params.mxrRule s.ctx op, modeParams_paged hm, ?_⟩)
      cases quietWalk wp vaddr (accessMask s.params.mxrRule s.ctx op) s with
      | mk r t =>
        cases r with
        | ok p' => exact ⟨rfl, fun p hp => congrArg WalkResult.ok (Translation.phys.inj hp)⟩
        | fault why => exact ⟨rfl, fun p hp => by cases hp⟩

theorem quietTranslate_onlyRamAndEvents (op : Op) (vaddr : Word) (s : State) :
    OnlyRamAndEvents s (quietTranslate op vaddr s).2 := by
  rcases quietTranslate_cases op vaddr s with h | h | ⟨wp, acc, -, h, -⟩
  · rw [h]; exact .refl s
  · rw [h]; exact .refl s
  · rw [h]; exact quietWalk_onlyRamAndEvents wp vaddr acc s

/-- A translation keeps the page offset. -/
theorem quietTranslate_offset (h : (quietTranslate op vaddr s).1 = .phys paddr) :
    paddr.toNat % 4096 = vaddr.toNat % 4096 := by
  rcases quietTranslate_cases op vaddr s with hid | htrap | ⟨wp, acc, hm, -, hwalk⟩
  · rw [hid] at h; cases h; rfl
  · rw [htrap] at h; cases h
  · exact quietWalk_offset hm (hwalk paddr h)

/-- The fill and the JIT hook of a RAM hit (R187). -/
def ramHitState (op : Op) (vaddr paddr o : Word) (n : Nat) (s : State) : State :=
  if op = .W then (tlbFill op (vpnOf vaddr) (o - vaddr) s).record [.jitInvalidate s.cur vaddr paddr n]
  else tlbFill op (vpnOf vaddr) (o - vaddr) s

theorem ramHit_undisturbed (s : State) : (ramHit s.view op vaddr paddr o n).runOn perform s =
    .done () (ramHitState op vaddr paddr o n s) := by
  cases op <;> rfl

@[simp] theorem ramHitState_view : (ramHitState op vaddr paddr o n s).view = s.view := by
  unfold ramHitState
  split
  · rw [record_view, tlbFill_view]
  · rw [tlbFill_view]

/-- An access at an address of RAM: the fill and the hook, then the copy (R187). -/
theorem accessPhys_ram (hphys : physToHost s.ram paddr = some o) (hin : s.ram.holds o.toNat n = true) (hb : bufOk op n buf) :
    (accessPhys s.view op vaddr paddr n buf).runOn perform s =
      .done (some (quietCopy op o n buf (ramHitState op vaddr paddr o n s)).1)
        (quietCopy op o n buf (ramHitState op vaddr paddr o n s)).2 := by
  have hin' : (ramHitState op vaddr paddr o n s).ram.holds o.toNat n = true := by
    rw [← view_holds, ramHitState_view, view_holds, hin]
  have hcopy := copy_undisturbed hin' hb
  rw [ramHitState_view] at hcopy
  simp only [accessPhys, view_physToHost, hphys, Prog.runOn_bind, ramHit_undisturbed, RunOf.done_bind, hcopy]

/-- An access at an address of neither RAM nor a device is its trap (R189). -/
theorem accessPhys_void (hphys : physToHost s.ram paddr = none) (hdev : findMmio s.params.devices paddr = none) :
    (accessPhys s.view op vaddr paddr n buf).runOn perform s =
      .done none (s.record [.trap s.cur (trapCause .access op) vaddr]) := by
  simp only [accessPhys, view_physToHost, hphys, view_params, hdev]
  rfl

/-- The end of hart h's access at a device: the adapter's data, or the trap of its failure (R188). -/
def mmioEnd (h : Nat) (op : Op) (vaddr : Word) (r : Option (List Byte)) (s : State) : Run (Option (List Byte)) :=
  match r with
  | some data => .done (some data) s
  | none => .done none (s.record [.trap h (trapCause .access op) vaddr])

/-- An access at an address of device k is the adapter's call on it (R188). -/
theorem accessPhys_mmio (hphys : physToHost s.ram paddr = none) (hdev : findMmio s.params.devices paddr = some k)
    (hk : s.params.devices[k]? = some d) : (accessPhys s.view op vaddr paddr n buf).runOn perform s =
      ((mmio s.view k d mmioDepth (opDir op) (paddr - d.begin) n buf).runOn perform s).bind (mmioEnd s.cur op vaddr) := by
  simp only [accessPhys, view_physToHost, hphys, view_params, hdev, mmioHit, hk, Prog.runOn_bind]
  refine congrArg (RunOf.bind _) (funext fun r => funext fun t => ?_)
  cases r <;> rfl

end QuietMiss

/-- Settles O44: the translation (`exec_access_miss`), then the access at its address (`accessPhys_ram`). -/
theorem accessRam : Obligations.AccessRam := by
  intro s s1 op v p o n buf h hq hone hmiss htr hphys
  have hpage : v.toNat % 4096 + n ≤ 4096 := hone.2.1
  have hbuf : bufOk op n buf := hone.2.2.2
  have hsame : OnlyRamAndEvents s s1 := by
    have a := quietTranslate_onlyRamAndEvents op v s
    rwa [htr] at a
  have hoffset : p.toNat % 4096 = v.toNat % 4096 := quietTranslate_offset (congrArg Prod.fst htr)
  have hin := part_holds (hsame.region (regionOk_of_legal h.2.1) (physToHost_some hphys).1) hphys (hoffset ▸ hpage)
  have hcur : s1.cur = s.cur := congrArg View.hart hsame.view
  rw [exec_access_miss h hq hone hmiss, htr, ← hsame.view, afterTranslation, accessPhys_ram hphys hin hbuf, ramHitState, hcur]
  rfl

/-- Settles O46: the translation (`exec_access_miss`), then the trap (`accessPhys_void`). -/
theorem accessVoid : Obligations.AccessVoid := by
  intro s s1 op v p n buf h hq hone hmiss htr hphys hdev
  have hsame := quietTranslate_onlyRamAndEvents op v s
  rw [htr] at hsame
  have hcur : s1.cur = s.cur := congrArg View.hart hsame.view
  have hparams : s1.params = s.params := congrArg View.params hsame.view
  rw [exec_access_miss h hq hone hmiss, htr, ← hsame.view, afterTranslation, accessPhys_void hphys (by rw [hparams, hdev]), hcur]
  cases op <;> rfl

/-! #### A device access that nobody disturbs -/

section QuietDevice

variable {s t : State} {α : Type} {p : Prog α} {a : α}

/-- An access records what it emits, and only a fill writes a hart. -/
theorem perform_outputs (x : Atom) (s : State) :
    (perform x s).2.history = s.history ++ eventsOf [(x, (perform x s).1)] ∧
      ((∀ op vpn bias, x ≠ .fill op vpn bias) → (perform x s).2.harts = s.harts) := by
  have same : ∀ u : State, u.history = s.history → u.history = s.history ++ [] := fun u h => by rw [h, List.append_nil]
  cases x with
  | fill op vpn bias => exact ⟨same _ rfl, fun h => absurd rfl (h op vpn bias)⟩
  | emit e => exact ⟨rfl, fun _ => rfl⟩
  | cas o n e d =>
    have hsame := (casWord_stored o n e d s).same
    exact ⟨same _ (congrArg State.history hsame :), fun _ => (congrArg State.harts hsame :)⟩
  | device call =>
    have hsame := (deviceDraw_same call s).1
    exact ⟨same _ (congrArg State.history hsame :), fun _ => (congrArg State.harts hsame :)⟩
  | lookup | readByte | writeByte | readWord | pteOrder => exact ⟨same _ rfl, fun _ => rfl⟩

/-- What an undisturbed run that ends has recorded; and it has written no hart if it filled no slot. -/
theorem runOn_perform_outputs (h : p.runOn perform s = .done a t) : ∃ log, p.Trace log a ∧
    t.history = s.history ++ eventsOf log ∧
      ((∀ op vpn bias r, (Atom.fill op vpn bias, r) ∉ log) → t.harts = s.harts) := by
  induction p generalizing s with
  | done b =>
    cases h
    exact ⟨[], .done _, by simp, fun _ => rfl⟩
  | fault e => cases h
  | refused e => cases h
  | op x k ih =>
    obtain ⟨hevents, hharts⟩ := perform_outputs x s
    obtain ⟨log, htr, hevents', hharts'⟩ := ih _ h
    refine ⟨_, .op htr, ?_, fun hfill => ?_⟩
    · rw [hevents', hevents, List.append_assoc, ← eventsOf_append, List.singleton_append]
    · rw [hharts' fun op vpn bias r hm => hfill op vpn bias r (List.mem_cons_of_mem _ hm)]
      exact hharts fun op vpn bias hx => hfill op vpn bias (perform x s).1 (by rw [hx]; exact List.mem_cons_self)

/-- An undisturbed adapter call that ends has written no hart, and its events are device calls (44_mmio.md R255). -/
theorem mmio_outputs {v : View} {k : Nat} {d : Device} {depth : Nat} {dir : Dir} {off : Word} {n : Nat} {buf : List Byte}
    {r : Option (List Byte)} (hb : DirBuf dir n buf) (h : (mmio v k d depth dir off n buf).runOn perform s = .done r t) :
    t.harts = s.harts ∧ ∀ e ∈ newEvents s t, (deviceCallOf e).isSome = true := by
  obtain ⟨log, htr, hevents, hharts⟩ := runOn_perform_outputs h
  obtain ⟨es, trail, hcalls, -⟩ := mmio_trace (K := fun _ => False) hb htr
  refine ⟨hharts trail.fills, fun e he => ?_⟩
  rw [newEvents_of_append hevents, trail.events] at he
  obtain ⟨off, n, hcall, -⟩ := hcalls e he
  rw [hcall]
  rfl

/-- The buffer of an access serves the adapter's call (42_dispatcher.md R188). -/
theorem dirBuf_of_bufOk {op : Op} {n : Nat} {buf : List Byte} (h : bufOk op n buf) : DirBuf (opDir op) n buf := by
  intro hdir
  cases op with
  | W => exact h
  | R | X => cases hdir

/-- What an undisturbed single-page access that misses makes of the adapter's call at the device it translates to (R188): the call's
data, a trap, or the call's stop. -/
theorem exec_access_device {s1 : State} {op : Op} {vaddr paddr : Word} {n k : Nat} {d : Device} {buf : List Byte} (h : Legal s)
    (hq : Quiet s) (hone : OnePage op vaddr n buf s) (hmiss : tlbHit s op (vpnOf vaddr) = false)
    (htr : quietTranslate op vaddr s = (.phys paddr, s1)) (hphys : physToHost s1.ram paddr = none)
    (hdev : findMmio s.params.devices paddr = some k) (hk : s.params.devices[k]? = some d) {dir : Dir} (hdir : opDir op = dir)
    {r : Run (Option (List Byte))} (hrun : (mmio s.view k d mmioDepth dir (paddr - d.begin) n buf).run s1 = r) :
    exec (accessInstr op vaddr n buf) s =
        finish ((r.bind (mmioEnd s.cur op vaddr)).bind fun r t => .done (response r) t) ∧
      ∀ data t, r = .done data t → t.harts = s.harts ∧ ∀ e ∈ newEvents s1 t, (deviceCallOf e).isSome = true := by
  have hsame := quietTranslate_onlyRamAndEvents op vaddr s
  rw [htr] at hsame
  have hcur : s1.cur = s.cur := congrArg View.hart hsame.view
  have hparams : s1.params = s.params := congrArg View.params hsame.view
  rw [run_quiet _ (hsame.quiet hq), ← hdir, ← hsame.view] at hrun
  refine ⟨?_, fun data t hr => ?_⟩
  · rw [exec_access_miss h hq hone hmiss, htr, ← hsame.view, afterTranslation,
      accessPhys_mmio hphys (by rw [hparams, hdev]) (by rw [hparams, hk]), hcur, hrun]
  · obtain ⟨hharts, hcalls⟩ := mmio_outputs (dirBuf_of_bufOk hone.2.2.2) (hrun.trans hr)
    exact ⟨hharts.trans hsame.harts, hcalls⟩

end QuietDevice

/-- Settles O45: the translation, then the adapter's call, whose events are device calls (`exec_access_device`). -/
theorem accessMmio : Obligations.AccessMmio := by
  intro s s1 op v p n k d buf h hq hone hmiss htr hphys hdev hk
  have hcall := fun dir hdir r => exec_access_device (dir := dir) (r := r) h hq hone hmiss htr hphys hdev hk hdir
  cases op
  all_goals
    split
    next hrun =>
      obtain ⟨hexec, hdone⟩ := hcall _ rfl _ hrun
      exact ⟨hexec, hdone _ _ rfl⟩
    next hrun =>
      obtain ⟨hexec, hdone⟩ := hcall _ rfl _ hrun
      exact ⟨hexec, hdone _ _ rfl⟩
    next hrun => exact (hcall _ rfl _ hrun).1
    next hrun => exact (hcall _ rfl _ hrun).1


/-! #### A crossing access and its parts -/

section Crossing

variable {s s1 t u : State} {op : Op} {vaddr : Word} {n : Nat} {buf : List Byte} {x y : Value} {r : Option (List Byte)}

theorem response_injective : Function.Injective response := by
  intro a b h
  cases a <;> cases b <;> cases h <;> rfl

/-- Giving a value is undone by taking the last returned value off. -/
theorem give_inj (h : s.give x = t.give y) : s = t ∧ x = y := by
  have hreturned : s.returned ++ [⟨s.cur, x⟩] = t.returned ++ [⟨t.cur, y⟩] := congrArg State.returned h
  obtain ⟨hinit, hlast⟩ := List.append_inj' hreturned rfl
  refine ⟨?_, congrArg Returned.value (List.head_eq_of_cons_eq hlast)⟩
  calc s = { s.give x with returned := s.returned } := rfl
    _ = { t.give y with returned := t.returned } := by rw [h, hinit]
    _ = t := rfl

/-- An ACCESS below 2^XLEN gives a response when its access ends with it. -/
theorem exec_access_eq_next_iff (hw : vaddr.toNat < 2 ^ xlenBits s.params.xlen) (hb : bufOk op n buf) :
    exec (accessInstr op vaddr n buf) s = .next (t.give (response r)) ↔ (access s.view op vaddr n buf).run s = .done r t := by
  rw [exec_access hw hb]
  constructor
  · intro h
    obtain ⟨x, u, hrun, hgive⟩ := finish_eq_next h
    obtain ⟨rfl, rfl⟩ := give_inj hgive
    cases hacc : (access s.view op vaddr n buf).run s with
    | done r' t' =>
      rw [hacc] at hrun
      obtain ⟨hr, ht⟩ := RunOf.done.inj hrun
      rw [response_injective hr, ht]
    | fault e => rw [hacc] at hrun; cases hrun
    | refused e => rw [hacc] at hrun; cases hrun
  · intro h
    rw [h]
    rfl

/-- The access of a single-page ACCESS that gives a response ends with it. -/
theorem access1_run_of_exec (hw : vaddr.toNat < 2 ^ xlenBits s.params.xlen) (hpage : vaddr.toNat % 4096 + n ≤ 4096)
    (hb : bufOk op n buf) (h : exec (accessInstr op vaddr n buf) s = .next (t.give (response r))) :
    (access1 s.view op vaddr n buf).run s = .done r t := by
  rw [← access_onePage _ hpage]
  exact (exec_access_eq_next_iff hw hb).1 h

theorem firstPart_eq (vaddr : Word) : firstPart vaddr = 4096 - vaddr.toNat % 4096 := by
  rw [firstPart, pageOffset_eq, pageSize]

/-- The first part ends at its page (R181). -/
theorem firstPart_fits (vaddr : Word) : vaddr.toNat % 4096 + firstPart vaddr ≤ 4096 := by
  rw [firstPart_eq]
  omega

/-- The second part starts a page (R181). -/
theorem secondAddr_offset (p : Params) (vaddr : Word) : (secondAddr p vaddr).toNat % 4096 = 0 := by
  have hpage : 4096 ∣ 2 ^ xlenBits p.xlen := by cases p.xlen <;> decide
  rw [secondAddr_toNat, Nat.mod_mod_of_dvd _ hpage]
  omega

theorem secondAddr_lt (p : Params) (vaddr : Word) : (secondAddr p vaddr).toNat < 2 ^ xlenBits p.xlen := by
  rw [secondAddr_toNat]
  exact Nat.mod_lt _ (Nat.two_pow_pos _)

/-- The second part starts where the first one ends, modulo 2^XLEN. -/
theorem secondAddr_eq (p : Params) (vaddr : Word) :
    secondAddr p vaddr = BitVec.ofNat 64 ((vaddr.toNat + (4096 - vaddr.toNat % 4096)) % 2 ^ xlenBits p.xlen) := by
  rw [← secondAddr_toNat, BitVec.ofNat_toNat, BitVec.setWidth_eq]

/-- A run leaves what a command sees of its machine. -/
theorem run_view {α : Type} {p : Prog α} {a : α} (h : p.run s = .done a t) : t.view = s.view := by
  obtain ⟨_, _, among, _⟩ := run_among h
  exact among.view

/-- A crossing access whose first part fails, fails there (R181). -/
theorem access_run_first_fails (hc : crosses vaddr n = true)
    (h : (access1 s.view op vaddr (firstPart vaddr) (buf.take (firstPart vaddr))).run s = .done none s1) :
    (access s.view op vaddr n buf).run s = .done none s1 := by
  rw [access, if_pos hc, run_bind, h]
  rfl

/-- A crossing access whose first part succeeds ends as its second part does, its data after the first part's (R181, R192). -/
theorem access_run_second {lo : List Byte} (hc : crosses vaddr n = true)
    (h1 : (access1 s.view op vaddr (firstPart vaddr) (buf.take (firstPart vaddr))).run s = .done (some lo) s1)
    (h2 : (access1 s1.view op (secondAddr s.params vaddr) (n - firstPart vaddr) (buf.drop (firstPart vaddr))).run s1 = .done r t) :
    (access s.view op vaddr n buf).run s = .done (r.map (lo ++ ·)) t := by
  rw [run_view h1] at h2
  rw [access, if_pos hc, run_bind, h1, RunOf.done_bind, run_bind, view_params, h2, RunOf.done_bind]
  cases r <;> rfl

end Crossing

/-- Settles O49: each part is a single-page access (`access1_run_of_exec`), and the access is the first's run, then the second's
(`access_run_first_fails`, `access_run_second`). -/
theorem pageCrossing : Obligations.PageCrossing := by
  intro s s1 op v n buf hn hbuf hcross hw
  have hc : crosses v n = true := crosses_iff.2 hcross
  obtain ⟨hb1, hb2, -⟩ := parts_buf hc hbuf
  intro n1 vb
  obtain ⟨hn1, hvb⟩ : firstPart v = n1 ∧ secondAddr s.params v = vb := ⟨firstPart_eq v, secondAddr_eq _ v⟩
  clear_value vb n1
  subst hn1 hvb
  have ends := fun r t => (exec_access_eq_next_iff (r := r) (t := t) hw hbuf).2
  refine ⟨fun h => ?_, fun lo h s2 => ?_⟩
  · exact ends none s1 (access_run_first_fails hc (access1_run_of_exec hw (firstPart_fits v) hb1 h))
  · have h1 := access1_run_of_exec (r := some lo) hw (firstPart_fits v) hb1 h
    have hparams : s1.params = s.params := congrArg View.params (run_view h1)
    have hw2 : (secondAddr s.params v).toNat < 2 ^ xlenBits s1.params.xlen := by rw [hparams]; exact secondAddr_lt _ _
    have hpage : (secondAddr s.params v).toNat % 4096 + (n - firstPart v) ≤ 4096 := by rw [secondAddr_offset]; omega
    have second := fun r h => access_run_second hc h1 (access1_run_of_exec (r := r) (t := s2) hw2 hpage hb2 h)
    exact ⟨fun h => ends _ s2 (second none h), fun hi h => ends _ s2 (second (some hi) h)⟩

/-! #### The trap of a failing access -/

section OneTrap

variable {s u : State} {log : List (Atom × Reply)} {K : Nat → Prop}

/-- The value given after a run is the one value new to its hart. -/
theorem Ran.returns (r : Ran s u log K) (v : Value) : Returns s (u.give v) v := by
  obtain ⟨rs, hrs, hmovers⟩ := r.among.returned
  exact returns_give r.among.cur hrs (fun x hx => (hmovers x hx).1) v

end OneTrap

/-- Settles O50: the events of an access are those of its accesses of the state (`access_trace`), which other agents leave as they
are (`Ran.ownEvents`). -/
theorem oneTrapPerFailure : Obligations.OneTrapPerFailure := by
  intro s t op v n buf _ hb ht
  rw [exec_accessInstr hb] at ht
  obtain ⟨x, u, hrun, rfl⟩ := finish_eq_next ht
  obtain ⟨log, htr, run⟩ := accessCommand_ran hb hrun
  obtain ⟨r, rfl, haccess⟩ := accessCommand_trace htr
  obtain ⟨es, hes, hends⟩ := access_trace hb haccess
  have hreturns := run.returns (response r)
  rw [run.ownEvents]
  cases r with
  | some data =>
    obtain ⟨trail, hlen⟩ := hends
    exact .inl ⟨data, hreturns, hlen, by rwa [trail.events]⟩
  | none =>
    obtain ⟨c, tval, htval, trail⟩ := hends
    refine .inr ⟨hreturns, es, c, tval, trail.events, hes, htval.imp_right fun ⟨hc, hsecond⟩ => ?_⟩
    exact ⟨crosses_iff.1 hc, by rw [hsecond, secondAddr_toNat]; rfl⟩

/-! #### The context that a fetch and a store see -/

section FetchStore

variable {c d : Ctx}

/-- A fetch sees the mode, the root and the privilege of a context, and nothing else (R182, R184). -/
theorem ctxAlike_fetch (hmode : d.mode = c.mode) (hroot : d.root = c.root) (hpriv : d.priv = c.priv) : CtxAlike .X c d := by
  have heff : effPriv d .X = effPriv c .X := by simp [effPriv_eq, hpriv]
  exact ⟨hmode, hroot, by rw [heff], by rw [heff], fun rule => by simp [accessMask]⟩

/-- A store sees MPRV and MPP too, and not MXR (R182, R184). -/
theorem ctxAlike_store (hmode : d.mode = c.mode) (hroot : d.root = c.root) (hpriv : d.priv = c.priv) (hmprv : d.mprv = c.mprv)
    (hmpp : d.mpp = c.mpp) : CtxAlike .W c d := by
  have heff : effPriv d .W = effPriv c .W := by simp only [effPriv_eq, hpriv, hmprv, hmpp]
  exact ⟨hmode, hroot, by rw [heff], by rw [heff], fun rule => by simp [accessMask]⟩

end FetchStore

/-- Settles O53: an access answers alike under contexts that it does not tell apart (`exec_access_ctx`). -/
theorem fetchAndStoreContext : Obligations.FetchAndStoreContext := by
  intro s c v hmode hroot hpriv
  refine ⟨fun n => exec_access_ctx (ctxAlike_fetch hmode hroot hpriv) v n [], fun hmprv hmpp buf => ?_⟩
  exact exec_access_ctx (ctxAlike_store hmode hroot hpriv hmprv hmpp) v buf.length buf

end Sys2Proof.Machine

/-! ### Software TLB (43_tlb.md): what a lookup, a fill and a flush do

TLB.FILL, TLB.FLUSH and TLB.FLUSHPAGE write the running hart's TLB and nothing else (`onlyThisTlb_setHart`). Whether a lookup hits
afterwards is read off the tag that the VPN's slot then holds (`exec_tlbLookup_hit`, `exec_tlbLookup_miss`): a fill leaves VPN or
`VPN - 1` in each tag (`slotTag_filledSlot`), a page flush leaves `VPN - 1`, and `VPN - 1` is no page of the slot
(`pred_ne_of_sameSlot`). -/

namespace Sys2Proof.Machine

open Sys2Proof.Config

/-! #### The slot of a page -/

section TlbSlot

variable {p : Params} {s : State} {op : Op} {vpn vpn' bias v : Word}

/-- The slot of an address's page, in integers (R220). -/
theorem slotIndex_vpnOf (hp : paramsOk p = true) (v : Word) : slotIndex p (vpnOf v) = v.toNat / 4096 % p.tlbEntries := by
  obtain ⟨b, -, hb, -⟩ := paramsOk_tlb hp
  rw [slotIndex_eq hb, vpnOf_toNat, hb]

/-- The tag that invalidates a slot for VPN is no page of that slot (R229). -/
theorem pred_ne_of_sameSlot (hp : paramsOk p = true) (h : slotIndex p vpn' = slotIndex p vpn) : vpn - 1 ≠ vpn' := by
  rintro rfl
  exact slotIndex_pred_ne hp vpn h

@[simp] theorem give_slotFor (x : Value) (vpn : Word) : (s.give x).slotFor vpn = s.slotFor vpn := rfl

/-- The slot that a fill leaves, for every page of that slot. -/
theorem tlbFill_slotFor (h : slotIndex s.params vpn' = slotIndex s.params vpn) :
    (tlbFill op vpn bias s).slotFor vpn' = filledSlot op vpn bias (s.slotFor vpn) :=
  (tlbFill_slot s op vpn bias s.cur _).trans (if_pos ⟨rfl, h⟩)

/-- The slot that a page flush leaves, for every page of that slot. -/
theorem tlbFlushPage_slotFor (h : slotIndex s.params vpn' = slotIndex s.params vpn) :
    (tlbFlushPage vpn s).slotFor vpn' = flushedPageSlot vpn (s.slotFor vpn) :=
  (tlbFlushPage_slot s vpn s.cur _).trans (if_pos ⟨rfl, h⟩)

theorem tlbFlush_slotFor (vpn : Word) : (tlbFlush s).slotFor vpn = flushedSlot s.params (slotIndex s.params vpn) :=
  (tlbFlush_slot s s.cur _).trans (if_pos rfl)

end TlbSlot

/-! #### The tags after a fill and after a flush -/

section TlbTags

variable (op op' : Op) (vpn bias tag : Word) (e : Slot)

theorem keepOrInvalidate_eq_or : keepOrInvalidate vpn tag = vpn ∨ keepOrInvalidate vpn tag = vpn - 1 := by
  unfold keepOrInvalidate
  split
  · next h => exact .inl h
  · exact .inr rfl

@[simp] theorem filledSlot_hostBias : (filledSlot op vpn bias e).hostBias = bias := by cases op <;> rfl

/-- The tag of the access kind that is filled. -/
@[simp] theorem slotTag_filledSlot_self : slotTag op (filledSlot op vpn bias e) = vpn := by cases op <;> rfl

/-- Every tag after a fill is VPN or invalid for its slot (R224 to R226). -/
theorem slotTag_filledSlot :
    slotTag op' (filledSlot op vpn bias e) = vpn ∨ slotTag op' (filledSlot op vpn bias e) = vpn - 1 := by
  have keep := keepOrInvalidate_eq_or vpn
  cases op with
  | R =>
    cases op' with
    | R => exact .inl rfl
    | W => exact keep e.tagW
    | X => exact keep e.tagX
  | W =>
    cases op' with
    | R | W => exact .inl rfl
    | X => exact keep e.tagX
  | X =>
    cases op' with
    | R => exact keep e.tagR
    | W => exact keep e.tagW
    | X => exact .inl rfl

@[simp] theorem slotTag_flushedPageSlot : slotTag op (flushedPageSlot vpn e) = vpn - 1 := by cases op <;> rfl

/-- A flushed slot has the tag of none of its pages (R227). -/
theorem slotTag_flushedSlot_ne {p : Params} (hp : paramsOk p = true) (v : Word) :
    slotTag op (flushedSlot p (slotIndex p (vpnOf v))) ≠ vpnOf v := by
  intro htag
  have hdead := flushedSlot_dead hp op (slotIndex p (vpnOf v))
  rw [htag, tagLive, beq_self_eq_true, Bool.true_and, decide_eq_false_iff_not] at hdead
  exact hdead (vpnOf_lt v)

end TlbTags

/-! #### The four commands -/

section TlbCommands

variable {s : State} {op : Op} {v : Word}

/-- TLB.LOOKUP compares the tag with the VPN (R221). -/
theorem exec_tlbLookup (s : State) (v : Word) (op : Op) :
    exec (.tlbLookup v op) s =
      .next (s.give (.lookup (decide ((slotTag op (s.slotFor (vpnOf v))).toNat = v.toNat / 4096))
        (s.slotFor (vpnOf v)).hostBias)) := by
  rw [← vpnOf_toNat, decide_eq_decide.2 BitVec.toNat_inj]
  rfl

theorem exec_tlbFill (s : State) (v : Word) (op : Op) (bias : Word) :
    exec (.tlbFill v op bias) s = .next ((tlbFill op (vpnOf v) bias s).give .filled) := rfl

theorem exec_tlbFlush (s : State) : exec .tlbFlush s = .next ((tlbFlush s).give (.command true [])) := rfl

theorem exec_tlbFlushPage (s : State) (v : Word) :
    exec (.tlbFlushPage v) s = .next ((tlbFlushPage (vpnOf v) s).give (.command true [])) := rfl

/-- A lookup whose tag is the VPN answers true, with the slot's bias. -/
theorem exec_tlbLookup_hit {bias : Word} (htag : slotTag op (s.slotFor (vpnOf v)) = vpnOf v)
    (hbias : (s.slotFor (vpnOf v)).hostBias = bias) :
    exec (.tlbLookup v op) s = .next (s.give (.lookup true bias)) := by
  rw [exec_tlbLookup, htag, hbias, vpnOf_toNat, decide_eq_true rfl]

/-- A lookup whose tag is not the VPN answers false. -/
theorem exec_tlbLookup_miss (htag : slotTag op (s.slotFor (vpnOf v)) ≠ vpnOf v) :
    ∃ b, exec (.tlbLookup v op) s = .next (s.give (.lookup false b)) := by
  refine ⟨(s.slotFor (vpnOf v)).hostBias, ?_⟩
  rw [exec_tlbLookup, decide_eq_false]
  rwa [← vpnOf_toNat, BitVec.toNat_inj]

/-- A write of the running hart's TLB changes nothing else. -/
theorem onlyThisTlb_setHart (s : State) (tlb : List (Nat × Slot)) (x : Value) :
    OnlyThisTlb s ((s.setHart s.cur { s.hart s.cur with tlb := tlb }).give x) x :=
  ⟨⟨rfl, fun _ hh => setHart_hart_other s hh _⟩, by rw [give_hart, setHart_hart_same]⟩

end TlbCommands

/-- Settles O23: the slots after a fill (`tlbFill_slot`), and the frame of a write of the TLB. -/
theorem tlbFillResult : Obligations.TlbFillResult := by
  intro s v op bias hp vpn i e keep
  have hi : slotIndex s.params (vpnOf v) = i := slotIndex_vpnOf hp v
  have he : s.slotFor (vpnOf v) = e := congrArg (s.slot s.cur) hi
  have hkeep : ∀ tag, keep tag = keepOrInvalidate (vpnOf v) tag := fun tag => ite_not ..
  refine ⟨_, exec_tlbFill s v op bias, onlyThisTlb_setHart s _ _, fun j hj => ?_, ?_⟩
  · rw [give_slot, tlbFill_slot, hi, if_neg (hj ·.2)]
  · rw [give_slot, tlbFill_slot, hi, if_pos ⟨rfl, rfl⟩, he]
    simp only [hkeep]
    cases op <;> rfl

/-- A bias that leads v to o leads the other addresses of v's page to the offsets around o (R222). -/
theorem bias_add_of_samePage {v v' : Word} (o : Word) (h : vpnOf v' = vpnOf v) :
    o - v + v' = o + (v' &&& 0xFFF) - (v &&& 0xFFF) := by
  have hpage : v'.toNat / 4096 = v.toNat / 4096 := by rw [← vpnOf_toNat, h, vpnOf_toNat]
  apply BitVec.eq_of_toNat_eq
  simp only [BitVec.toNat_add, BitVec.toNat_sub, and_fff]
  omega

/-- Settles O24: on the filled page the tag is the VPN; on another page of the slot it is the filled VPN or invalid
(`slotTag_filledSlot`). -/
theorem fillHitsItsPage : Obligations.FillHitsItsPage := by
  intro s t v o op ht
  rw [exec_tlbFill] at ht
  injection ht with ht
  subst ht
  refine ⟨fun v' hv' => ?_, fun v' op' hp hslot hne => ?_⟩
  · replace hv' : vpnOf v' = vpnOf v := hv'
    have hfill := tlbFill_slotFor (s := s) (op := op) (bias := o - v) (congrArg (slotIndex s.params) hv')
    refine ⟨exec_tlbLookup_hit ?_ ?_, ?_, ?_⟩
    · rw [give_slotFor, hfill, slotTag_filledSlot_self, hv']
    · rw [give_slotFor, hfill, filledSlot_hostBias]
    · rintro rfl
      refine exec_tlbLookup_hit ?_ ?_
      · rw [give_slotFor, hfill, hv']; rfl
      · rw [give_slotFor, hfill, filledSlot_hostBias]
    · exact bias_add_of_samePage o hv'
  · have hindex : slotIndex s.params (vpnOf v') = slotIndex s.params (vpnOf v) := by
      rw [slotIndex_vpnOf hp, slotIndex_vpnOf hp, hslot]
    refine exec_tlbLookup_miss ?_
    rw [give_slotFor, tlbFill_slotFor hindex]
    rcases slotTag_filledSlot op op' (vpnOf v) (o - v) (s.slotFor (vpnOf v)) with htag | htag <;> rw [htag]
    · exact hne.symm
    · exact pred_ne_of_sameSlot hp hindex

/-- Settles O26: every slot is then as a flush leaves it (`tlbFlush_slot`), with the tag of none of its pages
(`slotTag_flushedSlot_ne`). -/
theorem tlbFlushResult : Obligations.TlbFlushResult := by
  intro s
  refine ⟨_, exec_tlbFlush s, onlyThisTlb_setHart s _ _, fun i => ?_, fun hp v op => exec_tlbLookup_miss ?_⟩
  · rw [give_slot, tlbFlush_slot, if_pos rfl]
    rfl
  · rw [give_slotFor, tlbFlush_slotFor]
    exact slotTag_flushedSlot_ne op hp v

/-- Settles O27: the slots after a page flush (`tlbFlushPage_slot`), whose tag is no page of the slot (`pred_ne_of_sameSlot`). -/
theorem tlbFlushPageResult : Obligations.TlbFlushPageResult := by
  intro s v hp vpn i
  have hi : slotIndex s.params (vpnOf v) = i := slotIndex_vpnOf hp v
  refine ⟨_, exec_tlbFlushPage s v, onlyThisTlb_setHart s _ _, ?_, fun j hj => ?_, fun v' op hslot => exec_tlbLookup_miss ?_⟩
  · rw [give_slot, tlbFlushPage_slot, hi, if_pos ⟨rfl, rfl⟩, State.slotFor, hi]
    rfl
  · rw [give_slot, tlbFlushPage_slot, hi, if_neg (hj ·.2)]
  · have hindex : slotIndex s.params (vpnOf v') = slotIndex s.params (vpnOf v) := by
      rw [slotIndex_vpnOf hp, hslot, hi]
    rw [give_slotFor, tlbFlushPage_slotFor hindex, slotTag_flushedPageSlot]
    exact pred_ne_of_sameSlot hp hindex

/-- Settles O22: `exec_tlbLookup`, with the slot's index in integers. -/
theorem tlbLookupResult : Obligations.TlbLookupResult := by
  intro s v op hp e tag
  have he : s.slotFor (vpnOf v) = e := congrArg (s.slot s.cur) (slotIndex_vpnOf hp v)
  have htag : slotTag op e = tag := by cases op <;> rfl
  rw [exec_tlbLookup, he, htag]

end Sys2Proof.Machine

/-! ### MMIO adapter (44_mmio.md): its three cases, the calls it ends, and what it does undisturbed

One lemma per case of R251 says what the adapter runs (`mmio_tooWide`, `mmio_widen_rd`, `mmio_widen_wr`, `mmio_split`,
`mmio_direct`). `Adapts` is the recursion of the calls that end: a call whose window fits the scratch has it (`adapts_of_fits`). By
induction on it such a call ends, and on a store of bytes it reads and writes exactly the bytes asked for. Undisturbed, a callback is
one draw and one event (`callback_undisturbed`), and a call of one or two callbacks is computed from that. -/

namespace Sys2Proof.Machine

open Sys2Proof.Config

/-! #### The window (R252) -/

section Window

variable (z : OpSize) (off : Word) (n : Nat)

/-- The alignment mask keeps the offset's remainder. -/
theorem and_opBytes_pred : off &&& BitVec.ofNat 64 (opBytes z - 1) = BitVec.ofNat 64 (off.toNat % opBytes z) := by
  obtain ⟨a, ha, hz⟩ := opBytes_pow z
  refine BitVec.eq_of_toNat_eq ?_
  have hlt : off.toNat % 2 ^ a < 2 ^ 64 := (Nat.mod_le _ _).trans_lt off.isLt
  rw [hz, and_pred_toNat (by omega), BitVec.toNat_ofNat, Nat.mod_eq_of_lt hlt]

/-- A call is widened if it is too short or not aligned (R251). -/
theorem mustWiden_iff : mustWiden (opBytes z) off n = true ↔ n < opBytes z ∨ off.toNat % opBytes z ≠ 0 := by
  have hlt : off.toNat % opBytes z < 2 ^ 64 := (Nat.mod_le _ _).trans_lt off.isLt
  have hzero : BitVec.ofNat 64 (off.toNat % opBytes z) = 0 ↔ off.toNat % opBytes z = 0 := by
    rw [← BitVec.toNat_inj, BitVec.toNat_ofNat, Nat.mod_eq_of_lt hlt]
    rfl
  simp only [mustWiden, and_opBytes_pred, Bool.or_eq_true, decide_eq_true_eq, bne_iff_ne, ne_eq, hzero]

theorem mustWiden_eq_false_iff : mustWiden (opBytes z) off n = false ↔ opBytes z ≤ n ∧ off.toNat % opBytes z = 0 := by
  rw [← Bool.not_eq_true, mustWiden_iff, not_or, not_lt, not_not]

theorem offDiff_opBytes : offDiff (opBytes z) off = off.toNat % opBytes z := by
  obtain ⟨a, ha, hz⟩ := opBytes_pow z
  rw [hz, offDiff_eq (by omega)]

theorem alignedOff_eq : alignedOff (opBytes z) off = off - BitVec.ofNat 64 (off.toNat % opBytes z) := by
  rw [← and_opBytes_pred, ← sub_alignedOff, sub_sub_self]

theorem windowSize_eq : windowSize (opBytes z) off n = max (opBytes z) (pow2ceil (off.toNat % opBytes z + n)) := by
  rw [windowSize, offDiff_opBytes]

/-- A window is never widened again (R256). -/
theorem window_not_widened (m : Nat) : mustWiden m (alignedOff m off) (windowSize m off n) = false := by
  simp [mustWiden, alignedOff_and, windowSize]

theorem opBytes_le : opBytes z ≤ 16 := by cases z <;> decide

theorem pow2ceil_le_pow_iff {c : Nat} : pow2ceil n ≤ 2 ^ c ↔ n ≤ 2 ^ c := by
  unfold pow2ceil
  have hpos := Nat.one_le_two_pow (n := c)
  split
  · omega
  · next h =>
    rw [Nat.pow_le_pow_iff_right (by omega), Nat.succ_le_iff, Nat.log2_lt (by omega)]
    omega

/-- The window fits the scratch exactly if the bytes from the aligned offset on do (R257). -/
theorem windowSize_le_scratch_iff : windowSize (opBytes z) off n ≤ mmioScratch ↔ off.toNat % opBytes z + n ≤ 16 := by
  rw [windowSize_eq, mmioScratch, max_le_iff, and_iff_right (opBytes_le z)]
  exact pow2ceil_le_pow_iff _ (c := 4)

/-- An offset that is aligned has, some bytes on, their remainder. -/
theorem add_toNat_mod {off : Word} (h : off.toNat % opBytes z = 0) (j : Nat) :
    (off + BitVec.ofNat 64 j).toNat % opBytes z = j % opBytes z := by
  cases z <;> simp only [opBytes, BitVec.toNat_add, BitVec.toNat_ofNat] at h ⊢ <;> omega

end Window

/-! #### The cases of a call (R251) -/

section Cases

variable {v : View} {k : Nat} {d : Device} {depth : Nat} {dir : Dir} {off : Word} {n : Nat} {buf : List Byte}

/-- The one callback of a direct call (R255). -/
def callback (v : View) (k : Nat) (d : Device) (dir : Dir) (off : Word) (n : Nat) (buf : List Byte) :
    Prog (Option (List Byte)) :=
  match dir with
  | .rd => devRead v k d off n
  | .wr => devWrite v k d off buf

theorem mmio_tooWide (hw : mustWiden (opBytes d.minOp) off n = true) (hs : mmioScratch < windowSize (opBytes d.minOp) off n) :
    mmio v k d (depth + 1) dir off n buf = .refused .mmioWindow := by
  simp only [mmio, hw, if_true, gt_iff_lt, hs]

theorem mmio_widen_rd (hw : mustWiden (opBytes d.minOp) off n = true) (hs : windowSize (opBytes d.minOp) off n ≤ mmioScratch) :
    mmio v k d (depth + 1) .rd off n buf =
      (mmio v k d depth .rd (alignedOff (opBytes d.minOp) off) (windowSize (opBytes d.minOp) off n) []).bind fun r =>
        .done (r.map fun tmp => (tmp.drop (offDiff (opBytes d.minOp) off)).take n) := by
  rw [mmio, if_pos hw, if_neg (not_lt.2 hs)]
  refine congrArg _ (funext fun r => ?_)
  cases r <;> rfl

theorem mmio_widen_wr (hw : mustWiden (opBytes d.minOp) off n = true) (hs : windowSize (opBytes d.minOp) off n ≤ mmioScratch) :
    mmio v k d (depth + 1) .wr off n buf =
      (mmio v k d depth .rd (alignedOff (opBytes d.minOp) off) (windowSize (opBytes d.minOp) off n) []).bind fun r =>
        r.elim (.done none) fun tmp => mmio v k d depth .wr (alignedOff (opBytes d.minOp) off)
          (windowSize (opBytes d.minOp) off n) (splice tmp (offDiff (opBytes d.minOp) off) buf) := by
  rw [mmio, if_pos hw, if_neg (not_lt.2 hs)]
  refine congrArg _ (funext fun r => ?_)
  cases r <;> rfl

theorem mmio_split (hw : mustWiden (opBytes d.minOp) off n = false) (hM : opBytes d.maxOp < n) :
    mmio v k d (depth + 1) dir off n buf =
      (mmio v k d depth dir off (n / 2) (buf.take (n / 2))).bind fun r => r.elim (.done none) fun lo =>
        (mmio v k d depth dir (off + BitVec.ofNat 64 (n / 2)) (n - n / 2) (buf.drop (n / 2))).bind fun r =>
          .done (r.map (lo ++ ·)) := by
  simp only [mmio, hw, Bool.false_eq_true, if_false, gt_iff_lt, hM, if_true]
  refine congrArg _ (funext fun r => ?_)
  cases r with
  | none => rfl
  | some lo =>
    refine congrArg (Prog.bind _) (funext fun r => ?_)
    cases r <;> rfl

theorem mmio_direct (hw : mustWiden (opBytes d.minOp) off n = false) (hM : n ≤ opBytes d.maxOp) :
    mmio v k d (depth + 1) dir off n buf = callback v k d dir off n buf := by
  simp only [mmio, hw, Bool.false_eq_true, if_false, gt_iff_lt, not_lt.2 hM]
  cases dir <;> rfl

end Cases

/-! #### The calls that end (R256, R257) -/

section Ends

variable {v : View} {k : Nat} {d : Device} {depth : Nat} {dir : Dir} {off : Word} {n : Nat} {buf : List Byte}

/-- The recursion of the calls that the adapter ends within a depth, case by case (R251). -/
inductive Adapts (d : Device) : Nat → Word → Nat → Prop
  | widen {depth : Nat} {off : Word} {n : Nat} : mustWiden (opBytes d.minOp) off n = true →
      windowSize (opBytes d.minOp) off n ≤ mmioScratch →
      Adapts d depth (alignedOff (opBytes d.minOp) off) (windowSize (opBytes d.minOp) off n) → Adapts d (depth + 1) off n
  | split {depth : Nat} {off : Word} {n : Nat} : mustWiden (opBytes d.minOp) off n = false → opBytes d.maxOp < n → n ≤ 16 →
      Adapts d depth off (n / 2) → Adapts d depth (off + BitVec.ofNat 64 (n / 2)) (n - n / 2) → Adapts d (depth + 1) off n
  | direct {depth : Nat} {off : Word} {n : Nat} : mustWiden (opBytes d.minOp) off n = false → n ≤ opBytes d.maxOp →
      Adapts d (depth + 1) off n

/-- A call is refused for its window (R257). -/
abbrev TooWide (d : Device) (off : Word) (n : Nat) : Prop :=
  (n < opBytes d.minOp ∨ off.toNat % opBytes d.minOp ≠ 0) ∧ 16 < off.toNat % opBytes d.minOp + n

theorem tooWide_iff : TooWide d off n ↔
    mustWiden (opBytes d.minOp) off n = true ∧ mmioScratch < windowSize (opBytes d.minOp) off n := by
  rw [TooWide, ← mustWiden_iff, ← not_le, ← not_le, windowSize_le_scratch_iff]

/-- With enough depth a call of at most 16 bytes whose window fits ends: its own window is not widened again, and the window of a
half reaches no further than the call. -/
theorem adapts_of_depthOk (h : DepthOk d depth off n) (hn : n ≤ 16) (hfits : ¬ TooWide d off n) : Adapts d depth off n := by
  induction depth generalizing off n with
  | zero => obtain ⟨_, _, _, _, _, _, ⟨j, -, hj⟩ | ⟨_, _, _, _, _, h1⟩⟩ := h <;> omega
  | succ depth ih =>
    by_cases hw : mustWiden (opBytes d.minOp) off n = true
    · have hs : windowSize (opBytes d.minOp) off n ≤ mmioScratch := not_lt.1 fun hs => hfits (tooWide_iff.2 ⟨hw, hs⟩)
      refine .widen hw hs (ih (h.widen hw (not_lt.2 hs)) hs fun hwide => ?_)
      have hagain := (tooWide_iff.1 hwide).1
      rw [window_not_widened] at hagain
      cases hagain
    · rw [Bool.not_eq_true] at hw
      by_cases hM : opBytes d.maxOp < n
      · obtain ⟨hlow, hhigh⟩ := h.split hM
        obtain ⟨-, halign⟩ := (mustWiden_eq_false_iff _ _ _).1 hw
        refine .split hw hM hn (ih hlow (by omega) fun hwide => ?_) (ih hhigh (by omega) fun hwide => ?_)
        · have hpast := hwide.2
          omega
        · have hpast := hwide.2
          rw [add_toNat_mod _ halign] at hpast
          have := Nat.mod_le (n / 2) (opBytes d.minOp)
          omega
      · exact .direct hw (not_lt.1 hM)

/-- Every adapter call of at most 16 bytes on a device with legal sizes ends, unless it is refused for its window. -/
theorem adapts_of_fits (hd : opBytes d.minOp ≤ opBytes d.maxOp) (hn : n ≤ 16) (hfits : ¬ TooWide d off n) :
    Adapts d mmioDepth off n :=
  adapts_of_depthOk (mmioDepth_ok hd off hn) hn hfits

/-- No path of a program stops. -/
abbrev Prog.Ends {α : Type} (p : Prog α) : Prop :=
  p.Sat (fun _ _ => True) (fun _ => True) (fun _ => False) (fun _ => False) (fun _ => True)

theorem Prog.Ends.run_eq_done {α : Type} {p : Prog α} (h : p.Ends) (s : State) : ∃ a t, p.run s = .done a t := by
  induction p generalizing s with
  | done a => exact ⟨a, s, rfl⟩
  | fault e => exact h.elim
  | refused e => exact h.elim
  | op x k ih =>
    rw [run_op]
    exact ih _ (h.2 _ trivial) _

theorem callback_ends : (callback v k d dir off n buf).Ends := by
  cases dir <;> exact ⟨trivial, fun _ _ => ⟨trivial, fun _ _ => trivial⟩⟩

theorem Adapts.ends (h : Adapts d depth off n) : (mmio v k d depth dir off n buf).Ends := by
  induction h generalizing dir buf with
  | widen hw hs _ ih =>
    cases dir with
    | rd =>
      rw [mmio_widen_rd hw hs]
      exact ih.bind fun _ _ => trivial
    | wr =>
      rw [mmio_widen_wr hw hs]
      refine ih.bind fun r _ => ?_
      cases r with
      | none => trivial
      | some tmp => exact ih
  | split hw hM _ _ _ ihlow ihhigh =>
    rw [mmio_split hw hM]
    refine ihlow.bind fun r _ => ?_
    cases r with
    | none => trivial
    | some lo => exact ihhigh.bind fun _ _ => trivial
  | direct hw hM =>
    rw [mmio_direct hw hM]
    exact callback_ends

end Ends

/-! #### MMIO.READ and MMIO.WRITE (R259, R260) -/

section Commands

variable {v : View} {s : State} {d : Device} {dir : Dir} {off dev : Word} {n : Nat} {buf : List Byte}

theorem exec_mmioRead (s : State) (off dev : Word) (n : Nat) :
    exec (.mmioRead off dev n) s = finish ((mmioCommand s.view .rd off dev n []).run s) := rfl

theorem exec_mmioWrite (s : State) (off dev : Word) (bs : List Byte) :
    exec (.mmioWrite off dev bs) s = finish ((mmioCommand s.view .wr off dev bs.length bs).run s) := rfl

theorem mmioCommand_noDevice (h : v.params.devices[dev.toNat]? = none) :
    mmioCommand v dir off dev n buf = .refused .noSuchDevice := by
  simp only [mmioCommand, mmioCall, h, Prog.refused_bind]

theorem mmioCommand_device (h : v.params.devices[dev.toNat]? = some d) : mmioCommand v dir off dev n buf =
    (mmio v dev.toNat d mmioDepth dir off n buf).bind fun r => .done (response r) := by
  simp only [mmioCommand, mmioCall, h]

theorem mmioCommand_tooWide (h : v.params.devices[dev.toNat]? = some d) (hwide : TooWide d off n) :
    mmioCommand v dir off dev n buf = .refused .mmioWindow := by
  obtain ⟨hw, hs⟩ := tooWide_iff.1 hwide
  rw [mmioCommand_device h, mmioDepth, mmio_tooWide hw hs, Prog.refused_bind]

/-- An adapter command that is not refused returns its response, whatever other agents do inside it. -/
theorem mmioCommand_answers (hp : paramsOk s.params = true) (hd : s.params.devices[dev.toNat]? = some d) (hn : n ≤ 16)
    (hb : DirBuf dir n buf) (hfits : ¬ TooWide d off n) :
    ∃ r t, finish ((mmioCommand s.view dir off dev n buf).run s) = .next t ∧ Returns s t (response r) ∧
      ∀ data, r = some data → data.length = if dir = .rd then n else 0 := by
  have hsizes : opBytes d.minOp ≤ opBytes d.maxOp := by
    simp only [paramsOk, Bool.and_eq_true] at hp
    obtain ⟨⟨-, hdevices⟩, -⟩ := hp
    exact devicesOk_sizes hdevices d (List.mem_of_getElem? hd)
  have hends : (mmioCommand s.view dir off dev n buf).Ends := by
    rw [mmioCommand_device hd]
    exact (adapts_of_fits hsizes hn hfits).ends.bind fun _ _ => trivial
  obtain ⟨x, u, hrun⟩ := hends.run_eq_done s
  obtain ⟨log, htr, -⟩ := run_among hrun
  obtain ⟨r, d', rfl, -, htr⟩ := mmioCommand_trace htr
  obtain ⟨-, -, -, hlen⟩ := mmio_trace (K := fun _ => True) hb htr
  obtain ⟨_, ran⟩ := mmioCommand_ran hb hrun
  exact ⟨r, u.give (response r), congrArg finish hrun, ran.returns _, hlen⟩

end Commands

/-- Settles O56: a window that does not fit is refused at once (`mmioCommand_tooWide`); every other call ends, by induction on the
adapter's recursion (`mmioCommand_answers`). -/
theorem mmioEnds : Obligations.MmioEnds := by
  intro s off dev hp
  refine ⟨fun hnone => ⟨fun n => ?_, fun bs => ?_⟩, fun d hd => ⟨fun n _ hn => ⟨fun hwide => ?_, fun hfits => ?_⟩,
    fun bs _ hn => ⟨fun hwide => ?_, fun hfits => ?_⟩⟩⟩
  · rw [exec_mmioRead, mmioCommand_noDevice hnone]
    rfl
  · rw [exec_mmioWrite, mmioCommand_noDevice hnone]
    rfl
  · rw [exec_mmioRead, mmioCommand_tooWide hd hwide]
    rfl
  · exact mmioCommand_answers hp hd hn (by simp [DirBuf]) hfits
  · rw [exec_mmioWrite, mmioCommand_tooWide hd hwide]
    rfl
  · obtain ⟨r, t, hexec, hreturns, -⟩ := mmioCommand_answers hp hd hn (fun _ => rfl) hfits
    exact ⟨r, t, hexec, hreturns⟩

/-! #### Calls that nobody disturbs -/

section Undisturbed

variable {v : View} {s t : State} {k : Nat} {d : Device} {depth : Nat} {dir : Dir} {off dev : Word} {n : Nat} {buf : List Byte}
  {a a' : DevAnswer} {rest : List DevAnswer}

/-- The state with the device answers that the run has yet to give. -/
def State.withAnswers (s : State) (as : List DevAnswer) : State := { s with env := { s.env with devAnswers := as } }

@[simp] theorem withAnswers_record (es : List Event) (as : List DevAnswer) :
    (s.record es).withAnswers as = (s.withAnswers as).record es := rfl
@[simp] theorem withAnswers_withAnswers (as bs : List DevAnswer) : (s.withAnswers as).withAnswers bs = s.withAnswers bs := rfl

/-- A callback as its device sees it (R258). -/
def callOf (k : Nat) (d : Device) (off : Word) (n : Nat) (buf : List Byte) : Dir → DevCall
  | .rd => { dev := k, ctx := d.ctx, off := off, size := n, bytes := none }
  | .wr => { dev := k, ctx := d.ctx, off := off, size := buf.length, bytes := some buf }

/-- The event of a callback (R255). -/
def eventOf (hart k : Nat) (off : Word) (n : Nat) (buf : List Byte) : Dir → Event
  | .rd => .devRead hart k off n
  | .wr => .devWrite hart k off buf.length buf

/-- What a callback returns on an answer: the bytes of a read, nothing of a write. -/
def dataOf (a : DevAnswer) (n : Nat) : Dir → Option (List Byte)
  | .rd => if a.ok then some (answerBytes a n) else none
  | .wr => if a.ok then some [] else none

theorem response_dataOf_rd : response (dataOf a n .rd) = if a.ok then .command true (answerBytes a n) else .command false [] := by
  cases h : a.ok <;> simp [dataOf, h, response]

theorem response_dataOf_wr : response (dataOf a n .wr) = .command a.ok [] := by
  cases h : a.ok <;> simp [dataOf, h, response]

/-- A callback is one draw of the device's answer and one event. -/
theorem callback_undisturbed (h : deviceDraw (callOf k d off n buf dir) s = (a, t)) :
    (callback v k d dir off n buf).runOn perform s = .done (dataOf a n dir) (t.record [eventOf v.hart k off n buf dir]) := by
  have hrun : (callback v k d dir off n buf).runOn perform s =
      .done (dataOf (deviceDraw (callOf k d off n buf dir) s).1 n dir)
        ((deviceDraw (callOf k d off n buf dir) s).2.record [eventOf v.hart k off n buf dir]) := by cases dir <;> rfl
  rw [hrun, h]

/-- The run's next answer is the device's. -/
theorem deviceDraw_listed (h : s.env.devAnswers = a :: rest) (call : DevCall) : deviceDraw call s = (a, s.withAnswers rest) := by
  simp only [deviceDraw, h, State.withAnswers]

/-- With no answer listed the device's is a free value (log entry 7). -/
theorem deviceDraw_free (h : s.env.devAnswers = []) (call : DevCall) :
    ∃ a, deviceDraw call s = (a, { s with env := { s.env with draws := s.env.draws + 1 } }) := by
  simp only [deviceDraw, h]
  exact ⟨_, rfl⟩

theorem callback_listed (h : s.env.devAnswers = a :: rest) : (callback v k d dir off n buf).runOn perform s =
    .done (dataOf a n dir) ((s.withAnswers rest).record [eventOf v.hart k off n buf dir]) :=
  callback_undisturbed (deviceDraw_listed h _)

/-- An adapter command that nobody disturbs runs its accesses one after another. -/
theorem mmioCommand_undisturbed (hq : Quiet s) (hd : s.params.devices[dev.toNat]? = some d) :
    finish ((mmioCommand s.view dir off dev n buf).run s) =
      finish (((mmio s.view dev.toNat d mmioDepth dir off n buf).runOn perform s).bind fun r t => .done (response r) t) := by
  rw [mmioCommand_device hd, run_quiet _ hq, Prog.runOn_bind]
  rfl

/-- A direct call is one callback (R255). -/
theorem mmioCommand_direct (hq : Quiet s) (hd : s.params.devices[dev.toNat]? = some d)
    (halign : off.toNat % opBytes d.minOp = 0) (hm : opBytes d.minOp ≤ n) (hM : n ≤ opBytes d.maxOp)
    (hdraw : deviceDraw (callOf dev.toNat d off n buf dir) s = (a, t)) :
    finish ((mmioCommand s.view dir off dev n buf).run s) =
      .next ((t.record [eventOf s.cur dev.toNat off n buf dir]).give (response (dataOf a n dir))) := by
  rw [mmioCommand_undisturbed hq hd, mmioDepth, mmio_direct ((mustWiden_eq_false_iff _ _ _).2 ⟨hm, halign⟩) hM,
    callback_undisturbed hdraw]
  rfl

end Undisturbed

/-- Settles O57: such a call is one callback (`mmioCommand_direct`), answered by the run's list or freely. -/
theorem mmioDirect : Obligations.MmioDirect := by
  intro s off dev d hq hd halign
  refine ⟨fun n hm hM => ⟨fun a rest ha => ?_, fun ha => ?_⟩, fun bs hm hM => ⟨fun a rest ha => ?_, fun ha => ?_⟩⟩
  · rw [exec_mmioRead, mmioCommand_direct hq hd halign hm hM (deviceDraw_listed ha _), response_dataOf_rd]
    rfl
  · obtain ⟨a, hdraw⟩ := deviceDraw_free ha (callOf dev.toNat d off n [] .rd)
    exact ⟨a, by rw [exec_mmioRead, mmioCommand_direct hq hd halign hm hM hdraw, response_dataOf_rd]; rfl⟩
  · rw [exec_mmioWrite, mmioCommand_direct hq hd halign hm hM (deviceDraw_listed ha _), response_dataOf_wr]
    rfl
  · obtain ⟨a, hdraw⟩ := deviceDraw_free ha (callOf dev.toNat d off bs.length bs .wr)
    exact ⟨a, by rw [exec_mmioWrite, mmioCommand_direct hq hd halign hm hM hdraw, response_dataOf_wr]; rfl⟩

section Widen

/-- A call that is widened to one device operation: a window of `w` bytes at `base`, the call's bytes from `diff` on (R252). -/
structure OneWindow (d : Device) (off : Word) (n : Nat) (base : Word) (w diff : Nat) : Prop where
  widened : mustWiden (opBytes d.minOp) off n = true
  base_eq : alignedOff (opBytes d.minOp) off = base
  size_eq : windowSize (opBytes d.minOp) off n = w
  diff_eq : offDiff (opBytes d.minOp) off = diff
  size_le : w ≤ opBytes d.maxOp

variable {v : View} {s : State} {k depth : Nat} {d : Device} {dir : Dir} {off dev base : Word} {n w diff : Nat}
  {buf : List Byte} {a a' : DevAnswer} {rest : List DevAnswer}

/-- The window is read and written by direct calls (R253). -/
theorem OneWindow.direct (h : OneWindow d off n base w diff) :
    mmio v k d (depth + 1) dir base w buf = callback v k d dir base w buf := by
  obtain ⟨-, rfl, rfl, -, hM⟩ := h
  exact mmio_direct (window_not_widened _ _ _) hM

theorem OneWindow.read (h : OneWindow d off n base w diff) : mmio v k d (depth + 2) .rd off n buf =
    (callback v k d .rd base w []).bind fun r => .done (r.map fun tmp => (tmp.drop diff).take n) := by
  rw [mmio_widen_rd h.widened (h.size_eq.trans_le (h.size_le.trans (opBytes_le _))), h.base_eq, h.size_eq, h.diff_eq, h.direct]

theorem OneWindow.write (h : OneWindow d off n base w diff) : mmio v k d (depth + 2) .wr off n buf =
    (callback v k d .rd base w []).bind fun r =>
      r.elim (.done none) fun tmp => callback v k d .wr base w (splice tmp diff buf) := by
  rw [mmio_widen_wr h.widened (h.size_eq.trans_le (h.size_le.trans (opBytes_le _))), h.base_eq, h.size_eq, h.diff_eq]
  simp only [h.direct]

/-- A widened read is one read of the window (R252). -/
theorem OneWindow.mmioCommand_read (h : OneWindow d off n base w diff) (hq : Quiet s)
    (hd : s.params.devices[dev.toNat]? = some d) (ha : s.env.devAnswers = a :: rest) :
    finish ((mmioCommand s.view .rd off dev n buf).run s) =
      .next (((s.withAnswers rest).record [.devRead s.cur dev.toNat base w]).give
        (if a.ok then .command true (((answerBytes a w).drop diff).take n) else .command false [])) := by
  rw [mmioCommand_undisturbed hq hd, mmioDepth, h.read, Prog.runOn_bind, callback_listed ha]
  cases hok : a.ok <;> simp only [dataOf, hok] <;> rfl

/-- A widened write whose window can not be read fails there (R253). -/
theorem OneWindow.mmioCommand_write_fails (h : OneWindow d off n base w diff) (hq : Quiet s)
    (hd : s.params.devices[dev.toNat]? = some d) (ha : s.env.devAnswers = a :: rest) (hok : a.ok = false) :
    finish ((mmioCommand s.view .wr off dev n buf).run s) =
      .next (((s.withAnswers rest).record [.devRead s.cur dev.toNat base w]).give (.command false [])) := by
  rw [mmioCommand_undisturbed hq hd, mmioDepth, h.write, Prog.runOn_bind, callback_listed ha, dataOf, hok]
  rfl

/-- A widened write reads the window and writes it back with the caller's bytes in it (R253). -/
theorem OneWindow.mmioCommand_write (h : OneWindow d off n base w diff) (hq : Quiet s)
    (hd : s.params.devices[dev.toNat]? = some d) (ha : s.env.devAnswers = a :: a' :: rest) (hok : a.ok = true)
    (hb : buf.length = n) : finish ((mmioCommand s.view .wr off dev n buf).run s) =
      .next (((s.withAnswers rest).record [.devRead s.cur dev.toNat base w,
          .devWrite s.cur dev.toNat base w (splice (answerBytes a w) diff buf)]).give (.command a'.ok [])) := by
  have hlen : (splice (answerBytes a w) diff buf).length = w := by
    have hge := windowSize_ge (opBytes d.minOp) off n
    rw [h.diff_eq, h.size_eq] at hge
    rw [splice_length (by rw [answerBytes_length, hb]; exact hge), answerBytes_length]
  have hread : dataOf a w .rd = some (answerBytes a w) := by simp [dataOf, hok]
  rw [mmioCommand_undisturbed hq hd, mmioDepth, h.write, Prog.runOn_bind, callback_listed ha, RunOf.done_bind, hread,
    Option.elim_some, callback_listed (rest := rest) rfl, RunOf.done_bind, response_dataOf_wr]
  simp only [withAnswers_record, withAnswers_withAnswers, record_record, eventOf, hlen, view_hart]
  rfl

end Widen

/-- Settles O58: the window is one device operation (`OneWindow`), read for the bytes asked for, or read and written back. -/
theorem mmioWiden : Obligations.MmioWiden := by
  intro s off dev d a rest hq hd ha diff window widens base
  have hcall : ∀ n, widens n → OneWindow d off n base (window n) diff := fun n ⟨_, hwiden, hM⟩ =>
    ⟨(mustWiden_iff _ _ _).2 hwiden, alignedOff_eq _ _, windowSize_eq _ _ _, offDiff_opBytes _ _, hM⟩
  refine ⟨fun n hn => ?_, fun bs hn => ⟨fun hok => ?_, fun a' rest' hok hrest => ?_⟩⟩
  · exact (hcall n hn).mmioCommand_read hq hd ha
  · exact (hcall _ hn).mmioCommand_write_fails hq hd ha hok
  · exact (hcall _ hn).mmioCommand_write hq hd (ha.trans (by rw [hrest])) hok rfl

section Split

variable {v : View} {s : State} {k depth : Nat} {d : Device} {dir : Dir} {off dev : Word} {n : Nat} {buf : List Byte}
  {a a' : DevAnswer} {rest : List DevAnswer}

/-- A call of more bytes than one device operation has, both of whose halves are direct calls (R254). -/
structure DirectHalves (d : Device) (off : Word) (n : Nat) : Prop where
  aligned       : off.toNat % opBytes d.minOp = 0
  too_long      : opBytes d.maxOp < n
  upper_le      : n - n / 2 ≤ opBytes d.maxOp
  upper_aligned : n / 2 % opBytes d.minOp = 0
  le_lower      : opBytes d.minOp ≤ n / 2

/-- Such a call is the lower half's callback, then the upper half's (R254). -/
theorem DirectHalves.mmio_eq (h : DirectHalves d off n) : mmio v k d (depth + 2) dir off n buf =
    (callback v k d dir off (n / 2) (buf.take (n / 2))).bind fun r => r.elim (.done none) fun lo =>
      (callback v k d dir (off + BitVec.ofNat 64 (n / 2)) (n - n / 2) (buf.drop (n / 2))).bind fun r =>
        .done (r.map (lo ++ ·)) := by
  obtain ⟨halign, hM, hupper, hmod, hlower⟩ := h
  have hmod' : (off + BitVec.ofNat 64 (n / 2)).toNat % opBytes d.minOp = 0 := by rw [add_toNat_mod _ halign, hmod]
  rw [mmio_split ((mustWiden_eq_false_iff _ _ _).2 ⟨by omega, halign⟩) hM,
    mmio_direct ((mustWiden_eq_false_iff _ _ _).2 ⟨hlower, halign⟩) (by omega),
    mmio_direct ((mustWiden_eq_false_iff _ _ _).2 ⟨by omega, hmod'⟩) hupper]

/-- The upper half's callback is skipped if the lower half's fails; the lower half's stays performed if the upper half's fails. -/
theorem DirectHalves.mmioCommand_eq (h : DirectHalves d off n) (hq : Quiet s) (hd : s.params.devices[dev.toNat]? = some d)
    (ha : s.env.devAnswers = a :: a' :: rest) : finish ((mmioCommand s.view dir off dev n buf).run s) =
      if a.ok then
        .next (((s.withAnswers rest).record
            [eventOf s.cur dev.toNat off (n / 2) (buf.take (n / 2)) dir,
              eventOf s.cur dev.toNat (off + BitVec.ofNat 64 (n / 2)) (n - n / 2) (buf.drop (n / 2)) dir]).give
          (response ((dataOf a (n / 2) dir).bind fun lo => (dataOf a' (n - n / 2) dir).map (lo ++ ·))))
      else
        .next (((s.withAnswers (a' :: rest)).record [eventOf s.cur dev.toNat off (n / 2) (buf.take (n / 2)) dir]).give
          (.command false [])) := by
  rw [mmioCommand_undisturbed hq hd, mmioDepth, h.mmio_eq, Prog.runOn_bind, callback_listed ha, RunOf.done_bind]
  cases hok : a.ok with
  | false =>
    have hnone : dataOf a (n / 2) dir = none := by cases dir <;> simp [dataOf, hok]
    rw [hnone]
    rfl
  | true =>
    obtain ⟨lo, hlo⟩ : ∃ lo, dataOf a (n / 2) dir = some lo := by cases dir <;> exact ⟨_, by rw [dataOf, hok]; rfl⟩
    rw [hlo, Option.elim_some, Prog.runOn_bind, callback_listed (rest := rest) rfl]
    simp only [withAnswers_record, withAnswers_withAnswers, record_record]
    rfl

/-- The result of a read of two halves is the upper half's after the lower half's bytes. -/
theorem response_halves_rd {m l : Nat} (hok : a.ok = true) :
    response ((dataOf a m .rd).bind fun lo => (dataOf a' l .rd).map (lo ++ ·)) =
      if a'.ok then .command true (answerBytes a m ++ answerBytes a' l) else .command false [] := by
  rw [dataOf, hok]
  cases hok' : a'.ok <;> simp only [dataOf, hok'] <;> rfl

theorem response_halves_wr {m l : Nat} (hok : a.ok = true) :
    response ((dataOf a m .wr).bind fun lo => (dataOf a' l .wr).map (lo ++ ·)) = .command a'.ok [] := by
  rw [dataOf, hok]
  cases hok' : a'.ok <;> simp only [dataOf, hok'] <;> rfl

end Split

/-- Settles O59: both halves are direct calls (`DirectHalves`), one after the other. -/
theorem mmioSplit : Obligations.MmioSplit := by
  intro s off dev d a a' rest hq hd ha halign
  refine ⟨fun n ⟨hM, hupper, hmod, hlower⟩ => ?_, fun bs ⟨hM, hupper, hmod, hlower⟩ => ?_⟩
  · have h : DirectHalves d off n := ⟨halign, hM, hupper, hmod, hlower⟩
    rw [exec_mmioRead, h.mmioCommand_eq hq hd ha]
    by_cases hok : a.ok = true
    · rw [if_pos hok, if_pos hok, response_halves_rd hok]
      rfl
    · rw [if_neg hok, if_neg hok]
      rfl
  · have h : DirectHalves d off bs.length := ⟨halign, hM, hupper, hmod, hlower⟩
    have htake : (bs.take (bs.length / 2)).length = bs.length / 2 := List.length_take_of_le (Nat.div_le_self _ _)
    rw [exec_mmioWrite, h.mmioCommand_eq hq hd ha]
    simp only [eventOf, htake, List.length_drop]
    by_cases hok : a.ok = true
    · rw [if_pos hok, if_pos hok, response_halves_wr hok]
      rfl
    · rw [if_neg hok, if_neg hok]
      rfl

/-! #### A device that is a store of bytes (R262) -/

section Store

variable (f : Word → Byte) (off : Word)

@[simp] theorem storeBytes_length (n : Nat) : (storeBytes f off n).length = n := by simp [storeBytes]

@[simp] theorem storeBytes_getElem {n i : Nat} (hi : i < (storeBytes f off n).length) :
    (storeBytes f off n)[i] = f (off + BitVec.ofNat 64 i) := by simp [storeBytes]

/-- The bytes of a span that lies in another, some bytes on. -/
theorem storeBytes_drop_take {diff n w : Nat} (h : diff + n ≤ w) :
    ((storeBytes f off w).drop diff).take n = storeBytes f (off + BitVec.ofNat 64 diff) n := by
  refine List.ext_getElem (by simp; omega) fun i _ _ => ?_
  rw [List.getElem_take, List.getElem_drop, storeBytes_getElem, storeBytes_getElem, BitVec.ofNat_add, BitVec.add_assoc]

theorem storeBytes_append (n m : Nat) :
    storeBytes f off n ++ storeBytes f (off + BitVec.ofNat 64 n) m = storeBytes f off (n + m) := by
  refine List.ext_getElem (by simp) fun i _ _ => ?_
  rw [List.getElem_append]
  split
  · rw [storeBytes_getElem, storeBytes_getElem]
  · next h =>
    rw [storeBytes_length] at h
    rw [storeBytes_getElem, storeBytes_getElem, storeBytes_length, BitVec.add_assoc, ← BitVec.ofNat_add]
    congr 3
    omega

/-- The store answers a read of at most 16 bytes with its bytes. -/
theorem answerBytes_store {n : Nat} (hn : n ≤ 16) :
    answerBytes { ok := true, bytes := BitVec.ofNat 128 (leNat (storeBytes f off n)) } n = storeBytes f off n := by
  have hlt : leNat (storeBytes f off n) < 2 ^ 128 := by
    have hle := leNat_lt (storeBytes f off n)
    rw [storeBytes_length] at hle
    exact hle.trans_le (Nat.pow_le_pow_right (n := 256) (by decide) hn)
  refine List.ext_getElem (by simp) fun i _ hi => BitVec.eq_of_toNat_eq ?_
  rw [← leNat_byte hi]
  simp only [answerBytes, List.getElem_map, List.getElem_range, BitVec.extractLsb'_toNat, BitVec.toNat_ofNat,
    Nat.mod_eq_of_lt hlt, Nat.shiftRight_eq_div_pow, pow_mul]
  rfl

/-- The distance of an address from a later start, in integers. -/
theorem sub_add_toNat (x : Word) {j : Nat} (hj : j ≤ 16) : (x - (off + BitVec.ofNat 64 j)).toNat =
    if j ≤ (x - off).toNat then (x - off).toNat - j else 2 ^ 64 + (x - off).toNat - j := by
  have hlt := (x - off).isLt
  have hmod : j % 2 ^ 64 = j := Nat.mod_eq_of_lt (by omega)
  rw [sub_add_eq_sub_sub, BitVec.toNat_sub, BitVec.toNat_ofNat, hmod]
  split <;> omega

/-- A store's own bytes, where they are listed, are what it holds. -/
theorem storeBytes_getD (x : Word) (n : Nat) : (storeBytes f off n).getD (x - off).toNat (f x) = f x := by
  by_cases h : (x - off).toNat < n
  · rw [List.getD_eq_getElem _ _ (by simpa using h), storeBytes_getElem, BitVec.ofNat_toNat, BitVec.setWidth_eq,
      add_sub_cancel]
  · exact List.getD_eq_default _ _ (by simpa using h)

/-- A spliced list is the buffer from `diff` on, and the old list around it. -/
theorem splice_getD {tmp bs : List Byte} {diff : Nat} (h : diff + bs.length ≤ tmp.length) (i : Nat) (b : Byte) :
    (splice tmp diff bs).getD i b = if diff ≤ i ∧ i < diff + bs.length then bs.getD (i - diff) b else tmp.getD i b := by
  have htake : (tmp.take diff).length = diff := by rw [List.length_take]; omega
  rw [splice, List.append_assoc]
  simp only [List.getD_eq_getElem?_getD]
  rcases lt_or_ge i diff with hi | hi
  · rw [if_neg (by omega), List.getElem?_append_left (by omega), List.getElem?_take_of_lt hi]
  · rw [List.getElem?_append_right (by omega), htake]
    by_cases hj : i < diff + bs.length
    · rw [if_pos ⟨hi, hj⟩, List.getElem?_append_left (by omega)]
    · rw [if_neg (by omega), List.getElem?_append_right (by omega), List.getElem?_drop]
      congr 2
      omega

/-- A write of the window, with the store's own bytes around the caller's, is the write of the caller's bytes (R253). -/
theorem storeWrite_splice {diff w : Nat} {bs : List Byte} (h : diff + bs.length ≤ w) (hw : w ≤ 16) :
    storeWrite f off (splice (storeBytes f off w) diff bs) = storeWrite f (off + BitVec.ofNat 64 diff) bs := by
  funext x
  have hx := sub_add_toNat off x (j := diff) (by omega)
  rw [storeWrite, storeWrite, splice_getD (by simpa using h), storeBytes_getD]
  split
  · next hin => rw [hx, if_pos hin.1]
  · next hout =>
    refine (List.getD_eq_default _ _ ?_).symm
    rw [hx]
    split <;> omega

/-- A write is the write of its lower bytes, then of the rest (R254). -/
theorem storeWrite_take_drop {j : Nat} {bs : List Byte} (hj : j ≤ bs.length) (hn : bs.length ≤ 16) :
    storeWrite (storeWrite f off (bs.take j)) (off + BitVec.ofNat 64 j) (bs.drop j) = storeWrite f off bs := by
  funext x
  have hx := sub_add_toNat off x (j := j) (by omega)
  have htake : (bs.take j).length = j := List.length_take_of_le hj
  have hdrop : (bs.drop j).length = bs.length - j := List.length_drop
  simp only [storeWrite, hx, List.getD_eq_getElem?_getD]
  split
  · next hin =>
    rw [List.getElem?_drop, Nat.add_sub_cancel' hin, List.getElem?_eq_none (l := bs.take j) (by omega), Option.getD_none]
  · next hout =>
    rw [List.getElem?_eq_none (l := bs.drop j) (by omega), Option.getD_none, List.getElem?_take_of_lt (by omega)]

end Store

/-! ##### The adapter on it -/

section Granular

variable {v : View} {k : Nat} {d : Device} {depth : Nat} {off : Word} {n : Nat} {bs : List Byte} (f : Word → Byte)

theorem callback_store_rd (hn : n ≤ 16) :
    (callback v k d .rd off n bs).runOn storeAnswer f = .done (some (storeBytes f off n)) f :=
  congrArg (fun data => RunOf.done (some data) f) (answerBytes_store f off hn)

theorem callback_store_wr : (callback v k d .wr off n bs).runOn storeAnswer f = .done (some []) (storeWrite f off bs) := rfl

/-- The window begins `diff` bytes before the offset (R252). -/
theorem alignedOff_add_offDiff (m : Nat) (off : Word) : alignedOff m off + BitVec.ofNat 64 (offDiff m off) = off := by
  rw [offDiff, BitVec.ofNat_toNat, BitVec.setWidth_eq, add_sub_cancel]

/-- The adapter's read of a store returns the bytes asked for. -/
theorem Adapts.read_store (h : Adapts d depth off n) :
    (mmio v k d depth .rd off n bs).runOn storeAnswer f = .done (some (storeBytes f off n)) f := by
  induction h generalizing bs with
  | @widen _ off n hw hs _ ih =>
    have hge := windowSize_ge (opBytes d.minOp) off n
    rw [mmio_widen_rd hw hs, Prog.runOn_bind, ih, RunOf.done_bind, Option.map_some, storeBytes_drop_take _ _ hge,
      alignedOff_add_offDiff]
    rfl
  | split hw hM _ _ _ ihlow ihhigh =>
    rw [mmio_split hw hM, Prog.runOn_bind, ihlow, RunOf.done_bind, Option.elim_some, Prog.runOn_bind, ihhigh, RunOf.done_bind,
      Option.map_some, storeBytes_append, Nat.add_sub_cancel' (Nat.div_le_self _ _)]
    rfl
  | direct hw hM =>
    rw [mmio_direct hw hM, callback_store_rd f (hM.trans (opBytes_le _))]

/-- The adapter's write to a store writes the caller's bytes. -/
theorem Adapts.write_store (h : Adapts d depth off n) (hb : bs.length = n) :
    (mmio v k d depth .wr off n bs).runOn storeAnswer f = .done (some []) (storeWrite f off bs) := by
  induction h generalizing bs f with
  | @widen _ off n hw hs hwindow ih =>
    have hge : offDiff (opBytes d.minOp) off + bs.length ≤ windowSize (opBytes d.minOp) off n :=
      hb ▸ windowSize_ge (opBytes d.minOp) off n
    rw [mmio_widen_wr hw hs, Prog.runOn_bind, hwindow.read_store, RunOf.done_bind, Option.elim_some,
      ih _ (by rw [splice_length (by rwa [storeBytes_length]), storeBytes_length]),
      storeWrite_splice _ _ hge hs, alignedOff_add_offDiff]
  | @split _ off n hw hM hn _ _ ihlow ihhigh =>
    rw [mmio_split hw hM, Prog.runOn_bind, ihlow _ (by simp; omega), RunOf.done_bind, Option.elim_some, Prog.runOn_bind,
      ihhigh _ (by simp [hb]), RunOf.done_bind, storeWrite_take_drop _ _ (hb.symm ▸ Nat.div_le_self _ _) (hb.trans_le hn)]
    rfl
  | direct hw hM =>
    rw [mmio_direct hw hM, callback_store_wr]

end Granular

/-- Settles O60: by induction on the recursion of a call whose window fits (`Adapts.read_store`, `Adapts.write_store`). -/
theorem adapterIsByteGranular : Obligations.AdapterIsByteGranular := by
  intro v k d off n f hd _ hn hfits
  have h : Adapts d mmioDepth off n := adapts_of_fits hd hn hfits
  exact ⟨h.read_store f, fun bs hb => h.write_store f hb⟩

end Sys2Proof.Machine

/-! ### Exceptions (60_exceptions.md): what a faulting walk leaves, the unknown modes, and who raises which trap

An undisturbed run that stores nothing leaves RAM, its canonical form with it (`runOn_perform_ram`). The events in a command's own
name are those of a trace of its program (`run_ownEvents`), and only the traces of ACCESS hold a trap (`exec_own_trap`). -/

namespace Sys2Proof.Machine

open Sys2Proof.Config

/-! #### A run that stores nothing -/

section StoresNothing

variable {s t : State} {α : Type} {p : Prog α} {a : α}

/-- An access that stores to no offset leaves RAM as it is; a compare-and-swap that succeeds on no bytes writes none. -/
theorem perform_ram {x : Atom} (h : ∀ o, ¬ Stores o (x, (perform x s).1)) : (perform x s).2.ram = s.ram := by
  cases x with
  | writeByte o b => exact absurd rfl (h o)
  | cas o n expected desired =>
    cases hok : leWord (s.bytesAt o n) == expected with
    | false => simp [perform, casWord, hok]
    | true =>
      cases n with
      | zero => simp [perform, casWord, hok, leBytes, State.setBytes]
      | succ n => exact absurd ⟨hok, le_rfl, by omega⟩ (h o)
  | device call => exact (congrArg State.ram (deviceDraw_same call s).1 :)
  | lookup | fill | emit | readByte | readWord | pteOrder => rfl

/-- An undisturbed run that ends leaves RAM as it was, if no access of its trace stores. -/
theorem runOn_perform_ram (h : p.runOn perform s = .done a t) :
    ∃ log, p.Trace log a ∧ ((∀ o, ∀ c ∈ log, ¬ Stores o c) → t.ram = s.ram) := by
  induction p generalizing s with
  | done b =>
    cases h
    exact ⟨[], .done _, fun _ => rfl⟩
  | fault e => cases h
  | refused e => cases h
  | op x k ih =>
    obtain ⟨log, htr, hram⟩ := ih _ h
    refine ⟨_, .op htr, fun hno => ?_⟩
    rw [hram fun o c hc => hno o c (List.mem_cons_of_mem _ hc), perform_ram fun o => hno o _ List.mem_cons_self]

/-- The accesses of a walk that faults store nothing: its events are loads (41_walker.md R155). -/
theorem walk_fault_stores_nothing {v : View} {wp : WalkParams} {vaddr acc : Word} {log : List (Atom × Reply)} {why : WalkFault}
    (h : (walk v wp vaddr acc).Trace log (.fault why)) (o : Nat) : ∀ c ∈ log, ¬ Stores o c := by
  obtain ⟨es, trail, -, hreads, -⟩ := walk_trace (K := fun _ => True) h
  intro c hc hs
  obtain ⟨e, he, hto⟩ := trail.stores o c hc hs
  exact not_storesTo_of_isRamRead (hreads why rfl e he) hto

/-- An undisturbed WALK that faults leaves RAM as it was (60_exceptions.md R309). -/
theorem walkCommand_fault_ram {vaddr acc : Word} {why : WalkFault} (hq : Quiet s)
    (h : (walkCommand s.view vaddr acc).run s = .done (.walk (.fault why)) t) : t.ram = s.ram := by
  rw [run_quiet _ hq] at h
  obtain ⟨log, htr, hram⟩ := runOn_perform_ram h
  obtain ⟨wp, r, -, hr, htr⟩ := walkCommand_trace htr
  obtain rfl : WalkResult.fault why = r := Value.walk.inj hr
  exact hram (walk_fault_stores_nothing htr)

/-- A WALK that answers runs under a paged mode. -/
theorem exec_walk_paged {vaddr acc : Word} (h : exec (.walk vaddr acc) s = .next t) :
    ∃ wp, modeParams s.ctx.mode = .paged wp := by
  obtain ⟨-, -, -, -, -, -, hmode⟩ := modeDecoder
  exact modeParams_of_mem (hmode s vaddr acc t h)

end StoresNothing

/-- Settles O38: a walk that faults emits loads alone (`WalkEmits.fault`), fills no slot (`walkCommand_ran`) and stores nothing
(`walkCommand_fault_ram`). -/
theorem failedWalkChangesNothing : Obligations.FailedWalkChangesNothing := by
  intro s t v acc why ht hr
  have hreads : ∀ e ∈ ownEvents s t, isRamRead e = true := by
    obtain ⟨wp, hm⟩ := exec_walk_paged ht
    obtain ⟨r, hr', hw⟩ := exec_walk_emits hm ht
    obtain rfl : WalkResult.fault why = r := Value.walk.inj (hr.unique hr')
    generalize ownEvents s t = es at hw
    cases hw with
    | fault reads => exact reads
  obtain ⟨x, u, hrun, rfl⟩ := finish_eq_next ht
  obtain ⟨log, run⟩ := walkCommand_ran hrun
  obtain rfl : x = .walk (.fault why) := (run.returns x).unique hr
  exact ⟨hreads, run.hart_eq fun _ => id, fun hq => (walkCommand_fault_ram hq hrun :)⟩

/-! #### An access under an unknown mode -/

section UnknownMode

variable {s : State} {op : Op} {vaddr : Word}

/-- Under an unknown mode a translation is a page fault at once (R304). -/
theorem translate_unknown {v : View} (hpriv : effPriv v.ctx op ≠ .machine) (hm : modeParams v.ctx.mode = .unknown) :
    translate v op vaddr = .done (.trap .page) := by
  rw [translate, if_neg hpriv, hm]

/-- A single-page access that misses and whose translation is a trap at once makes no shared access: whatever other agents are to
do, it raises its trap and nothing else. -/
theorem access1_miss_trap {c : TrapClass} (hpriv : effPriv s.ctx op ≠ .reserved) (hmiss : tlbHit s op (vpnOf vaddr) = false)
    (htr : translate s.view op vaddr = .done (.trap c)) (n : Nat) (buf : List Byte) :
    (access1 s.view op vaddr n buf).run s = .done none (s.record [.trap s.cur (trapCause c op) vaddr]) := by
  have hlookup : performAmong (.lookup op (vpnOf vaddr)) s = (.lookup false (s.slotFor (vpnOf vaddr)).hostBias, s) := by
    rw [← hmiss]
    rfl
  rw [access1, view_ctx, if_neg hpriv, Atom.prog_bind, run_op, hlookup, htr]
  rfl

end UnknownMode

/-- Settles O48: the miss is translated to a page fault (`translate_unknown`), and the access is its trap (`access1_miss_trap`). -/
theorem accessUnknownMode : Obligations.AccessUnknownMode := by
  intro s op v n buf hone hmiss hpriv hmode
  obtain ⟨hwidth, hpage, hreserved, hbuf⟩ := hone
  obtain ⟨-, -, -, -, -, hunknown, -⟩ := modeDecoder
  have htrap := access1_miss_trap hreserved hmiss (translate_unknown hpriv (hunknown _ hmode)) n buf
  rw [exec_access hwidth hbuf, access_onePage _ hpage, htrap]
  cases op <;> rfl

/-! #### Who raises a trap -/

section Traps

variable {s t : State} {v : View} {op : Op} {vaddr : Word} {n : Nat} {buf : List Byte} {log : List (Atom × Reply)} {x : Value}

/-- The events that a command leaves in its own hart's name are those of a trace of its program, whatever other agents do. -/
theorem run_ownEvents {p : Prog Value} {E : Refusal → Prop} {R : Value → Prop} (hp : p.Ok s.view False False E R)
    (h : finish (p.run s) = .next t) : ∃ log x, p.Trace log x ∧ ownEvents s t = eventsOf log := by
  obtain ⟨x, u, hrun, rfl⟩ := finish_eq_next h
  obtain ⟨log, htr, ham, -⟩ := run_among hrun
  obtain ⟨es, hes, -, hown⟩ := ham.history
  refine ⟨log, x, htr, ?_⟩
  rw [ownEvents, newEvents_of_append (t := u.give x) hes]
  refine hown fun e he => ?_
  obtain ⟨⟨y, r⟩, hc, hy⟩ := List.mem_filterMap.1 he
  have hok : AtomOk s.view False y := (htr.sat hp fun _ _ c => c.elim).1 _ hc
  cases y <;> cases hy
  exact hok.1

/-- A trap of an ACCESS has a cause of its kind (R301). -/
theorem accessCommand_trap (hb : bufOk op n buf) (h : (accessCommand v op vaddr n buf).Trace log x) {k c : Nat} {tval : Word}
    (hmem : .trap k c tval ∈ eventsOf log) : ∃ cls, c = trapCause cls op := by
  obtain ⟨r, -, htr⟩ := accessCommand_trace h
  obtain ⟨es, hes, hends⟩ := access_trace hb htr
  have hno : .trap k c tval ∉ es := fun hm => Bool.noConfusion (hes _ hm)
  cases r with
  | some data =>
    obtain ⟨trail, -⟩ := hends
    rw [trail.events] at hmem
    exact absurd hmem hno
  | none =>
    obtain ⟨cls, _, -, trail⟩ := hends
    rw [trail.events, List.mem_append, List.mem_singleton] at hmem
    cases hmem.resolve_left hno
    exact ⟨cls, rfl⟩

/-- A WALK raises no trap. -/
theorem walkCommand_no_trap {acc : Word} (h : (walkCommand v vaddr acc).Trace log x) : ∀ e ∈ eventsOf log, isTrap e = false := by
  obtain ⟨wp, r, -, -, htr⟩ := walkCommand_trace h
  obtain ⟨es, trail, hwalk, -⟩ := walk_trace (K := fun _ => True) htr
  rw [trail.events]
  exact fun e he => isTrap_of_walkEvent (hwalk e he)

/-- MMIO.READ and MMIO.WRITE raise no trap: the access fault of a device access is the dispatcher's (42_dispatcher.md R188). -/
theorem mmioCommand_no_trap {dir : Dir} {off dev : Word} (hb : DirBuf dir n buf)
    (h : (mmioCommand v dir off dev n buf).Trace log x) : ∀ e ∈ eventsOf log, isTrap e = false := by
  obtain ⟨r, d, -, -, htr⟩ := mmioCommand_trace h
  obtain ⟨es, trail, hcalls, -⟩ := mmio_trace (K := fun _ => True) hb htr
  rw [trail.events]
  exact fun e he => isTrap_of_legalCall (hcalls e he)

theorem ownEvents_of_history_eq (h : t.history = s.history) : ownEvents s t = [] := by
  simp [ownEvents, newEvents, h]

/-- A trap in a command's own hart's name is raised by an ACCESS, with a cause of its kind (R301). -/
theorem exec_own_trap {i : Instr} (h : exec i s = .next t) {k c : Nat} {tval : Word} (hmem : .trap k c tval ∈ ownEvents s t) :
    ∃ op vaddr n buf cls, i = accessInstr op vaddr n buf ∧ c = trapCause cls op := by
  have access : ∀ op vaddr n buf, bufOk op n buf → finish ((accessCommand s.view op vaddr n buf).run s) = .next t →
      ∃ cls, c = trapCause cls op := by
    intro op vaddr n buf hb h
    obtain ⟨log, x, htr, hlog⟩ := run_ownEvents (E := fun _ => True)
      (accessCommand_ok ⟨trivial, trivial, trivial⟩ False.elim False.elim id) h
    exact accessCommand_trap hb htr (hlog ▸ hmem)
  have adapter : ∀ dir off dev n buf, DirBuf dir n buf → finish ((mmioCommand s.view dir off dev n buf).run s) ≠ .next t := by
    intro dir off dev n buf hb h
    obtain ⟨log, x, htr, hlog⟩ := run_ownEvents (E := fun _ => True)
      (mmioCommand_ok ⟨trivial, trivial⟩ False.elim False.elim) h
    cases mmioCommand_no_trap hb htr _ (hlog ▸ hmem)
  have silent : t.history ≠ s.history := fun hh => by
    rw [ownEvents_of_history_eq hh] at hmem
    cases hmem
  cases i with
  | accessR v n => exact ⟨.R, v, n, [], (access .R v n [] rfl h).imp fun _ hc => ⟨rfl, hc⟩⟩
  | accessW v bs => exact ⟨.W, v, bs.length, bs, (access .W v bs.length bs rfl h).imp fun _ hc => ⟨rfl, hc⟩⟩
  | accessX v n => exact ⟨.X, v, n, [], (access .X v n [] rfl h).imp fun _ hc => ⟨rfl, hc⟩⟩
  | mmioRead off dev n => exact absurd h (adapter .rd off dev n [] (by simp [DirBuf]))
  | mmioWrite off dev bs => exact absurd h (adapter .wr off dev bs.length bs fun _ => rfl)
  | walk v acc =>
    obtain ⟨log, x, htr, hlog⟩ := run_ownEvents (E := fun _ => True) (walkCommand_ok trivial False.elim) h
    cases walkCommand_no_trap htr _ (hlog ▸ hmem)
  | ctxSet root w satpw =>
    obtain ⟨-, u, rfl, rfl | rfl⟩ := execCtxSet_next h <;> exact absurd rfl silent
  | ramInit start size =>
    obtain ⟨-, -, env, ok, rfl, -⟩ := execRamInit_next h
    cases ok <;> exact absurd rfl silent
  | ramFree =>
    obtain ⟨-, rfl⟩ := execRamFree_next h
    exact absurd rfl silent
  | tlbFlush | tlbFlushPage | tlbLookup | tlbFill | physToHost | findMmio =>
    injection h with h
    subst h
    exact absurd rfl silent

end Traps

/-- Settles O51: every trap has a cause of the table (`exec_eventOk`), a command's own trap one of its kind (`exec_own_trap`). -/
theorem trapCauses : Obligations.TrapCauses := by
  refine ⟨rfl, rfl, rfl, rfl, rfl, rfl, fun i s t ht h c tval hmem => ⟨?_, ?_⟩⟩
  · obtain ⟨cls, op, rfl⟩ := exec_eventOk ht _ hmem
    cases cls <;> cases op <;> decide
  · rintro rfl
    obtain ⟨op, v, n, buf, cls, rfl, rfl⟩ := exec_own_trap ht (List.mem_filter.2 ⟨hmem, beq_self_eq_true _⟩)
    cases op <;> cases cls <;> simp [accessInstr, trapCause]

end Sys2Proof.Machine

/-! ### Reset (70_reset_and_hazards.md R340)

A machine at launch lists no hart and no slot, so every slot of every hart is `flushedSlot` (R27), and a flushed slot has the tag of
none of its pages (`slotTag_flushedSlot_ne`). -/

namespace Sys2Proof.Machine

open Sys2Proof.Config

section Launch

variable (p : Params)

/-- Every slot at launch is as a flush leaves it (R27, R340). -/
@[simp] theorem launch_slot (h i : Nat) : (State.launch p).slot h i = flushedSlot p i := rfl

/-- The slot of a page at launch, whichever hart looks. -/
theorem launch_slotFor (h : Nat) (vpn : Word) :
    State.slotFor { State.launch p with cur := h } vpn = flushedSlot p (slotIndex p vpn) :=
  launch_slot p h _

end Launch

/-- Settles O8: every slot at launch is flushed (`launch_slot`), with the tag of none of its pages (`slotTag_flushedSlot_ne`). -/
theorem resetTlb : Obligations.ResetTlb := by
  refine ⟨fun h i => launch_slot defaultParams h i, fun p h op v hp => exec_tlbLookup_miss ?_⟩
  rw [launch_slotFor]
  exact slotTag_flushedSlot_ne op hp v

end Sys2Proof.Machine
